-- ==== Sys2Proof/Word.lean ====
section
/-! DEFINITION. The word types of patchy-ruby CORE (00_scope.md R7 to R9, 30_encoding.md R81). -/

namespace Sys2Proof

/-- One byte of a binary image (20_memory.md R57). -/
abbrev Byte := BitVec 8

/-- One instruction word (30_encoding.md R80). Bit 0 is the least significant bit (00_scope.md R8). -/
abbrev CodeWord := BitVec 32

/-- The opcode field, w[7:0] (30_encoding.md R81). -/
abbrev Opcode := BitVec 8

/-- A register index field, w[11:8] or w[15:12]; all 16 values name a register (30_encoding.md R83). -/
abbrev RegIndex := BitVec 4

/-- The immediate field, w[31:16] (30_encoding.md R81, R84). -/
abbrev Imm := BitVec 16

/-- A general register or a data-memory cell: `w` bits, where `w` is the parameter XLEN
(00_scope.md R6, 10_state.md R20, R35). -/
abbrev Word (w : Nat) := BitVec w

/-- Assembler source text and disassembly text, as a list of characters. -/
abbrev Text := List Char

/-- A Program: an ordered, finite sequence of instruction words (00_scope.md R13, 10_state.md R32). -/
abbrev Program := List CodeWord

end Sys2Proof
end

