-- ==== Sys2Proof/Syntax.lean ====
section
/-! DEFINITION. The instructions of the reference Architecture Table (30_encoding.md R95), the records of an
Architecture Table (10_state.md R34), and the errors a decoder or the Assembler names. -/

namespace Sys2Proof

/-- An operand kind (30_encoding.md R90): `D` a register in the dest field, `S` a register in the src field,
`I` a 16-bit unsigned immediate or a label in the immediate field. -/
inductive Kind where
  | D
  | S
  | I
deriving DecidableEq, Repr

/-- An operation the spec gives a meaning: one for each row of 30_encoding.md R95. -/
inductive Op where
  | halt
  | nop
  | ldi
  | mov
  | add
  | sub
  | and
  | or
  | xor
  | shl
  | shr
  | addi
  | jmp
  | jz
  | jnz
  | ld
  | st
  | inp
deriving DecidableEq, Repr

/-- An instruction: one constructor per row of spec/opcode_table.json, its arguments the fields that its operand kinds
name (30_encoding.md R85, R90, R95). The field's name stands for its place: `rd` is dest, `rs` is src. -/
inductive Instr where
  /-- `HALT`, 0x00 (43_control.md R201) -/
  | halt
  /-- `NOP`, 0x01 (43_control.md R202) -/
  | nop
  /-- `LDI rd, imm`, 0x02 (41_alu.md R160) -/
  | ldi (rd : RegIndex) (imm : Imm)
  /-- `MOV rd, rs`, 0x03 (41_alu.md R161) -/
  | mov (rd rs : RegIndex)
  /-- `ADD rd, rs`, 0x04 (41_alu.md R162) -/
  | add (rd rs : RegIndex)
  /-- `SUB rd, rs`, 0x05 (41_alu.md R163) -/
  | sub (rd rs : RegIndex)
  /-- `AND rd, rs`, 0x06 (41_alu.md R164) -/
  | and (rd rs : RegIndex)
  /-- `OR rd, rs`, 0x07 (41_alu.md R165) -/
  | or (rd rs : RegIndex)
  /-- `XOR rd, rs`, 0x08 (41_alu.md R166) -/
  | xor (rd rs : RegIndex)
  /-- `SHL rd, rs`, 0x09 (41_alu.md R167) -/
  | shl (rd rs : RegIndex)
  /-- `SHR rd, rs`, 0x0A (41_alu.md R168) -/
  | shr (rd rs : RegIndex)
  /-- `ADDI rd, imm`, 0x0B (41_alu.md R169) -/
  | addi (rd : RegIndex) (imm : Imm)
  /-- `JMP target`, 0x10 (43_control.md R204) -/
  | jmp (imm : Imm)
  /-- `JZ rs, target`, 0x11 (43_control.md R205) -/
  | jz (rs : RegIndex) (imm : Imm)
  /-- `JNZ rs, target`, 0x12 (43_control.md R206) -/
  | jnz (rs : RegIndex) (imm : Imm)
  /-- `LD rd, rs, imm`, 0x20 (42_memory_io.md R181) -/
  | ld (rd rs : RegIndex) (imm : Imm)
  /-- `ST rd, rs, imm`, 0x21 (42_memory_io.md R182); `rd` is the address base -/
  | st (rd rs : RegIndex) (imm : Imm)
  /-- `IN rd`, 0x30 (42_memory_io.md R183) -/
  | inp (rd : RegIndex)
deriving DecidableEq, Repr

/-- The operation an instruction performs. -/
def Instr.op : Instr → Op
  | .halt => .halt
  | .nop => .nop
  | .ldi _ _ => .ldi
  | .mov _ _ => .mov
  | .add _ _ => .add
  | .sub _ _ => .sub
  | .and _ _ => .and
  | .or _ _ => .or
  | .xor _ _ => .xor
  | .shl _ _ => .shl
  | .shr _ _ => .shr
  | .addi _ _ => .addi
  | .jmp _ => .jmp
  | .jz _ _ => .jz
  | .jnz _ _ => .jnz
  | .ld _ _ _ => .ld
  | .st _ _ _ => .st
  | .inp _ => .inp

/-- The four fields of an instruction word (30_encoding.md R81). -/
structure Fields where
  op : Opcode
  rd : RegIndex
  rs : RegIndex
  imm : Imm
deriving DecidableEq, Repr

/-! ### Operations of other tables

A table may have any operation as its `sem` (10_state.md R33, R34, 30_encoding.md R95 last paragraph). One that is none of
the 18 is described as plain data, in the terms of 40_execution_loop.md R137: values computed from the state before the
step, writes, a next-pc action, faults, and the wait of a peripheral read (log entry 3). -/

/-- A function of two natural numbers. -/
inductive BinaryOp where
  | add
  | mul
  /-- the difference, 0 where it is negative -/
  | sub
  /-- the quotient, 0 for the divisor 0 -/
  | div
  /-- the remainder, the dividend for the divisor 0 -/
  | mod
  | and
  | or
  | xor
  /-- 1 where the two are equal, else 0 -/
  | eq
  /-- 1 where the first is less, else 0 -/
  | lt
  /-- function number `n` of those nothing is said of: any function (`Config.freeFunction`) -/
  | free (n : Nat)
deriving DecidableEq, Repr

/-- A value an operation computes, a natural number. -/
inductive Expr where
  | const (n : Nat)
  /-- the number in the field that the kind names (30_encoding.md R90) -/
  | field (k : Kind)
  | xlen
  | memWords
  | pc
  /-- the event taken; 0 in an operation that takes none -/
  | event
  /-- `x[index]`, the index computed (40_execution_loop.md R146) -/
  | register (index : Expr)
  /-- `MemRead(address, 1)` (20_memory.md R52) -/
  | cell (address : Expr)
  | binary (f : BinaryOp) (a b : Expr)
  /-- `a` where `c` is not 0, else `b`; the other one is not computed -/
  | choose (c a b : Expr)
deriving DecidableEq, Repr

/-- Where an operation writes. -/
inductive Destination where
  /-- `x[index]`, the index computed (40_execution_loop.md R146) -/
  | register (index : Expr)
  /-- cell `address` (20_memory.md R52) -/
  | cell (address : Expr)
deriving DecidableEq, Repr

/-- One write of an operation: the low XLEN bits of the value (00_scope.md R9). -/
structure OperationWrite where
  dest : Destination
  value : Expr
deriving DecidableEq, Repr

/-- The next-pc action of an operation (40_execution_loop.md R137, R139). -/
inductive Transfer where
  | next
  | jump (target : Expr)
  | halt
  /-- the first where the condition is not 0, else the second -/
  | choose (c : Expr) (a b : Transfer)
deriving DecidableEq, Repr

/-- A fault cause that an operation may raise (10_state.md R30); UnknownOpcode belongs to decode. -/
inductive OperationFault where
  | memOutOfRange
  | regOutOfRange
  | inputUnavailable
deriving DecidableEq, Repr

/-- An operation as data (40_execution_loop.md R137, log entry 3). -/
structure Operation where
  /-- a peripheral read: it takes an event, waits or faults as IN does (42_memory_io.md R183) -/
  takesEvent : Bool
  /-- the faults of its own: the first whose condition is not 0 is raised -/
  raises : List (Expr × OperationFault)
  writes : List OperationWrite
  transfer : Transfer
deriving DecidableEq, Repr

/-- The `sem` of a record: the operation the ALU dispatch performs (10_state.md R34). -/
inductive Sem where
  /-- one of the 18 operations of the reference table -/
  | reference (o : Op)
  /-- any other -/
  | described (p : Operation)
deriving DecidableEq, Repr

/-- What a word decodes to under a table: an instruction, or an operation of that table with the word's fields. -/
inductive Decoded where
  | instr (i : Instr)
  | operation (p : Operation) (f : Fields)
deriving DecidableEq, Repr

/-- One record of an Architecture Table (10_state.md R34). The opcode is an integer here: that it lies in [0, 255] is
condition (d) of R33, checked in WellFormed.lean. -/
structure InstructionSpec where
  mnemonic : String
  opcode : Nat
  name : String
  kinds : List Kind
  description : String
  sem : Sem
deriving DecidableEq, Repr

/-- The Instruction Architecture Table: a finite list of records (10_state.md R33). -/
abbrev ArchTable := List InstructionSpec

/-- One record of the table's definition source, in which a required field may be missing
(10_state.md R33 condition (c)). DESIGN CHOICE: the source's record has R34's six fields, `kinds` and `sem` among them; the
spec does not say where a definition source keeps those two (90_conflicts.md C3, 91_not_in_source.md N3, log entry 18). -/
structure SourceRecord where
  mnemonic : Option String
  opcode : Option Nat
  name : Option String
  kinds : Option (List Kind)
  description : Option String
  sem : Option Sem
deriving DecidableEq, Repr

/-- Why a decoder gives no instruction. -/
inductive DecodeError where
  /-- `lookup(op) = NotFound` (40_execution_loop.md R131, R135). -/
  | unknownOpcode (op : Opcode)
  /-- the table's operation is none of the 18, so the word is no `Instr`; never under the reference table. -/
  | notAnInstr (op : Opcode)
  /-- fewer than 4 bytes are left: a truncated word (20_memory.md R57). -/
  | truncatedWord
deriving DecidableEq, Repr

/-- Why the Assembler gives no Program (30_encoding.md R104 to R108). -/
inductive AsmReason where
  | unknownMnemonic
  | wrongOperandCount
  | wrongOperandKind
  | registerOutOfRange
  | immediateOutOfRange
  | undefinedLabel (name : Text)
  | duplicateLabel (name : Text)
  /-- a token that starts as a number and is none (log entry 15) -/
  | malformedNumber
deriving DecidableEq, Repr

/-- `AssemblyError{line, reason}` (30_encoding.md R100). Lines count from 1. -/
structure AssemblyError where
  line : Nat
  reason : AsmReason
deriving DecidableEq, Repr

end Sys2Proof
end

