-- ==== Sys2Proof/WellFormed.lean ====
section
/-! DEFINITION. The checks of an Architecture Table (10_state.md R33, 30_encoding.md R90) and of an instruction under a
table (30_encoding.md R86). -/

namespace Sys2Proof

/-- A mnemonic after case normalization: upper case (10_state.md R33 (b), 30_encoding.md R103). DESIGN CHOICE: the letters
a to z alone change; the spec does not say what becomes of a letter outside ASCII, which stays as it is (log entry 3). -/
def normalizeMnemonic (m : Text) : Text :=
  m.map Char.toUpper

/-- The record's mnemonic, case-normalized. -/
def InstructionSpec.key (r : InstructionSpec) : Text :=
  normalizeMnemonic r.mnemonic.toList

/-- 10_state.md R33 (a): no two records have the same opcode. -/
def ArchTable.opcodesUnique (t : ArchTable) : Bool :=
  decide (t.map InstructionSpec.opcode).Nodup

/-- 10_state.md R33 (b): no two records have the same mnemonic after case normalization. -/
def ArchTable.mnemonicsUnique (t : ArchTable) : Bool :=
  decide (t.map InstructionSpec.key).Nodup

/-- 10_state.md R34: every mnemonic is case-normalized. DESIGN CHOICE: this is a condition of well-formedness beside the four
of R33 (log entry 3). -/
def ArchTable.mnemonicsNormalized (t : ArchTable) : Bool :=
  t.all fun r => decide (r.mnemonic.toList = r.key)

/-- 30_encoding.md R90: each kind occurs at most once in a record's list. -/
def ArchTable.kindsOnce (t : ArchTable) : Bool :=
  t.all fun r => decide r.kinds.Nodup

/-- 10_state.md R33 (d): every opcode is in [0, 255]. -/
def ArchTable.opcodesInRange (t : ArchTable) : Bool :=
  t.all fun r => decide (r.opcode ≤ 255)

/-- 10_state.md R33: conditions (a), (b) and (d), with R34's on mnemonics and R90's on kinds. Condition (c), every required field,
is checked where records are read (`ArchTable.ofSource`): an `InstructionSpec` has all of them. -/
def ArchTable.wellFormed (t : ArchTable) : Bool :=
  t.opcodesUnique && t.mnemonicsUnique && t.mnemonicsNormalized && t.kindsOnce && t.opcodesInRange

/-- 10_state.md R33 (c): a source record with every required field is a record, its mnemonic
case-normalized (R34); one with a field missing is none. DESIGN CHOICE: each of R34's six fields is a required one, an
empty `description` being one that is there (log entry 18). -/
def SourceRecord.complete? (r : SourceRecord) : Option InstructionSpec := do
  let mnemonic ← r.mnemonic
  let opcode ← r.opcode
  let name ← r.name
  let kinds ← r.kinds
  let description ← r.description
  let sem ← r.sem
  return { mnemonic := String.ofList (normalizeMnemonic mnemonic.toList), opcode, name, kinds, description, sem }

/-- Loading a table from its definition source: any missing field or broken condition is fatal, and there is no table
(10_state.md R33, 70_reset_and_hazards.md R262 step 1). -/
def ArchTable.ofSource (src : List SourceRecord) : Option ArchTable := do
  let t ← src.mapM SourceRecord.complete?
  if ArchTable.wellFormed t then some t else none

/-- A field that no kind names holds 0, the value the Assembler writes there (30_encoding.md R85, R107 (f)). -/
def fieldNamed {n : Nat} (ks : List Kind) (k : Kind) (v : BitVec n) : Bool :=
  decide (k ∈ ks) || decide (v = 0#n)

/-- Every operand lies in a field that the kinds name, or is 0. -/
def Instr.operandsNamed (ks : List Kind) : Instr → Bool
  | .halt => true
  | .nop => true
  | .ldi rd imm => fieldNamed ks .D rd && fieldNamed ks .I imm
  | .mov rd rs => fieldNamed ks .D rd && fieldNamed ks .S rs
  | .add rd rs => fieldNamed ks .D rd && fieldNamed ks .S rs
  | .sub rd rs => fieldNamed ks .D rd && fieldNamed ks .S rs
  | .and rd rs => fieldNamed ks .D rd && fieldNamed ks .S rs
  | .or rd rs => fieldNamed ks .D rd && fieldNamed ks .S rs
  | .xor rd rs => fieldNamed ks .D rd && fieldNamed ks .S rs
  | .shl rd rs => fieldNamed ks .D rd && fieldNamed ks .S rs
  | .shr rd rs => fieldNamed ks .D rd && fieldNamed ks .S rs
  | .addi rd imm => fieldNamed ks .D rd && fieldNamed ks .I imm
  | .jmp imm => fieldNamed ks .I imm
  | .jz rs imm => fieldNamed ks .S rs && fieldNamed ks .I imm
  | .jnz rs imm => fieldNamed ks .S rs && fieldNamed ks .I imm
  | .ld rd rs imm => fieldNamed ks .D rd && fieldNamed ks .S rs && fieldNamed ks .I imm
  | .st rd rs imm => fieldNamed ks .D rd && fieldNamed ks .S rs && fieldNamed ks .I imm
  | .inp rd => fieldNamed ks .D rd

/-- A record can stand for an instruction: it has the instruction's operation, and its kinds name the instruction's
operands (30_encoding.md R85, R86). -/
def InstructionSpec.canEncode (r : InstructionSpec) (i : Instr) : Bool :=
  decide (r.sem = .reference i.op) && i.operandsNamed r.kinds

/-- An instruction is well-formed under a table when some record can stand for it. Every 4-bit and 16-bit value of a
field is valid (30_encoding.md R83, R84). -/
def Instr.wellFormedIn (t : ArchTable) (i : Instr) : Bool :=
  t.any fun r => r.canEncode i

end Sys2Proof
end

