-- ==== Sys2Proof/Decode.lean ====
section
/-! DEFINITION. The decoder and the encoder: fields (30_encoding.md R81, R82), the reference table (R95), `lookup`
(40_execution_loop.md R131), the image's bytes (20_memory.md R57), decoding (40_execution_loop.md R135) and encoding. -/

namespace Sys2Proof

/-! ### Fields of a word -/

/-- `unpack(w)` (30_encoding.md R82): defined for every word. -/
def unpack (w : CodeWord) : Fields where
  op := w.extractLsb' 0 8
  rd := w.extractLsb' 8 4
  rs := w.extractLsb' 12 4
  imm := w.extractLsb' 16 16

/-- `pack(op, rd, rs, imm)` (30_encoding.md R82). -/
def pack (f : Fields) : CodeWord :=
  f.op.setWidth 32 ||| (f.rd.setWidth 32 <<< 8) ||| (f.rs.setWidth 32 <<< 12) ||| (f.imm.setWidth 32 <<< 16)

/-! ### The binary image -/

/-- The four bytes of a word, the first at the lowest offset: byte k holds bits 8k+7 to 8k (20_memory.md R57). -/
def bytesOfWord (w : CodeWord) : List Byte :=
  [w.extractLsb' 0 8, w.extractLsb' 8 8, w.extractLsb' 16 8, w.extractLsb' 24 8]

/-- The word made of four image bytes, the lowest offset first (20_memory.md R57). -/
def wordOfBytes (b0 b1 b2 b3 : Byte) : CodeWord :=
  b0.setWidth 32 ||| (b1.setWidth 32 <<< 8) ||| (b2.setWidth 32 <<< 16) ||| (b3.setWidth 32 <<< 24)

/-- The Program of a binary image (20_memory.md R57): no header, end of file is end of Program; `none` is the fatal load
error of a truncated trailing word. No opcode is checked here (D32). -/
def programOfImage : List Byte → Option Program
  | [] => some []
  | b0 :: b1 :: b2 :: b3 :: rest => (programOfImage rest).map (wordOfBytes b0 b1 b2 b3 :: ·)
  | [_] => none
  | [_, _] => none
  | [_, _, _] => none

/-- The image of a Program (20_memory.md R57). -/
def imageOfProgram (p : Program) : List Byte :=
  p.flatMap bytesOfWord

/-! ### The reference Architecture Table -/

/-- The operand kinds of each operation in the reference table (30_encoding.md R95). -/
def Op.kinds : Op → List Kind
  | .halt => []
  | .nop => []
  | .ldi => [.D, .I]
  | .mov => [.D, .S]
  | .add => [.D, .S]
  | .sub => [.D, .S]
  | .and => [.D, .S]
  | .or => [.D, .S]
  | .xor => [.D, .S]
  | .shl => [.D, .S]
  | .shr => [.D, .S]
  | .addi => [.D, .I]
  | .jmp => [.I]
  | .jz => [.S, .I]
  | .jnz => [.S, .I]
  | .ld => [.D, .S, .I]
  | .st => [.D, .S, .I]
  | .inp => [.D]

/-- The opcode of each operation in the reference table (30_encoding.md R95). -/
def Op.opcode : Op → Opcode
  | .halt => 0x00
  | .nop => 0x01
  | .ldi => 0x02
  | .mov => 0x03
  | .add => 0x04
  | .sub => 0x05
  | .and => 0x06
  | .or => 0x07
  | .xor => 0x08
  | .shl => 0x09
  | .shr => 0x0A
  | .addi => 0x0B
  | .jmp => 0x10
  | .jz => 0x11
  | .jnz => 0x12
  | .ld => 0x20
  | .st => 0x21
  | .inp => 0x30

/-- The reference table of 30_encoding.md R95, row by row. The spec gives its rows no description: the string is
empty, and nothing reads it. -/
def ArchTable.reference : ArchTable :=
  [ ⟨"HALT", 0x00, "Halt", [], "", .reference .halt⟩,
    ⟨"NOP", 0x01, "No operation", [], "", .reference .nop⟩,
    ⟨"LDI", 0x02, "Load immediate", [.D, .I], "", .reference .ldi⟩,
    ⟨"MOV", 0x03, "Move register", [.D, .S], "", .reference .mov⟩,
    ⟨"ADD", 0x04, "Add", [.D, .S], "", .reference .add⟩,
    ⟨"SUB", 0x05, "Subtract", [.D, .S], "", .reference .sub⟩,
    ⟨"AND", 0x06, "Bitwise and", [.D, .S], "", .reference .and⟩,
    ⟨"OR", 0x07, "Bitwise or", [.D, .S], "", .reference .or⟩,
    ⟨"XOR", 0x08, "Bitwise exclusive or", [.D, .S], "", .reference .xor⟩,
    ⟨"SHL", 0x09, "Shift left logical", [.D, .S], "", .reference .shl⟩,
    ⟨"SHR", 0x0A, "Shift right logical", [.D, .S], "", .reference .shr⟩,
    ⟨"ADDI", 0x0B, "Add immediate", [.D, .I], "", .reference .addi⟩,
    ⟨"JMP", 0x10, "Jump", [.I], "", .reference .jmp⟩,
    ⟨"JZ", 0x11, "Jump if zero", [.S, .I], "", .reference .jz⟩,
    ⟨"JNZ", 0x12, "Jump if not zero", [.S, .I], "", .reference .jnz⟩,
    ⟨"LD", 0x20, "Load word", [.D, .S, .I], "", .reference .ld⟩,
    ⟨"ST", 0x21, "Store word", [.D, .S, .I], "", .reference .st⟩,
    ⟨"IN", 0x30, "Peripheral read", [.D], "", .reference .inp⟩ ]

/-! ### Lookup -/

/-- `lookup(op)`: the record whose opcode equals `op`, or `none` for NotFound (40_execution_loop.md R131). -/
def ArchTable.lookup (t : ArchTable) (op : Opcode) : Option InstructionSpec :=
  t.find? fun r => decide (r.opcode = op.toNat)

/-- `lookup(mnemonic)`, the Assembler's (40_execution_loop.md R131, 30_encoding.md R103): case does not matter. -/
def ArchTable.lookupMnemonic (t : ArchTable) (m : Text) : Option InstructionSpec :=
  t.find? fun r => decide (r.key = normalizeMnemonic m)

/-- `all()`: the records in table order, for display (40_execution_loop.md R131). -/
def ArchTable.all (t : ArchTable) : List InstructionSpec :=
  t

/-! ### Decoding -/

/-- The instruction an operation makes of a word's fields; a field the operation's kinds do not name is ignored
(30_encoding.md R85). -/
def Op.build (o : Op) (f : Fields) : Instr :=
  match o with
  | .halt => .halt
  | .nop => .nop
  | .ldi => .ldi f.rd f.imm
  | .mov => .mov f.rd f.rs
  | .add => .add f.rd f.rs
  | .sub => .sub f.rd f.rs
  | .and => .and f.rd f.rs
  | .or => .or f.rd f.rs
  | .xor => .xor f.rd f.rs
  | .shl => .shl f.rd f.rs
  | .shr => .shr f.rd f.rs
  | .addi => .addi f.rd f.imm
  | .jmp => .jmp f.imm
  | .jz => .jz f.rs f.imm
  | .jnz => .jnz f.rs f.imm
  | .ld => .ld f.rd f.rs f.imm
  | .st => .st f.rd f.rs f.imm
  | .inp => .inp f.rd

/-- The fields with 0 in each field that no kind of the list names: what such a field holds is ignored
(30_encoding.md R85). 0 is what the Assembler writes there (R107 (f)); log entry 3 for an operation that reads it. -/
def Fields.named (ks : List Kind) (f : Fields) : Fields where
  op := f.op
  rd := if Kind.D ∈ ks then f.rd else 0
  rs := if Kind.S ∈ ks then f.rs else 0
  imm := if Kind.I ∈ ks then f.imm else 0

/-- What a record's operation makes of a word's fields. -/
def Sem.decode (sem : Sem) (f : Fields) : Decoded :=
  match sem with
  | .reference o => .instr (o.build f)
  | .described p => .operation p f

/-- Decoding a word under a table: unpack, then `lookup(op)` (40_execution_loop.md R135). Only `op` selects the
operation; an opcode not in the table is rejected by name (30_encoding.md R86). A field that the record's kinds do not
name is ignored (R85). -/
def decodeWith (t : ArchTable) (w : CodeWord) : Except DecodeError Decoded :=
  match t.lookup (unpack w).op with
  | some r => .ok (r.sem.decode ((unpack w).named r.kinds))
  | none => .error (.unknownOpcode (unpack w).op)

/-- Decoding a word as an instruction under the reference table. -/
def decode (w : CodeWord) : Except DecodeError Instr :=
  match decodeWith ArchTable.reference w with
  | .ok (.instr i) => .ok i
  | .ok (.operation _ f) => .error (.notAnInstr f.op)
  | .error d => .error d

/-- Decoding the next 4 bytes of an image as one instruction (30_encoding.md R80), with the bytes left over. Total on
any bytes. -/
def decodeBytes (bs : List Byte) : Except DecodeError (Instr × List Byte) :=
  match bs with
  | b0 :: b1 :: b2 :: b3 :: rest =>
    match decode (wordOfBytes b0 b1 b2 b3) with
    | .ok i => .ok (i, rest)
    | .error e => .error e
  | [] => .error .truncatedWord
  | [_] => .error .truncatedWord
  | [_, _] => .error .truncatedWord
  | [_, _, _] => .error .truncatedWord

/-- The word of an instruction whose low `nbits` bits are those of `v`, every bit above them 0. -/
def tableWord (nbits v : Nat) : CodeWord :=
  BitVec.ofNat 32 (v % 2 ^ nbits)

/-- The instruction the decoder reads from an instruction whose bits are `v`, laid out as image bytes. -/
def decodeTableWord (nbits v : Nat) : Option Instr :=
  match decodeBytes (bytesOfWord (tableWord nbits v)) with
  | .ok (i, _) => some i
  | .error _ => none

/-! ### Encoding -/

/-- The fields of an instruction whose opcode is `op`: a field no kind names is 0 (30_encoding.md R107 (f)). -/
def Instr.fields (op : Opcode) : Instr → Fields
  | .halt => ⟨op, 0, 0, 0⟩
  | .nop => ⟨op, 0, 0, 0⟩
  | .ldi rd imm => ⟨op, rd, 0, imm⟩
  | .mov rd rs => ⟨op, rd, rs, 0⟩
  | .add rd rs => ⟨op, rd, rs, 0⟩
  | .sub rd rs => ⟨op, rd, rs, 0⟩
  | .and rd rs => ⟨op, rd, rs, 0⟩
  | .or rd rs => ⟨op, rd, rs, 0⟩
  | .xor rd rs => ⟨op, rd, rs, 0⟩
  | .shl rd rs => ⟨op, rd, rs, 0⟩
  | .shr rd rs => ⟨op, rd, rs, 0⟩
  | .addi rd imm => ⟨op, rd, 0, imm⟩
  | .jmp imm => ⟨op, 0, 0, imm⟩
  | .jz rs imm => ⟨op, 0, rs, imm⟩
  | .jnz rs imm => ⟨op, 0, rs, imm⟩
  | .ld rd rs imm => ⟨op, rd, rs, imm⟩
  | .st rd rs imm => ⟨op, rd, rs, imm⟩
  | .inp rd => ⟨op, rd, 0, 0⟩

/-- The word of an instruction under the reference table (30_encoding.md R95, R107). -/
def encode (i : Instr) : CodeWord :=
  pack (i.fields i.op.opcode)

/-- The word of an instruction under any table: the first record that can stand for it gives the opcode; `none` where
the table has no such record (the instruction is not well-formed under it). -/
def encodeWith (t : ArchTable) (i : Instr) : Option CodeWord :=
  (t.find? fun r => r.canEncode i).map fun r => pack (i.fields (BitVec.ofNat 8 r.opcode))

end Sys2Proof
end

