-- ==== Sys2Proof/Config.lean ====
section
/-! DEFINITION. The implementation parameters (00_scope.md R6): plain data fixed when an engine is constructed
(70_reset_and_hazards.md R262), carried in the state so that every statement holds for every value of them. XLEN is the
type parameter `w`. The two opaque constants stand for any set of boundaries and any function that a parameter may bring
(log entries 3 and 6); the outside agents' choices are draws of the agenda (log entry 5). -/

namespace Sys2Proof

/-- Whether boundary `b` is in the set of boundaries number `n`: nothing is said of it, so a statement that holds for the
policy `.free n` holds for any set of boundaries (log entry 6). -/
opaque Config.freeBoundary : Nat → Nat → Bool

/-- The value of function number `n`: nothing is said of it, so a statement that holds for an operation that applies it
holds for any function (log entry 3). -/
opaque Config.freeFunction : Nat → Nat → Nat → Nat

/-- SNAPSHOT_POLICY, any set of instruction boundaries (00_scope.md R6, 60_exceptions.md R241), as plain data (log entry
6). Boundary n lies between the n-th cycle and the next. -/
inductive SnapshotPolicy where
  /-- the boundaries listed -/
  | listed (bs : List Nat)
  /-- all boundaries but those listed -/
  | except (bs : List Nat)
  /-- the boundaries whose remainder by the period is listed -/
  | periodic (period : Nat) (residues : List Nat)
  /-- the set number `n` of those nothing is said of: any set -/
  | free (n : Nat)
deriving DecidableEq, Repr

/-- The parameters of 00_scope.md R6 other than XLEN and INPUT (the renderer's sends, in the agenda). -/
structure Config (w : Nat) where
  /-- MEM_WORDS (20_memory.md R51) -/
  memWords : Nat
  /-- MEM_INIT (10_state.md R35), the cells that are not zero in rising order of address -/
  memInit : List (Nat × Word w)
  /-- ARCH_TABLE (10_state.md R33) -/
  archTable : ArchTable
  /-- HAS_INPUT (10_state.md R36) -/
  hasInput : Bool
  /-- HAS_OUTPUT (10_state.md R36) -/
  hasOutput : Bool
  /-- how many snapshots the output channel holds; `none` is unbounded, `some 0` unbuffered
  (93_implementation_defined.md I8, log entry 7) -/
  outputCapacity : Option Nat
  /-- SNAPSHOT_POLICY (60_exceptions.md R241) -/
  snapshotPolicy : SnapshotPolicy
deriving DecidableEq, Repr

/-- The reference value of XLEN (00_scope.md R6). -/
def Config.referenceXlen : Nat := 32

/-- The reference configuration (00_scope.md R6): 256 cells, all zero, the reference table, headless, no snapshot.
DESIGN CHOICE: the capacity of the absent output channel (log entry 7). -/
def Config.reference : Config Config.referenceXlen where
  memWords := 256
  memInit := []
  archTable := ArchTable.reference
  hasInput := false
  hasOutput := false
  outputCapacity := none
  snapshotPolicy := .listed []

end Sys2Proof
end

