-- ==== Sys2Proof/Machine/State.lean ====
section
/-! DEFINITION. The state of the engine as plain data (10_state.md R20 to R40), the messages that cross its interfaces
(60_exceptions.md R240 to R245), the reasons a step could stop, and the state after reset (70_reset_and_hazards.md R260). -/

namespace Sys2Proof.Machine

/-- `run_state` (10_state.md R31). -/
inductive RunState where
  | ready
  | running
  | halted
  | faulted
deriving DecidableEq, Repr

/-- `fault_cause` (10_state.md R30); the numbers are `FaultCause.code`. -/
inductive FaultCause where
  | none
  | unknownOpcode
  | memOutOfRange
  | regOutOfRange
  | inputUnavailable
deriving DecidableEq, Repr

/-- The flags register (10_state.md R29): bit 0 is HALT and every other bit reads 0, so HALT is all it stores. Its
value as a number is `Flags.value` (log entry 13). -/
structure Flags where
  halt : Bool
deriving DecidableEq, Repr

/-- Data memory: (address, cell) pairs in one canonical form, addresses strictly rising and no cell equal to 0, which
is what an unlisted address reads as (10_state.md R35, 20_memory.md R51, log entry 2). -/
abbrev Memory (w : Nat) := List (Nat × Word w)

/-- MachineState (10_state.md, head of the file), with the two fields that 60_exceptions.md R241 and R243 add to every
copy of it: what a core dump and a snapshot hold. -/
structure MachineState (w : Nat) where
  /-- the program counter, an index into the Program (10_state.md R25) -/
  pc : Nat
  /-- the general registers (10_state.md R20) -/
  regs : Vector (Word w) 16
  /-- the flags register (10_state.md R29) -/
  flags : Flags
  /-- the data memory (10_state.md R35) -/
  mem : Memory w
  /-- the run state (10_state.md R31) -/
  runState : RunState
  /-- the fault cause register (10_state.md R30) -/
  faultCause : FaultCause
deriving DecidableEq, Repr

/-- The outcome of a run, reported to the engine's caller (40_execution_loop.md R147, R148, 60_exceptions.md R230). -/
inductive RunReport where
  | halted
  | faulted (cause : FaultCause)
  | terminated
deriving DecidableEq, Repr

/-- What the engine gives back to its host (60_exceptions.md R245), and the errors of the steps before `load`
(60_exceptions.md R227). -/
inductive HostMessage (w : Nat) where
  /-- the outcome of the run (40_execution_loop.md R148) -/
  | outcome (r : RunReport)
  /-- a core dump (60_exceptions.md R243) -/
  | dump (m : MachineState w)
  /-- a disassembly string (30_encoding.md R111) -/
  | text (s : Text)
  /-- the fatal load error of a truncated image (20_memory.md R57) -/
  | loadError
  /-- an assembly error (30_encoding.md R100) -/
  | assemblyError (e : AssemblyError)
deriving DecidableEq, Repr

/-- What a receive of the renderer returns (60_exceptions.md R240, R242). -/
inductive RendererMessage (w : Nat) where
  | snapshot (m : MachineState w)
  | endOfStream
deriving DecidableEq, Repr

/-- The renderer-to-engine channel (10_state.md R36, 42_memory_io.md R186). -/
structure InChannel (w : Nat) where
  /-- the events not yet received, oldest first -/
  queue : List (Word w)
  isOpen : Bool
deriving DecidableEq, Repr

/-- The engine-to-renderer channel (10_state.md R36, 60_exceptions.md R240 to R242). -/
structure OutChannel (w : Nat) where
  /-- the snapshots not yet received, oldest first -/
  queue : List (MachineState w)
  isOpen : Bool
  /-- the renderer is blocked on a receive (95_test_vectors.md V8, log entry 11) -/
  waiting : Bool
  /-- what the renderer's receives have returned, oldest first (log entry 11) -/
  delivered : List (RendererMessage w)
deriving DecidableEq, Repr

/-- What the host may do (60_exceptions.md R245), with the ways of making the Program that `load` takes
(70_reset_and_hazards.md R262 step 3). -/
inductive HostCall where
  /-- `load(P)` (40_execution_loop.md R142) -/
  | load (p : Program)
  /-- `load` of the Program of a binary image (20_memory.md R57) -/
  | loadImage (bytes : List Byte)
  /-- `load` of the Program the Assembler makes of a source (30_encoding.md R100) -/
  | loadSource (source : Text)
  /-- `run()` (40_execution_loop.md R143) -/
  | run
  /-- the termination request, taken now (60_exceptions.md R230, R231); the draw says whether the best-effort dump is
  produced (93_implementation_defined.md I12, log entry 10) -/
  | terminate (dumpProduced : Bool)
  /-- `dump_core()` (60_exceptions.md R243) -/
  | dumpCore
  /-- `gen_debug_instruction_string(w)` (30_encoding.md R111) -/
  | disassemble (word : CodeWord)
deriving DecidableEq, Repr

/-- What the renderer may do (60_exceptions.md R245). -/
inductive RendererAct (w : Nat) where
  /-- send one input event (42_memory_io.md R186); the draw says whether it is queued where the channel is already
  closed, which the spec does not state (log entry 9) -/
  | sendEvent (v : Word w) (queuedIfClosed : Bool)
  /-- close the input channel -/
  | closeInput
  /-- receive a snapshot -/
  | receiveSnapshot
deriving DecidableEq, Repr

/-- One turn: which agent moves, and what it does (log entry 5). -/
inductive Turn (w : Nat) where
  | engine
  | host (c : HostCall)
  | renderer (a : RendererAct w)
deriving DecidableEq, Repr

/-- The engine with all that its interfaces hold, for registers and cells of `w` bits (10_state.md R40). -/
structure Engine (w : Nat) where
  /-- the parameters (00_scope.md R6), written by no step -/
  cfg : Config w
  /-- MachineState, `run_state` and `fault_cause` -/
  core : MachineState w
  /-- the Program store (10_state.md R32) -/
  prog : Program
  /-- the input channel, present when HAS_INPUT holds (10_state.md R36) -/
  input : Option (InChannel w)
  /-- the output channel, present when HAS_OUTPUT holds (10_state.md R36) -/
  output : Option (OutChannel w)
  /-- MODEL's own: the number of cycles executed, which numbers the instruction boundaries (log entry 6) -/
  cycles : Nat
  /-- MODEL's own: the present boundary owes a snapshot send that is not done yet (60_exceptions.md R241, log entry 6) -/
  snapshotDue : Bool
  /-- a termination request was taken (60_exceptions.md R230) -/
  terminated : Bool
  /-- the Program of the boot order failed to be produced, so there is no run (70_reset_and_hazards.md R262 step 3,
  60_exceptions.md R227, log entry 17) -/
  bootFailed : Bool
  /-- MODEL's own: the turns to come; when it is empty the engine moves alone (log entry 5) -/
  agenda : List (Turn w)
  /-- MODEL's own: what the host was given back, oldest first (60_exceptions.md R245) -/
  hostInbox : List (HostMessage w)
deriving DecidableEq, Repr

/-- The state of the machine: XLEN, the width in bits of each register and cell (00_scope.md R6), and an engine of that
width. -/
structure State where
  xlen : Nat
  engine : Engine xlen
deriving DecidableEq, Repr

/-- The reasons no engine exists. Raised by `State.construct` alone (Machine/Boot.lean), never by a meaning or a step:
the spec's execution faults are states (60_exceptions.md R222, log entry 4). -/
inductive Fault where
  /-- Raised by `State.construct`: ARCH_TABLE is not well-formed, "the process must not start with an inconsistent
  table" (10_state.md R33). Safe: there is no engine to make a claim about. -/
  | malformedTable
  /-- Raised by `State.construct`: XLEN, MEM_WORDS or MEM_INIT is outside its constraint (00_scope.md R6). Safe: there is
  no engine to make a claim about. -/
  | parameterOutOfRange
deriving DecidableEq, Repr

/-- The reasons an instruction has no meaning. -/
inductive Refusal where
  /-- Raised by an arm of `exec` whose instruction has no meaning yet; no arm raises it now. Safe. -/
  | notModelled (mnemonic : String)
deriving DecidableEq, Repr

/-- An engine right after construction with the parameters `cfg` (10_state.md R40, 70_reset_and_hazards.md R260). -/
def Engine.fresh {w : Nat} (cfg : Config w) : Engine w where
  cfg := cfg
  core :=
    { pc := 0
      regs := Vector.replicate 16 0#w
      flags := ⟨false⟩
      mem := cfg.memInit
      runState := .ready
      faultCause := .none }
  prog := []
  input := if cfg.hasInput then some ⟨[], true⟩ else none
  output := if cfg.hasOutput then some ⟨[], true, false, []⟩ else none
  cycles := 0
  snapshotDue := false
  terminated := false
  bootFailed := false
  agenda := []
  hostInbox := []

/-- The machine right after reset, in the reference configuration (70_reset_and_hazards.md R260, 00_scope.md R6). -/
def State.reset : State :=
  ⟨Config.referenceXlen, Engine.fresh Config.reference⟩

end Sys2Proof.Machine
end

