-- ==== Sys2Proof/Machine/Flags.lean ====
section
/-! DEFINITION. The flags register (10_state.md R29) and the codes of the fault cause register (10_state.md R30). No ALU
instruction reads or writes a flag (41_alu.md R171): HALT is the only flag computation of the spec. -/

namespace Sys2Proof.Machine

/-- The flags register as a number: bit 0 is HALT, every other bit is 0 (10_state.md R29). -/
def Flags.value (f : Flags) : Nat :=
  if f.halt then 1 else 0

/-- The flags on entry to Halted (10_state.md R29, 40_execution_loop.md R140). -/
def Flags.setHalt (_ : Flags) : Flags :=
  ⟨true⟩

/-- The code of a fault cause (10_state.md R30). -/
def FaultCause.code : FaultCause → Nat
  | .none => 0
  | .unknownOpcode => 1
  | .memOutOfRange => 2
  | .regOutOfRange => 3
  | .inputUnavailable => 4

end Sys2Proof.Machine
end

