-- ==== Sys2Proof/Machine/Operands.lean ====
section
/-! DEFINITION. Operand forms: the conversions of 00_scope.md R9, the immediate (30_encoding.md R84), the effective
address (42_memory_io.md R180), the branch target (43_control.md R203) and a computed register index
(40_execution_loop.md R146). -/

namespace Sys2Proof.Machine

/-- `zext_N(v)` (00_scope.md R9): zero bits above. -/
def zext {m : Nat} (n : Nat) (v : BitVec m) : BitVec n :=
  v.setWidth n

/-- `sext_N(v)` (00_scope.md R9): copies of the top bit above. No reference instruction uses it. -/
def sext {m : Nat} (n : Nat) (v : BitVec m) : BitVec n :=
  v.signExtend n

/-- `trunc_N(v)` of an exact natural number (00_scope.md R9): `v mod 2^N`. -/
def trunc (n : Nat) (v : Nat) : BitVec n :=
  BitVec.ofNat n v

/-- The immediate as a data value: zero-extended to XLEN bits (30_encoding.md R84). -/
def immediateValue (w : Nat) (imm : Imm) : Word w :=
  zext w imm

/-- The effective address of LD and ST: an exact sum of naturals, no wrap (42_memory_io.md R180). -/
def effectiveAddress {w : Nat} (base : Word w) (imm : Imm) : Nat :=
  base.toNat + imm.toNat

/-- The target of a control transfer: the immediate as a natural number, an absolute instruction index
(30_encoding.md R84, 43_control.md R200, R203). -/
def branchTarget (imm : Imm) : Nat :=
  imm.toNat

/-- A register index that an operation computes: outside 0 to 15 it is the fault RegOutOfRange
(40_execution_loop.md R146). No reference instruction computes one. -/
def computedRegister (n : Nat) : Except FaultCause RegIndex :=
  if n ≤ 15 then .ok (BitVec.ofNat 4 n) else .error .regOutOfRange

end Sys2Proof.Machine
end

