-- ==== Sys2Proof/Machine/Ops.lean ====
section
/-! DEFINITION. The operations over registers and memory (00_scope.md R10, 20_memory.md R52), fault entry
(60_exceptions.md R222), entry to Halted (40_execution_loop.md R140), and the end of an instruction: commit and advance
(40_execution_loop.md R137 to R139). A fault has no return (60_exceptions.md R225): there is none to model. -/

namespace Sys2Proof.Machine

variable {w : Nat}

/-! ### Registers -/

/-- `x[i]` (00_scope.md R10). -/
def MachineState.x (m : MachineState w) (i : RegIndex) : Word w :=
  m.regs[i.toNat]'i.isLt

/-- `x[i] <- v` (00_scope.md R10). No register is hardwired or aliased (10_state.md R21). -/
def MachineState.setX (m : MachineState w) (i : RegIndex) (v : Word w) : MachineState w :=
  { m with regs := m.regs.set i.toNat v i.isLt }

/-- `x[n]` for an index that an operation computes (40_execution_loop.md R146). -/
def MachineState.xComputed (m : MachineState w) (n : Nat) : Except FaultCause (Word w) :=
  (computedRegister n).map m.x

/-! ### Data memory -/

/-- The value of cell `a`; an unlisted cell is 0 (log entry 2). -/
def Memory.read : Memory w → Nat → Word w
  | [], _ => 0#w
  | (b, v) :: rest, a => if a = b then v else if a < b then 0#w else Memory.read rest a

/-- The memory after cell `a` takes the value `v`, in canonical form: a cell that becomes 0 is not listed. -/
def Memory.write : Memory w → Nat → Word w → Memory w
  | [], a, v => if v = 0#w then [] else [(a, v)]
  | (b, u) :: rest, a, v =>
    if a = b then (if v = 0#w then rest else (a, v) :: rest)
    else if a < b then (if v = 0#w then (b, u) :: rest else (a, v) :: (b, u) :: rest)
    else (b, u) :: Memory.write rest a v

/-- The canonical form, every address at or above `lo`: addresses strictly rising, no cell 0. -/
def Memory.wfFrom : Nat → Memory w → Bool
  | _, [] => true
  | lo, (b, v) :: rest => decide (lo ≤ b) && decide (v ≠ 0#w) && Memory.wfFrom (b + 1) rest

/-- The canonical form of a memory: equal memories are equal lists. -/
def Memory.wf (m : Memory w) : Bool :=
  Memory.wfFrom 0 m

/-- Every listed cell exists: its address is less than MEM_WORDS (20_memory.md R51). -/
def Memory.within (n : Nat) (m : Memory w) : Bool :=
  m.all fun c => decide (c.1 < n)

/-- `MemRead(a, 1)` (20_memory.md R52). -/
def Engine.memRead (e : Engine w) (a : Nat) : Except FaultCause (Word w) :=
  if a ≥ e.cfg.memWords then .error .memOutOfRange else .ok (Memory.read e.core.mem a)

/-- The check of `MemWrite(a, 1, v)` (20_memory.md R52), made before any write of the instruction. -/
def Engine.memWritable (e : Engine w) (a : Nat) : Except FaultCause Unit :=
  if a ≥ e.cfg.memWords then .error .memOutOfRange else .ok ()

/-! ### Fault entry and entry to Halted -/

/-- `raise Fault(c)`: `fault_cause` and `run_state` are written and nothing else is (60_exceptions.md R222). -/
def Engine.raiseFault (e : Engine w) (c : FaultCause) : Engine w :=
  { e with core := { e.core with faultCause := c, runState := .faulted } }

/-- `halt`: `run_state` and `flags[0]` are written and nothing else is (40_execution_loop.md R140). -/
def Engine.enterHalted (e : Engine w) : Engine w :=
  { e with core := { e.core with runState := .halted, flags := e.core.flags.setHalt } }

/-! ### The end of an instruction -/

/-- One write of an instruction (40_execution_loop.md R137). -/
inductive Write (w : Nat) where
  | register (i : RegIndex) (v : Word w)
  | cell (a : Nat) (v : Word w)
deriving DecidableEq, Repr

/-- The next-pc action of an instruction (40_execution_loop.md R137, R139). -/
inductive NextPc where
  | next
  | jump (target : Nat)
  | halt
deriving DecidableEq, Repr

/-- What `execute` returns (40_execution_loop.md R137). -/
inductive ExecResult (w : Nat) where
  | ok (writes : List (Write w)) (nx : NextPc)
  | fault (c : FaultCause)
  | wait
deriving DecidableEq, Repr

/-- One write applied (40_execution_loop.md R138). -/
def MachineState.apply (m : MachineState w) : Write w → MachineState w
  | .register i v => m.setX i v
  | .cell a v => { m with mem := Memory.write m.mem a v }

/-- `commit(writes)` (40_execution_loop.md R138). The values were all computed from the state before the cycle. -/
def Engine.commit (e : Engine w) (ws : List (Write w)) : Engine w :=
  { e with core := ws.foldl MachineState.apply e.core }

/-- `pc <- t`. -/
def Engine.setPc (e : Engine w) (t : Nat) : Engine w :=
  { e with core := { e.core with pc := t } }

/-- `advance(nx)` (40_execution_loop.md R139). -/
def Engine.advance (e : Engine w) : NextPc → Engine w
  | .next => e.setPc (e.core.pc + 1)
  | .jump t => e.setPc t
  | .halt => e.enterHalted

/-- The end of a cycle for each outcome of `execute` (40_execution_loop.md R132, last lines, and R137). -/
def Engine.conclude (e : Engine w) : ExecResult w → Engine w
  | .ok ws nx => (e.commit ws).advance nx
  | .fault c => e.raiseFault c
  | .wait => e

/-- A state whose engine is `e`, as the next state of a step. -/
def State.nextWith (s : State) (e : Engine s.xlen) : Host.Outcome State Fault Refusal :=
  .next ⟨s.xlen, e⟩

/-- The outcome of an instruction that answers `r` (40_execution_loop.md R137). -/
def State.conclude (s : State) (r : ExecResult s.xlen) : Host.Outcome State Fault Refusal :=
  s.nextWith (s.engine.conclude r)

end Sys2Proof.Machine
end

