-- ==== Sys2Proof/Machine/Boot.lean ====
section
/-! DEFINITION. Construction of an engine from its parameters: the reset event (70_reset_and_hazards.md R260, R262,
10_state.md R33, 00_scope.md R6). -/

namespace Sys2Proof.Machine

variable {w : Nat}

/-- The constraints of 00_scope.md R6 on XLEN, MEM_WORDS and MEM_INIT (one value for each cell that exists, in the
canonical form of log entry 2). What a value out of range leads to is log entry 14. -/
def parametersInRange (cfg : Config w) : Bool :=
  decide (16 ≤ w) && decide (1 ≤ cfg.memWords) && Memory.wf cfg.memInit && Memory.within cfg.memWords cfg.memInit

/-- Construction: with an ill-formed table the engine has no reset state and never runs (10_state.md R33). -/
def State.construct (cfg : Config w) : Host.Outcome State Fault Refusal :=
  if !ArchTable.wellFormed cfg.archTable then .fault .malformedTable
  else if !parametersInRange cfg then .fault .parameterOutOfRange
  else .next ⟨w, Engine.fresh cfg⟩

end Sys2Proof.Machine
end

