-- ==== Sys2Proof/Machine/Alu.lean ====
section
/-! DEFINITION. ALU and register-transfer instructions (41_alu.md R160 to R172): the values, exact on naturals and
truncated to XLEN bits (R170), and the ten meanings. -/

namespace Sys2Proof.Machine

variable {w : Nat}

/-! ### Values -/

/-- `trunc_XLEN(a + b)` (41_alu.md R162, R169). -/
def aluAdd (a b : Word w) : Word w :=
  trunc w (a.toNat + b.toNat)

/-- `trunc_XLEN(a + 2^XLEN - b)` (41_alu.md R163). -/
def aluSub (a b : Word w) : Word w :=
  trunc w (a.toNat + 2 ^ w - b.toNat)

/-- Bitwise and (41_alu.md R164). -/
def aluAnd (a b : Word w) : Word w :=
  a &&& b

/-- Bitwise or (41_alu.md R165). -/
def aluOr (a b : Word w) : Word w :=
  a ||| b

/-- Bitwise exclusive or (41_alu.md R166). -/
def aluXor (a b : Word w) : Word w :=
  a ^^^ b

/-- Shift left logical: 0 for an amount of XLEN or more, the amount not reduced (41_alu.md R167). -/
def aluShl (a b : Word w) : Word w :=
  if b.toNat ≥ w then 0#w else trunc w (a.toNat * 2 ^ b.toNat)

/-- Shift right logical: 0 for an amount of XLEN or more, zero fill (41_alu.md R168). -/
def aluShr (a b : Word w) : Word w :=
  if b.toNat ≥ w then 0#w else trunc w (a.toNat / 2 ^ b.toNat)

/-- The outcome of every instruction of this family: one register write and `pc + 1` (41_alu.md, head of the file). -/
def registerResult (rd : RegIndex) (v : Word w) : ExecResult w :=
  .ok [.register rd v] .next

/-! ### Meanings -/

/-- `LDI rd, imm` (41_alu.md R160). -/
def execLdi (rd : RegIndex) (imm : Imm) (s : State) : Host.Outcome State Fault Refusal :=
  s.conclude (registerResult rd (immediateValue s.xlen imm))

/-- `MOV rd, rs` (41_alu.md R161). -/
def execMov (rd rs : RegIndex) (s : State) : Host.Outcome State Fault Refusal :=
  s.conclude (registerResult rd (s.engine.core.x rs))

/-- `ADD rd, rs` (41_alu.md R162). -/
def execAdd (rd rs : RegIndex) (s : State) : Host.Outcome State Fault Refusal :=
  s.conclude (registerResult rd (aluAdd (s.engine.core.x rd) (s.engine.core.x rs)))

/-- `SUB rd, rs` (41_alu.md R163). -/
def execSub (rd rs : RegIndex) (s : State) : Host.Outcome State Fault Refusal :=
  s.conclude (registerResult rd (aluSub (s.engine.core.x rd) (s.engine.core.x rs)))

/-- `AND rd, rs` (41_alu.md R164). -/
def execAnd (rd rs : RegIndex) (s : State) : Host.Outcome State Fault Refusal :=
  s.conclude (registerResult rd (aluAnd (s.engine.core.x rd) (s.engine.core.x rs)))

/-- `OR rd, rs` (41_alu.md R165). -/
def execOr (rd rs : RegIndex) (s : State) : Host.Outcome State Fault Refusal :=
  s.conclude (registerResult rd (aluOr (s.engine.core.x rd) (s.engine.core.x rs)))

/-- `XOR rd, rs` (41_alu.md R166). -/
def execXor (rd rs : RegIndex) (s : State) : Host.Outcome State Fault Refusal :=
  s.conclude (registerResult rd (aluXor (s.engine.core.x rd) (s.engine.core.x rs)))

/-- `SHL rd, rs` (41_alu.md R167). -/
def execShl (rd rs : RegIndex) (s : State) : Host.Outcome State Fault Refusal :=
  s.conclude (registerResult rd (aluShl (s.engine.core.x rd) (s.engine.core.x rs)))

/-- `SHR rd, rs` (41_alu.md R168). -/
def execShr (rd rs : RegIndex) (s : State) : Host.Outcome State Fault Refusal :=
  s.conclude (registerResult rd (aluShr (s.engine.core.x rd) (s.engine.core.x rs)))

/-- `ADDI rd, imm` (41_alu.md R169). -/
def execAddi (rd : RegIndex) (imm : Imm) (s : State) : Host.Outcome State Fault Refusal :=
  s.conclude (registerResult rd (aluAdd (s.engine.core.x rd) (immediateValue s.xlen imm)))

end Sys2Proof.Machine
end

