-- ==== Sys2Proof/Machine/Control.lean ====
section
/-! DEFINITION. Control transfer and halt (43_control.md R200 to R209). -/

namespace Sys2Proof.Machine

/-- `HALT` (43_control.md R201). -/
def execHalt (s : State) : Host.Outcome State Fault Refusal :=
  s.conclude (.ok [] .halt)

/-- `NOP` (43_control.md R202). -/
def execNop (s : State) : Host.Outcome State Fault Refusal :=
  s.conclude (.ok [] .next)

/-- `JMP target` (43_control.md R204). -/
def execJmp (imm : Imm) (s : State) : Host.Outcome State Fault Refusal :=
  s.conclude (.ok [] (.jump (branchTarget imm)))

/-- `JZ rs, target` (43_control.md R205). -/
def execJz (rs : RegIndex) (imm : Imm) (s : State) : Host.Outcome State Fault Refusal :=
  s.conclude (.ok [] (if s.engine.core.x rs = 0#s.xlen then .jump (branchTarget imm) else .next))

/-- `JNZ rs, target` (43_control.md R206). -/
def execJnz (rs : RegIndex) (imm : Imm) (s : State) : Host.Outcome State Fault Refusal :=
  s.conclude (.ok [] (if s.engine.core.x rs ≠ 0#s.xlen then .jump (branchTarget imm) else .next))

end Sys2Proof.Machine
end

