-- ==== Sys2Proof/Machine/Bridge.lean ====
section
/-! DEFINITION. The Bridge: the two channels and what the engine and the renderer do with them (10_state.md R36,
20_memory.md R66, 42_memory_io.md R186, 60_exceptions.md R240 to R242). -/

namespace Sys2Proof.Machine

variable {w : Nat}

/-! ### The input channel -/

/-- What a peripheral read finds (42_memory_io.md R183). -/
inductive InputStatus (w : Nat) where
  /-- no channel, or a closed channel with nothing queued -/
  | unavailable
  /-- an open channel with nothing queued -/
  | pending
  /-- the oldest event -/
  | event (v : Word w)
deriving DecidableEq, Repr

/-- The status of the input channel, its presence tested first (42_memory_io.md R183). Queued events come before the
close. -/
def Engine.inputStatus (e : Engine w) : InputStatus w :=
  match e.input with
  | none => .unavailable
  | some ch =>
    match ch.queue with
    | v :: _ => .event v
    | [] => if ch.isOpen then .pending else .unavailable

/-- `recv_input()`: the oldest event leaves the FIFO (42_memory_io.md R186). -/
def Engine.recvInput (e : Engine w) : Engine w :=
  { e with input := e.input.map fun ch => { ch with queue := ch.queue.tail } }

/-- The renderer sends one event (60_exceptions.md R245). On a closed channel the draw decides (log entry 9). Without a
channel there is nothing to send on. -/
def InChannel.send (ch : InChannel w) (v : Word w) (queuedIfClosed : Bool) : InChannel w :=
  if ch.isOpen || queuedIfClosed then { ch with queue := ch.queue ++ [v] } else ch

/-- An explicit close (60_exceptions.md R240); queued events stay (42_memory_io.md R183). -/
def InChannel.close (ch : InChannel w) : InChannel w :=
  { ch with isOpen := false }

/-! ### The output channel -/

/-- Whether the channel takes one more snapshot (93_implementation_defined.md I8, log entry 7). -/
def OutChannel.hasRoom (ch : OutChannel w) (capacity : Option Nat) : Bool :=
  match capacity with
  | none => true
  | some n => decide (ch.queue.length < n)

/-- The engine's send of one snapshot: to the renderer that is blocked on a receive, else into the queue; `none` where
the send blocks (60_exceptions.md R241). -/
def OutChannel.send? (ch : OutChannel w) (capacity : Option Nat) (m : MachineState w) : Option (OutChannel w) :=
  if ch.waiting then some { ch with waiting := false, delivered := ch.delivered ++ [.snapshot m] }
  else if ch.hasRoom capacity then some { ch with queue := ch.queue ++ [m] }
  else none

/-- The renderer's receive: the oldest snapshot, else end-of-stream on a closed channel, else the renderer blocks
(60_exceptions.md R240, R245). A renderer that is blocked makes no second receive. -/
def OutChannel.receive (ch : OutChannel w) : OutChannel w :=
  if ch.waiting then ch
  else
    match ch.queue with
    | m :: rest => { ch with queue := rest, delivered := ch.delivered ++ [.snapshot m] }
    | [] => if ch.isOpen then { ch with waiting := true } else { ch with delivered := ch.delivered ++ [.endOfStream] }

/-- An explicit close: it unblocks a pending receiver with end-of-stream (60_exceptions.md R240, R242). -/
def OutChannel.close (ch : OutChannel w) : OutChannel w :=
  if ch.waiting then
    { ch with isOpen := false, waiting := false, delivered := ch.delivered ++ [.endOfStream] }
  else { ch with isOpen := false }

/-- The engine tries the snapshot send that its boundary owes (60_exceptions.md R241). A send changes no state of the
engine but that it is no longer owed; a send that blocks holds the engine at the boundary. -/
def Engine.trySend (e : Engine w) : Engine w :=
  match e.output with
  | none => { e with snapshotDue := false }
  | some ch =>
    match ch.send? e.cfg.outputCapacity e.core with
    | some ch' => { e with output := some ch', snapshotDue := false }
    | none => e

/-- Shutdown: the engine closes each channel that is present (60_exceptions.md R242). -/
def Engine.closeChannels (e : Engine w) : Engine w :=
  { e with input := e.input.map InChannel.close, output := e.output.map OutChannel.close }

/-! ### The renderer's turns -/

/-- What the renderer does, applied to the channels alone (60_exceptions.md R245). DESIGN CHOICE: a renderer that is blocked
on a receive of the output channel may still send events and close the input channel (log entry 11). -/
def Engine.rendererAct (e : Engine w) : RendererAct w → Engine w
  | .sendEvent v q => { e with input := e.input.map fun ch => ch.send v q }
  | .closeInput => { e with input := e.input.map InChannel.close }
  | .receiveSnapshot => { e with output := e.output.map OutChannel.receive }

end Sys2Proof.Machine
end

