-- ==== Sys2Proof/Machine/MemoryIo.lean ====
section
/-! DEFINITION. Memory access and peripheral input (42_memory_io.md R180 to R186). -/

namespace Sys2Proof.Machine

/-- `LD rd, rs, imm` (42_memory_io.md R181). -/
def execLd (rd rs : RegIndex) (imm : Imm) (s : State) : Host.Outcome State Fault Refusal :=
  match s.engine.memRead (effectiveAddress (s.engine.core.x rs) imm) with
  | .ok v => s.conclude (.ok [.register rd v] .next)
  | .error c => s.conclude (.fault c)

/-- `ST rd, rs, imm` (42_memory_io.md R182): `rd` is the base, `rs` the value. -/
def execSt (rd rs : RegIndex) (imm : Imm) (s : State) : Host.Outcome State Fault Refusal :=
  match s.engine.memWritable (effectiveAddress (s.engine.core.x rd) imm) with
  | .ok _ => s.conclude (.ok [.cell (effectiveAddress (s.engine.core.x rd) imm) (s.engine.core.x rs)] .next)
  | .error c => s.conclude (.fault c)

/-- `IN rd` (42_memory_io.md R183). -/
def execIn (rd : RegIndex) (s : State) : Host.Outcome State Fault Refusal :=
  match s.engine.inputStatus with
  | .unavailable => s.conclude (.fault .inputUnavailable)
  | .pending => s.conclude .wait
  | .event v => s.nextWith (s.engine.recvInput.conclude (.ok [.register rd v] .next))

end Sys2Proof.Machine
end

