-- ==== Sys2Proof/Machine/Dispatch.lean ====
section
/-! DEFINITION. Dispatch via opcode (40_execution_loop.md R136): each instruction's meaning, one arm per constructor. -/

namespace Sys2Proof.Machine

def exec (i : Instr) (s : State) : Host.Outcome State Fault Refusal :=
  match i with
  | .halt => Sys2Proof.Machine.execHalt s
  | .nop => Sys2Proof.Machine.execNop s
  | .ldi rd imm => Sys2Proof.Machine.execLdi rd imm s
  | .mov rd rs => Sys2Proof.Machine.execMov rd rs s
  | .add rd rs => Sys2Proof.Machine.execAdd rd rs s
  | .sub rd rs => Sys2Proof.Machine.execSub rd rs s
  | .and rd rs => Sys2Proof.Machine.execAnd rd rs s
  | .or rd rs => Sys2Proof.Machine.execOr rd rs s
  | .xor rd rs => Sys2Proof.Machine.execXor rd rs s
  | .shl rd rs => Sys2Proof.Machine.execShl rd rs s
  | .shr rd rs => Sys2Proof.Machine.execShr rd rs s
  | .addi rd imm => Sys2Proof.Machine.execAddi rd imm s
  | .jmp imm => Sys2Proof.Machine.execJmp imm s
  | .jz rs imm => Sys2Proof.Machine.execJz rs imm s
  | .jnz rs imm => Sys2Proof.Machine.execJnz rs imm s
  | .ld rd rs imm => Sys2Proof.Machine.execLd rd rs imm s
  | .st rd rs imm => Sys2Proof.Machine.execSt rd rs imm s
  | .inp rd => Sys2Proof.Machine.execIn rd s

end Sys2Proof.Machine
end

