-- ==== Sys2Proof/Machine/Assembler.lean ====
section
/-! DEFINITION. The Assembler (30_encoding.md R100 to R110): a two-pass function from source text to a Program under an
Architecture Table. Lexical points that R101 to R105 leave open are in log entry 15. -/

namespace Sys2Proof.Machine

/-! ### Characters and text -/

/-- White space inside a line (log entry 15). -/
def isBlankChar (c : Char) : Bool :=
  c = ' ' || c = '\t' || c = '\r'

/-- The first character of a label name (30_encoding.md R102). -/
def isIdentStart (c : Char) : Bool :=
  c.isAlpha || c = '_'

/-- A later character of a label name (30_encoding.md R102). -/
def isIdentChar (c : Char) : Bool :=
  c.isAlpha || c.isDigit || c = '_'

/-- The pieces of a text between the separators `c`; always at least one. -/
def splitText (c : Char) : Text → List Text
  | [] => [[]]
  | x :: xs =>
    if x = c then [] :: splitText c xs
    else
      match splitText c xs with
      | [] => [[x]]
      | p :: ps => (x :: p) :: ps

/-- The text without the white space at both its ends. -/
def trimText (t : Text) : Text :=
  ((t.dropWhile isBlankChar).reverse.dropWhile isBlankChar).reverse

/-! ### Operand tokens -/

/-- The kind of an operand token (30_encoding.md R104, R105). -/
inductive Token where
  | register (n : Nat)
  | number (v : Int)
  | label (name : Text)
  | malformed
deriving DecidableEq, Repr

/-- The value of a decimal digit. -/
def decimalDigit? (c : Char) : Option Nat :=
  if c.isDigit then some (c.toNat - '0'.toNat) else none

/-- The value of a hexadecimal digit. -/
def hexDigit? (c : Char) : Option Nat :=
  if c.isDigit then some (c.toNat - '0'.toNat)
  else if 'a'.toNat ≤ c.toNat ∧ c.toNat ≤ 'f'.toNat then some (c.toNat - 'a'.toNat + 10)
  else if 'A'.toNat ≤ c.toNat ∧ c.toNat ≤ 'F'.toNat then some (c.toNat - 'A'.toNat + 10)
  else none

/-- The number that digits continue, from the value so far. -/
def digitsValue (base : Nat) (digit? : Char → Option Nat) : Nat → Text → Option Nat
  | acc, [] => some acc
  | acc, c :: cs =>
    match digit? c with
    | some d => digitsValue base digit? (acc * base + d) cs
    | none => none

/-- A decimal number of at least one digit. -/
def decimalValue (t : Text) : Option Nat :=
  match t with
  | [] => none
  | c :: cs => digitsValue 10 decimalDigit? 0 (c :: cs)

/-- A hexadecimal number of at least one digit, after its prefix. -/
def hexValue (t : Text) : Option Nat :=
  match t with
  | [] => none
  | c :: cs => digitsValue 16 hexDigit? 0 (c :: cs)

/-- A number: decimal, or hexadecimal after `0x` or `0X` (30_encoding.md R105). -/
def unsignedValue (t : Text) : Option Nat :=
  match t with
  | '0' :: 'x' :: ds => hexValue ds
  | '0' :: 'X' :: ds => hexValue ds
  | ds => decimalValue ds

/-- A token that starts with a digit or `-` is a number (30_encoding.md R105). -/
def numberToken (t : Text) : Token :=
  match t with
  | '-' :: ds =>
    match unsignedValue ds with
    | some n => .number (-(n : Int))
    | none => .malformed
  | ds =>
    match unsignedValue ds with
    | some n => .number n
    | none => .malformed

/-- Classifying a token: `r` or `R` and a decimal number is a register (30_encoding.md R104), a token starting with a
digit or `-` is a number, and any other token is a label name (R105). -/
def classify (t : Text) : Token :=
  match t with
  | [] => .malformed
  | c :: cs =>
    if c.isDigit || c = '-' then numberToken (c :: cs)
    else if c = 'r' || c = 'R' then
      match decimalValue cs with
      | some n => .register n
      | none => .label (c :: cs)
    else .label (c :: cs)

/-! ### Lines -/

/-- An instruction as written: its mnemonic and its operands (30_encoding.md R103). -/
structure SourceInstr where
  mnemonic : Text
  operands : List Text
deriving DecidableEq, Repr

/-- A source line: its number, the label it defines and the instruction it holds, if any (30_encoding.md R101 to R103). -/
structure SourceLine where
  number : Nat
  label : Option Text
  instr : Option SourceInstr
deriving DecidableEq, Repr

/-- The text of a line up to a comment (30_encoding.md R101). -/
def stripComment (t : Text) : Text :=
  t.takeWhile fun c => decide (c ≠ ';')

/-- The label that a trimmed line starts with, and the text after its colon (30_encoding.md R102). -/
def splitLabel (t : Text) : Option Text × Text :=
  let name := t.takeWhile isIdentChar
  match name, t.drop name.length with
  | c :: cs, ':' :: rest => if isIdentStart c then (some (c :: cs), trimText rest) else (none, t)
  | _, _ => (none, t)

/-- The operands of an instruction line, separated by commas (30_encoding.md R103). -/
def splitOperands (t : Text) : List Text :=
  match trimText t with
  | [] => []
  | c :: cs => (splitText ',' (c :: cs)).map trimText

/-- The instruction of a trimmed text, none where it is blank (30_encoding.md R101, R103). -/
def parseInstr (t : Text) : Option SourceInstr :=
  match t with
  | [] => none
  | c :: cs =>
    let mnemonic := (c :: cs).takeWhile fun x => !isBlankChar x
    some ⟨mnemonic, splitOperands ((c :: cs).drop mnemonic.length)⟩

/-- One line of source (30_encoding.md R101 to R103). -/
def parseLine (number : Nat) (t : Text) : SourceLine :=
  let (label, rest) := splitLabel (trimText (stripComment t))
  ⟨number, label, parseInstr rest⟩

/-- The lines of a source, numbered from `n`. -/
def numberLines : Nat → List Text → List SourceLine
  | _, [] => []
  | n, t :: ts => parseLine n t :: numberLines (n + 1) ts

/-- The lines of a source, numbered from 1 (30_encoding.md R101). -/
def sourceLines (source : Text) : List SourceLine :=
  numberLines 1 (splitText '\n' source)

/-! ### Pass 1 -/

/-- The labels and their addresses, the latest first. -/
abbrev SymbolTable := List (Text × Nat)

/-- The address of a label name; names are case-sensitive (30_encoding.md R102). -/
def SymbolTable.address (s : SymbolTable) (name : Text) : Option Nat :=
  (s.find? fun p => decide (p.1 = name)).map Prod.snd

/-- Pass 1 from the instruction count so far (30_encoding.md R106). -/
def pass1 : Nat → SymbolTable → List SourceLine → Except AssemblyError SymbolTable
  | _, syms, [] => .ok syms
  | count, syms, l :: ls =>
    let count' := if l.instr.isSome then count + 1 else count
    match l.label with
    | none => pass1 count' syms ls
    | some name =>
      match syms.address name with
      | some _ => .error ⟨l.number, .duplicateLabel name⟩
      | none => pass1 count' ((name, count) :: syms) ls

/-! ### Pass 2 -/

/-- Whether a token may stand where a kind is expected (30_encoding.md R107 (c)). -/
def kindAccepts (k : Kind) (t : Token) : Bool :=
  match k, t with
  | .D, .register _ => true
  | .S, .register _ => true
  | .I, .number _ => true
  | .I, .label _ => true
  | .I, .malformed => true
  | .D, .number _ => false
  | .D, .label _ => false
  | .D, .malformed => false
  | .S, .number _ => false
  | .S, .label _ => false
  | .S, .malformed => false
  | .I, .register _ => false

/-- The range error of an operand, if it has one (30_encoding.md R104, R105, R107 (d)). -/
def rangeError (t : Token) : Option AsmReason :=
  match t with
  | .register n => if n ≤ 15 then none else some .registerOutOfRange
  | .number v => if 0 ≤ v ∧ v ≤ 65535 then none else some .immediateOutOfRange
  | .label _ => none
  | .malformed => some .malformedNumber

/-- The value an operand puts in its field, its label replaced by its address (30_encoding.md R107 (e), R108). -/
def operandValue (syms : SymbolTable) (t : Token) : Except AsmReason Nat :=
  match t with
  | .register n => .ok n
  | .number v => .ok v.toNat
  | .label name =>
    match syms.address name with
    | none => .error (.undefinedLabel name)
    | some a => if a ≤ 65535 then .ok a else .error .immediateOutOfRange
  | .malformed => .error .malformedNumber

/-- The fields with an operand's value in its place (30_encoding.md R90). -/
def placeOperand (f : Fields) (k : Kind) (v : Nat) : Fields :=
  match k with
  | .D => { f with rd := BitVec.ofNat 4 v }
  | .S => { f with rs := BitVec.ofNat 4 v }
  | .I => { f with imm := BitVec.ofNat 16 v }

/-- Every operand's value in its place, from the fields so far. -/
def placeOperands (syms : SymbolTable) : Fields → List (Kind × Token) → Except AsmReason Fields
  | f, [] => .ok f
  | f, (k, t) :: rest =>
    match operandValue syms t with
    | .ok v => placeOperands syms (placeOperand f k v) rest
    | .error r => .error r

/-- The word of one instruction line, the checks in the order (a) to (f) of 30_encoding.md R107. A field no kind names
is 0. DESIGN CHOICE: within one check the leftmost operand at fault is the one reported (log entry 15). -/
def encodeInstr (t : ArchTable) (syms : SymbolTable) (i : SourceInstr) : Except AsmReason CodeWord :=
  match t.lookupMnemonic i.mnemonic with
  | none => .error .unknownMnemonic
  | some r =>
    let tokens := i.operands.map classify
    if tokens.length ≠ r.kinds.length then .error .wrongOperandCount
    else if (r.kinds.zip tokens).any (fun p => !kindAccepts p.1 p.2) then .error .wrongOperandKind
    else
      match tokens.findSome? rangeError with
      | some e => .error e
      | none => (placeOperands syms ⟨BitVec.ofNat 8 r.opcode, 0, 0, 0⟩ (r.kinds.zip tokens)).map pack

/-- Pass 2: one word per instruction line, in source order (30_encoding.md R107, R109). -/
def pass2 (t : ArchTable) (syms : SymbolTable) : List SourceLine → Except AssemblyError Program
  | [] => .ok []
  | l :: ls =>
    match l.instr with
    | none => pass2 t syms ls
    | some i =>
      match encodeInstr t syms i with
      | .error r => .error ⟨l.number, r⟩
      | .ok word => (pass2 t syms ls).map (word :: ·)

/-- `assemble(source)` (30_encoding.md R100): a Program, or an error and no Program. The symbol table is discarded
(R109). -/
def assemble (t : ArchTable) (source : Text) : Except AssemblyError Program :=
  match pass1 0 [] (sourceLines source) with
  | .error e => .error e
  | .ok syms => pass2 t syms (sourceLines source)

end Sys2Proof.Machine
end

