-- ==== Sys2Proof/Machine/Disassembler.lean ====
section
/-! DEFINITION. `gen_debug_instruction_string` (30_encoding.md R111): total, and it reads no engine state. -/

namespace Sys2Proof.Machine

/-- The character of a digit below 16, upper case. -/
def digitChar (d : Nat) : Char :=
  if d < 10 then Char.ofNat ('0'.toNat + d) else Char.ofNat ('A'.toNat + (d - 10))

/-- The decimal digits of a number, the recursion bounded by its first argument. -/
def decimalDigits : Nat → Nat → Text
  | 0, _ => []
  | fuel + 1, n => if n < 10 then [digitChar n] else decimalDigits fuel (n / 10) ++ [digitChar (n % 10)]

/-- A number in decimal, without leading zeros. -/
def decimalText (n : Nat) : Text :=
  decimalDigits (n + 1) n

/-- The last `k` hexadecimal digits of a number, upper case. -/
def hexText : Nat → Nat → Text
  | 0, _ => []
  | k + 1, n => hexText k (n / 16) ++ [digitChar (n % 16)]

/-- An operand as it prints: `r<rd>`, `r<rs>`, or `imm` in decimal (30_encoding.md R111). -/
def operandText (f : Fields) (k : Kind) : Text :=
  match k with
  | .D => 'r' :: decimalText f.rd.toNat
  | .S => 'r' :: decimalText f.rs.toNat
  | .I => decimalText f.imm.toNat

/-- The operands after the mnemonic: a space before the first, a comma and a space between two. -/
def operandsText (f : Fields) : List Kind → Text
  | [] => []
  | [k] => operandText f k
  | k :: k' :: ks => operandText f k ++ [',', ' '] ++ operandsText f (k' :: ks)

/-- The debug string of a word under a table, its mnemonic in normalized case (30_encoding.md R111, R112). -/
def disassemble (t : ArchTable) (word : CodeWord) : Text :=
  match t.lookup (unpack word).op with
  | some r =>
    match r.kinds with
    | [] => r.key
    | k :: ks => r.key ++ [' '] ++ operandsText (unpack word) (k :: ks)
  | none => "??? 0x".toList ++ hexText 8 word.toNat

end Sys2Proof.Machine
end

