-- ==== Sys2Proof/Machine/HostCalls.lean ====
section
/-! DEFINITION. The host's side of the engine (60_exceptions.md R230, R243, R245, 40_execution_loop.md R142, R143). -/

namespace Sys2Proof.Machine

variable {w : Nat}

/-- A message to the host. -/
def Engine.tellHost (e : Engine w) (m : HostMessage w) : Engine w :=
  { e with hostInbox := e.hostInbox ++ [m] }

/-- Whether `load` and `run` are accepted: in Ready only (40_execution_loop.md R142, R143), not after a termination was
taken, when the engine does nothing more (log entry 10), and not after the Program failed to be produced, when there is no
run (70_reset_and_hazards.md R262 step 3, log entry 17). -/
def Engine.acceptsControl (e : Engine w) : Bool :=
  decide (e.core.runState = .ready) && !e.terminated && !e.bootFailed

/-- `load(P)` (40_execution_loop.md R142): refused, with no change, where it is not accepted. DESIGN CHOICE: a refusal
puts no message in the host's inbox (log entry 17). -/
def Engine.load (e : Engine w) (p : Program) : Engine w :=
  if e.acceptsControl then { e with prog := p, core := { e.core with pc := 0 } } else e

/-- A Program that is not produced: the host gets the error, no `load` happens, and there is no run
(60_exceptions.md R227, 70_reset_and_hazards.md R262 step 3, log entry 17). -/
def Engine.failBoot (e : Engine w) (m : HostMessage w) : Engine w :=
  { e.tellHost m with bootFailed := true }

/-- `load` from an image; a truncated image is a fatal load error (20_memory.md R57). DESIGN CHOICE: where `load` is not
accepted, no image is read and no error reported (log entry 17). -/
def Engine.loadImage (e : Engine w) (bytes : List Byte) : Engine w :=
  if e.acceptsControl then
    match programOfImage bytes with
    | some p => e.load p
    | none => e.failBoot .loadError
  else e

/-- `load` from a source; an assembly error gives no Program (30_encoding.md R100). DESIGN CHOICE: where `load` is not
accepted, no source is assembled and no error reported (log entry 17). -/
def Engine.loadSource (e : Engine w) (source : Text) : Engine w :=
  if e.acceptsControl then
    match assemble e.cfg.archTable source with
    | .ok p => e.load p
    | .error err => e.failBoot (.assemblyError err)
  else e

/-- `run()` (40_execution_loop.md R143): refused, with no change and no message, where it is not accepted (log entry 17). -/
def Engine.run (e : Engine w) : Engine w :=
  if e.acceptsControl then { e with core := { e.core with runState := .running } } else e

/-- `dump_core()`: a copy of the state; it only reads (60_exceptions.md R243). -/
def Engine.dumpCore (e : Engine w) : MachineState w :=
  e.core

/-- The termination request, taken at this boundary (60_exceptions.md R230, R231): the best-effort dump where the draw
says so, the report "terminated", and no further cycle; `run_state` keeps its value. -/
def Engine.terminate (e : Engine w) (dumpProduced : Bool) : Engine w :=
  if e.terminated then e
  else
    let e' := if dumpProduced then e.tellHost (.dump e.dumpCore) else e
    { e'.tellHost (.outcome .terminated) with terminated := true }

/-- A call of the host (60_exceptions.md R245). -/
def Engine.hostCall (e : Engine w) : HostCall → Engine w
  | .load p => e.load p
  | .loadImage bytes => e.loadImage bytes
  | .loadSource source => e.loadSource source
  | .run => e.run
  | .terminate d => e.terminate d
  | .dumpCore => e.tellHost (.dump e.dumpCore)
  | .disassemble word => e.tellHost (.text (disassemble e.cfg.archTable word))

end Sys2Proof.Machine
end

