-- ==== Sys2Proof/Machine/Operation.lean ====
section
/-! DEFINITION. Operations of a table that are none of the 18, run as their description says (10_state.md R33, R34,
40_execution_loop.md R136, R137, R146, log entry 3). -/

namespace Sys2Proof.Machine

variable {w : Nat}

/-- The cause an operation raises. -/
def raisedCause : OperationFault → FaultCause
  | .memOutOfRange => .memOutOfRange
  | .regOutOfRange => .regOutOfRange
  | .inputUnavailable => .inputUnavailable

/-- The number in the field that a kind names (30_encoding.md R90). -/
def fieldNumber (f : Fields) (k : Kind) : Nat :=
  match k with
  | .D => f.rd.toNat
  | .S => f.rs.toNat
  | .I => f.imm.toNat

/-- The function a description names. -/
def binaryValue (f : BinaryOp) (a b : Nat) : Nat :=
  match f with
  | .add => a + b
  | .mul => a * b
  | .sub => a - b
  | .div => a / b
  | .mod => a % b
  | .and => a &&& b
  | .or => a ||| b
  | .xor => a ^^^ b
  | .eq => if a = b then 1 else 0
  | .lt => if a < b then 1 else 0
  | .free n => Config.freeFunction n a b

/-- The value of an expression in the state before the step, with the fields of the word and the event taken; the fault
of the first register index or address that is out of range (40_execution_loop.md R146, 20_memory.md R52). -/
def Engine.value (e : Engine w) (f : Fields) (event : Nat) : Expr → Except FaultCause Nat
  | .const n => .ok n
  | .field k => .ok (fieldNumber f k)
  | .xlen => .ok w
  | .memWords => .ok e.cfg.memWords
  | .pc => .ok e.core.pc
  | .event => .ok event
  | .register index =>
    match e.value f event index with
    | .ok n => (e.core.xComputed n).map BitVec.toNat
    | .error c => .error c
  | .cell address =>
    match e.value f event address with
    | .ok a => (e.memRead a).map BitVec.toNat
    | .error c => .error c
  | .binary g a b =>
    match e.value f event a, e.value f event b with
    | .ok m, .ok n => .ok (binaryValue g m n)
    | .error c, _ => .error c
    | .ok _, .error c => .error c
  | .choose c a b =>
    match e.value f event c with
    | .ok n => if n ≠ 0 then e.value f event a else e.value f event b
    | .error c => .error c

/-- The first fault of the operation's own whose condition is not 0. -/
def Engine.checkRaises (e : Engine w) (f : Fields) (event : Nat) : List (Expr × OperationFault) → Except FaultCause Unit
  | [] => .ok ()
  | (c, r) :: rest =>
    match e.value f event c with
    | .ok n => if n ≠ 0 then .error (raisedCause r) else e.checkRaises f event rest
    | .error c => .error c

/-- The place of a write: a computed register index, or a cell that must exist (40_execution_loop.md R146,
20_memory.md R52). -/
def Engine.writeTo (e : Engine w) (f : Fields) (event : Nat) (d : Destination) (v : Word w) :
    Except FaultCause (Write w) :=
  match d with
  | .register index =>
    match e.value f event index with
    | .ok n => (computedRegister n).map fun i => .register i v
    | .error c => .error c
  | .cell address =>
    match e.value f event address with
    | .ok a => (e.memWritable a).map fun _ => .cell a v
    | .error c => .error c

/-- The writes of an operation, every value computed from the state before the step (40_execution_loop.md R138). -/
def Engine.writesOf (e : Engine w) (f : Fields) (event : Nat) : List OperationWrite → Except FaultCause (List (Write w))
  | [] => .ok []
  | o :: rest =>
    match e.value f event o.value with
    | .ok v =>
      match e.writeTo f event o.dest (trunc w v) with
      | .ok x => (e.writesOf f event rest).map (x :: ·)
      | .error c => .error c
    | .error c => .error c

/-- The next-pc action of an operation (40_execution_loop.md R139). -/
def Engine.transferOf (e : Engine w) (f : Fields) (event : Nat) : Transfer → Except FaultCause NextPc
  | .next => .ok .next
  | .jump target => (e.value f event target).map .jump
  | .halt => .ok .halt
  | .choose c a b =>
    match e.value f event c with
    | .ok n => if n ≠ 0 then e.transferOf f event a else e.transferOf f event b
    | .error c => .error c

/-- What `execute` answers for a described operation once its event is there (40_execution_loop.md R137): its own faults
are checked first, then the writes and the next-pc action are computed, in the order of the description (log entry 3). -/
def Engine.operate (e : Engine w) (p : Operation) (f : Fields) (event : Nat) : ExecResult w :=
  match e.checkRaises f event p.raises with
  | .error c => .fault c
  | .ok _ =>
    match e.writesOf f event p.writes with
    | .error c => .fault c
    | .ok ws =>
      match e.transferOf f event p.transfer with
      | .error c => .fault c
      | .ok nx => .ok ws nx

/-- The end of a cycle that took an event: a fault leaves the event in its channel, since faults are precise
(60_exceptions.md R222). -/
def Engine.concludeTaking (e : Engine w) : ExecResult w → Engine w
  | .ok ws nx => e.recvInput.conclude (.ok ws nx)
  | .fault c => e.raiseFault c
  | .wait => e

/-- A described operation on a word's fields. A peripheral read tests its channel first, as IN does
(42_memory_io.md R183). -/
def execOperation (p : Operation) (f : Fields) (s : State) : Host.Outcome State Fault Refusal :=
  if p.takesEvent then
    match s.engine.inputStatus with
    | .unavailable => s.conclude (.fault .inputUnavailable)
    | .pending => s.conclude .wait
    | .event v => s.nextWith (s.engine.concludeTaking (s.engine.operate p f v.toNat))
  else s.conclude (s.engine.operate p f 0)

end Sys2Proof.Machine
end

