-- ==== Sys2Proof/Machine/Cycle.lean ====
section
/-! DEFINITION. The cycle (40_execution_loop.md R132 to R136), what follows it at the instruction boundary (the report of
40_execution_loop.md R148, the shutdown of 60_exceptions.md R242, the snapshot of R241), and the turns of the agents
(log entry 5). -/

namespace Sys2Proof.Machine

variable {w : Nat}

/-- Fetch: the word at index `pc`; `none` where `pc >= len(Prog)` (40_execution_loop.md R133, R134). -/
def Engine.fetch (e : Engine w) : Option CodeWord :=
  e.prog[e.core.pc]?

/-- `execute` and the end of the cycle for what a word decodes to (40_execution_loop.md R136, R137). -/
def execDecoded (d : Decoded) (s : State) : Host.Outcome State Fault Refusal :=
  match d with
  | .instr i => exec i s
  | .operation p f => execOperation p f s

/-- `cycle()` (40_execution_loop.md R132): the end of Program first, then decode, then dispatch, in the order of
60_exceptions.md R224. -/
def State.cycle (s : State) : Host.Outcome State Fault Refusal :=
  match s.engine.fetch with
  | none => s.nextWith s.engine.enterHalted
  | some word =>
    match decodeWith s.engine.cfg.archTable word with
    | .error _ => s.nextWith (s.engine.raiseFault .unknownOpcode)
    | .ok d => execDecoded d s

/-- Whether SNAPSHOT_POLICY selects boundary `n` (60_exceptions.md R241, log entry 6). -/
def snapshotSelected (p : SnapshotPolicy) (n : Nat) : Bool :=
  match p with
  | .listed bs => bs.contains n
  | .except bs => !bs.contains n
  | .periodic period residues => residues.contains (n % period)
  | .free k => Config.freeBoundary k n

/-- The outcome the engine reports when a run has ended (40_execution_loop.md R148). -/
def MachineState.report (m : MachineState w) : Option RunReport :=
  match m.runState with
  | .ready => none
  | .running => none
  | .halted => some .halted
  | .faulted => some (.faulted m.faultCause)

/-- The boundary after a cycle. A run that has ended is reported and its channels are closed (40_execution_loop.md R148,
60_exceptions.md R242); a run that goes on owes a snapshot where the output channel is present and the policy selects the
boundary (R241). That the report and the close belong to this step is log entry 8. -/
def Engine.boundary (e : Engine w) : Engine w :=
  let e' := { e with cycles := e.cycles + 1 }
  match e.core.report with
  | some r => e'.closeChannels.tellHost (.outcome r)
  | none => { e' with snapshotDue := e.output.isSome && snapshotSelected e.cfg.snapshotPolicy (e.cycles + 1) }

/-- The boundary after a cycle that answered a next state. -/
def atBoundary (o : Host.Outcome State Fault Refusal) : Host.Outcome State Fault Refusal :=
  match o with
  | .next t => .next ⟨t.xlen, t.engine.boundary⟩
  | .fault r => .fault r
  | .refused r => .refused r

/-- The engine's turn: in Running, a send that is owed comes before the next cycle (60_exceptions.md R241). In Ready it
waits for `run()`; in Halted, in Faulted and after a termination no cycle executes and nothing changes
(40_execution_loop.md R140, R141, 60_exceptions.md R230, log entry 4). DESIGN CHOICE: a send that is still owed where a
termination is taken, blocked or not yet tried, never happens (R241, log entry 10). -/
def State.engineTurn (s : State) : Host.Outcome State Fault Refusal :=
  if s.engine.terminated then .next s
  else
    match s.engine.core.runState with
    | .ready => .next s
    | .halted => .next s
    | .faulted => .next s
    | .running => if s.engine.snapshotDue then s.nextWith s.engine.trySend else atBoundary s.cycle

/-- The engine with its agenda's first turn taken off. -/
def Engine.popTurn (e : Engine w) : Engine w :=
  { e with agenda := e.agenda.tail }

/-- One turn of the agent that moves next (log entry 5). -/
def State.turn (s : State) : Host.Outcome State Fault Refusal :=
  match s.engine.agenda with
  | [] => s.engineTurn
  | .engine :: _ => State.engineTurn ⟨s.xlen, s.engine.popTurn⟩
  | .host c :: _ => s.nextWith (s.engine.popTurn.hostCall c)
  | .renderer a :: _ => s.nextWith (s.engine.popTurn.rendererAct a)

end Sys2Proof.Machine
end

