-- ==== Sys2Proof/Machine/Step.lean ====
section
/-! DEFINITION. One step: one turn of the engine, the host or the renderer (Machine/Cycle.lean). -/

namespace Sys2Proof.Machine

/-- One step (40_execution_loop.md R132, 60_exceptions.md R245). -/
def step (s : State) : Host.Outcome State Fault Refusal :=
  s.turn

/-- The state with one instruction as its loaded Program, as `load` and `run` leave it, and the engine's turn next: the
very next step fetches and runs that instruction (log entry 12). -/
def State.withFetchWord (s : State) (nbits w : Nat) : State :=
  ⟨s.xlen,
    { s.engine with
      prog := [tableWord nbits w]
      core := { s.engine.core with pc := 0, runState := .running }
      terminated := false
      bootFailed := false
      snapshotDue := false
      agenda := [] }⟩

end Sys2Proof.Machine
end

