-- ==== Sys2Proof/Safety.lean ====
section
/-! DEFINITION. The terms claims use: what an instruction leaves as it was (frames), the invariants of the engine, and
what it means that a run has ended. -/

namespace Sys2Proof.Machine

variable {w : Nat}

/-! ### Frames -/

/-- Everything of the engine outside MachineState is as before: parameters, Program, output channel, turns, messages.
The input channel is left to the statement, since IN takes an event from it. -/
structure Engine.OutsideSame (e e' : Engine w) : Prop where
  cfg : e'.cfg = e.cfg
  prog : e'.prog = e.prog
  output : e'.output = e.output
  cycles : e'.cycles = e.cycles
  snapshotDue : e'.snapshotDue = e.snapshotDue
  terminated : e'.terminated = e.terminated
  bootFailed : e'.bootFailed = e.bootFailed
  agenda : e'.agenda = e.agenda
  hostInbox : e'.hostInbox = e.hostInbox

/-- `flags`, `run_state` and `fault_cause` are as before. -/
structure Engine.ControlSame (e e' : Engine w) : Prop where
  flags : e'.core.flags = e.core.flags
  runState : e'.core.runState = e.core.runState
  faultCause : e'.core.faultCause = e.core.faultCause

/-- Every general register is as before. -/
def Engine.RegistersSame (e e' : Engine w) : Prop :=
  ∀ r, e'.core.x r = e.core.x r

/-- Every general register but `rd` is as before. -/
def Engine.RegistersSameBut (rd : RegIndex) (e e' : Engine w) : Prop :=
  ∀ r, r ≠ rd → e'.core.x r = e.core.x r

/-- Every data-memory cell reads as before. -/
def Engine.CellsSame (e e' : Engine w) : Prop :=
  ∀ a, Memory.read e'.core.mem a = Memory.read e.core.mem a

/-- Every data-memory cell but cell `a` reads as before. -/
def Engine.CellsSameBut (a : Nat) (e e' : Engine w) : Prop :=
  ∀ b, b ≠ a → Memory.read e'.core.mem b = Memory.read e.core.mem b

/-- The frame of an instruction that writes register `rd` and `pc` and nothing else. -/
structure Engine.OnlyRegister (rd : RegIndex) (e e' : Engine w) : Prop where
  registers : Engine.RegistersSameBut rd e e'
  cells : Engine.CellsSame e e'
  control : Engine.ControlSame e e'
  input : e'.input = e.input
  outside : Engine.OutsideSame e e'

/-- The frame of an instruction that writes `pc` and nothing else. -/
structure Engine.OnlyPc (e e' : Engine w) : Prop where
  registers : Engine.RegistersSame e e'
  cells : Engine.CellsSame e e'
  control : Engine.ControlSame e e'
  input : e'.input = e.input
  outside : Engine.OutsideSame e e'

/-- A fault with cause `c` was taken and nothing else happened (60_exceptions.md R222). -/
structure Engine.TookFault (c : FaultCause) (e e' : Engine w) : Prop where
  faultCause : e'.core.faultCause = c
  runState : e'.core.runState = .faulted
  pc : e'.core.pc = e.core.pc
  flags : e'.core.flags = e.core.flags
  registers : Engine.RegistersSame e e'
  cells : Engine.CellsSame e e'
  input : e'.input = e.input
  outside : Engine.OutsideSame e e'

/-- The instruction `i` completes: `exec` answers a next state, and its engine is as `P` says. -/
def Completes (i : Instr) (e : Engine w) (P : Engine w → Prop) : Prop :=
  ∃ e' : Engine w, exec i ⟨w, e⟩ = .next ⟨w, e'⟩ ∧ P e'

/-- The step answers a next state of the same width, and its engine is as `P` says. -/
def StepsTo (e : Engine w) (P : Engine w → Prop) : Prop :=
  ∃ e' : Engine w, step ⟨w, e⟩ = .next ⟨w, e'⟩ ∧ P e'

/-- `k` steps all answer a next state, and the engine after them is as `P` says. -/
def RunsTo (k : Nat) (e : Engine w) (P : Engine w → Prop) : Prop :=
  ∃ e' : Engine w, Host.Core.run Sys2Proof.core k ⟨w, e⟩ = .next ⟨w, e'⟩ ∧ P e'

/-- The engine is in Running with nothing in the way of a cycle: no termination taken, no send owed
(60_exceptions.md R230, R241). -/
structure Engine.CanCycle (e : Engine w) : Prop where
  running : e.core.runState = .running
  notTerminated : e.terminated = false
  noSendOwed : e.snapshotDue = false

/-- The engine moves next, alone or by the agenda, whose turns after it are `rest`. -/
def Engine.MovesNext (e : Engine w) (rest : List (Turn w)) : Prop :=
  e.agenda = [] ∧ rest = [] ∨ e.agenda = .engine :: rest

/-- Around a cycle that takes the engine to `e1`, the step to `e2` counts the cycle; where the run goes on it changes
nothing else but to note a snapshot that SNAPSHOT_POLICY asks for (60_exceptions.md R241, log entry 6). -/
structure Engine.AfterCycle (e1 e2 : Engine w) : Prop where
  core : e2.core = e1.core
  cfg : e2.cfg = e1.cfg
  prog : e2.prog = e1.prog
  terminated : e2.terminated = e1.terminated
  agenda : e2.agenda = e1.agenda
  cycles : e2.cycles = e1.cycles + 1
  running : e1.core.runState = .running →
    e2.input = e1.input ∧ e2.output = e1.output ∧ e2.hostInbox = e1.hostInbox ∧
      e2.snapshotDue = (e1.output.isSome && snapshotSelected e1.cfg.snapshotPolicy (e1.cycles + 1))

/-! ### Register indexes of a described operation

When an operation of another table, checked in the order of its description (log entry 3), comes to a register index
above 15 before it comes to any fault (40_execution_loop.md R146). -/

/-- Computing the expression comes to a register index above 15, and to no fault before it. -/
inductive Engine.MeetsBadIndex (e : Engine w) (f : Fields) (event : Nat) : Expr → Prop where
  /-- the index itself -/
  | index (x : Expr) (n : Nat) (hv : e.value f event x = .ok n) (hn : 15 < n) : Engine.MeetsBadIndex e f event (.register x)
  /-- in the computation of an index -/
  | inIndex (x : Expr) (h : Engine.MeetsBadIndex e f event x) : Engine.MeetsBadIndex e f event (.register x)
  /-- in the computation of an address -/
  | inAddress (x : Expr) (h : Engine.MeetsBadIndex e f event x) : Engine.MeetsBadIndex e f event (.cell x)
  /-- in a first argument -/
  | inFirst (g : BinaryOp) (a b : Expr) (h : Engine.MeetsBadIndex e f event a) : Engine.MeetsBadIndex e f event (.binary g a b)
  /-- in a second argument -/
  | inSecond (g : BinaryOp) (a b : Expr) (n : Nat) (hv : e.value f event a = .ok n) (h : Engine.MeetsBadIndex e f event b) :
      Engine.MeetsBadIndex e f event (.binary g a b)
  /-- in a condition -/
  | inCondition (c a b : Expr) (h : Engine.MeetsBadIndex e f event c) : Engine.MeetsBadIndex e f event (.choose c a b)
  /-- in what is chosen where the condition is not 0 -/
  | inThen (c a b : Expr) (n : Nat) (hv : e.value f event c = .ok n) (hn : n ≠ 0) (h : Engine.MeetsBadIndex e f event a) :
      Engine.MeetsBadIndex e f event (.choose c a b)
  /-- in what is chosen where the condition is 0 -/
  | inElse (c a b : Expr) (hv : e.value f event c = .ok 0) (h : Engine.MeetsBadIndex e f event b) :
      Engine.MeetsBadIndex e f event (.choose c a b)

/-- The same for the place of a write: the index of the register it writes, or on the way to its place. -/
inductive Engine.PlaceMeetsBadIndex (e : Engine w) (f : Fields) (event : Nat) : Destination → Prop where
  | index (x : Expr) (n : Nat) (hv : e.value f event x = .ok n) (hn : 15 < n) :
      Engine.PlaceMeetsBadIndex e f event (.register x)
  | inIndex (x : Expr) (h : e.MeetsBadIndex f event x) : Engine.PlaceMeetsBadIndex e f event (.register x)
  | inAddress (x : Expr) (h : e.MeetsBadIndex f event x) : Engine.PlaceMeetsBadIndex e f event (.cell x)

/-- The same for the conditions of the operation's own faults, up to the first that is not 0. -/
inductive Engine.RaisesMeetBadIndex (e : Engine w) (f : Fields) (event : Nat) : List (Expr × OperationFault) → Prop where
  | here (x : Expr) (r : OperationFault) (rest : List (Expr × OperationFault)) (h : e.MeetsBadIndex f event x) :
      Engine.RaisesMeetBadIndex e f event ((x, r) :: rest)
  | later (x : Expr) (r : OperationFault) (rest : List (Expr × OperationFault)) (hv : e.value f event x = .ok 0)
      (h : Engine.RaisesMeetBadIndex e f event rest) : Engine.RaisesMeetBadIndex e f event ((x, r) :: rest)

/-- The same for the writes, each one's value before its place. -/
inductive Engine.WritesMeetBadIndex (e : Engine w) (f : Fields) (event : Nat) : List OperationWrite → Prop where
  | value (o : OperationWrite) (rest : List OperationWrite) (h : e.MeetsBadIndex f event o.value) :
      Engine.WritesMeetBadIndex e f event (o :: rest)
  | place (o : OperationWrite) (rest : List OperationWrite) (n : Nat) (hv : e.value f event o.value = .ok n)
      (h : e.PlaceMeetsBadIndex f event o.dest) : Engine.WritesMeetBadIndex e f event (o :: rest)
  | later (o : OperationWrite) (rest : List OperationWrite) (n : Nat) (x : Write w)
      (hv : e.value f event o.value = .ok n) (hx : e.writeTo f event o.dest (trunc w n) = .ok x)
      (h : Engine.WritesMeetBadIndex e f event rest) : Engine.WritesMeetBadIndex e f event (o :: rest)

/-- The same for the next-pc action. -/
inductive Engine.TransferMeetsBadIndex (e : Engine w) (f : Fields) (event : Nat) : Transfer → Prop where
  | target (x : Expr) (h : e.MeetsBadIndex f event x) : Engine.TransferMeetsBadIndex e f event (.jump x)
  | inCondition (c : Expr) (a b : Transfer) (h : e.MeetsBadIndex f event c) :
      Engine.TransferMeetsBadIndex e f event (.choose c a b)
  | inThen (c : Expr) (a b : Transfer) (n : Nat) (hv : e.value f event c = .ok n) (hn : n ≠ 0)
      (h : Engine.TransferMeetsBadIndex e f event a) : Engine.TransferMeetsBadIndex e f event (.choose c a b)
  | inElse (c : Expr) (a b : Transfer) (hv : e.value f event c = .ok 0)
      (h : Engine.TransferMeetsBadIndex e f event b) : Engine.TransferMeetsBadIndex e f event (.choose c a b)

/-- The same for a whole operation: among its own faults' conditions, else among its writes, else in its next-pc action. -/
inductive Engine.OperationMeetsBadIndex (e : Engine w) (f : Fields) (event : Nat) (p : Operation) : Prop where
  | raises (h : e.RaisesMeetBadIndex f event p.raises)
  | writes (hr : e.checkRaises f event p.raises = .ok ()) (h : e.WritesMeetBadIndex f event p.writes)
  | transfer (hr : e.checkRaises f event p.raises = .ok ()) (ws : List (Write w))
      (hw : e.writesOf f event p.writes = .ok ws) (h : e.TransferMeetsBadIndex f event p.transfer)

/-- The first of the operation's own faults whose condition is not 0 is RegOutOfRange. -/
def Engine.RaisesRegOutOfRange (e : Engine w) (f : Fields) (event : Nat) (p : Operation) : Prop :=
  ∃ before x n after, p.raises = before ++ (x, OperationFault.regOutOfRange) :: after ∧
    (∀ r ∈ before, e.value f event r.1 = .ok 0) ∧ e.value f event x = .ok n ∧ n ≠ 0

/-- `event` is the event an operation runs with: 0 where it takes none, else the oldest one queued. -/
def Engine.OperationEvent (e : Engine w) (p : Operation) (event : Nat) : Prop :=
  p.takesEvent = false ∧ event = 0 ∨
    p.takesEvent = true ∧ ∃ ch v rest, e.input = some ch ∧ ch.queue = v :: rest ∧ event = v.toNat

/-! ### The end of a run -/

/-- The run state is Halted or Faulted (10_state.md R31). -/
def MachineState.Ended (m : MachineState w) : Prop :=
  m.runState = .halted ∨ m.runState = .faulted

/-- No further cycle executes: the run has ended or a termination was taken (40_execution_loop.md R140, R141,
60_exceptions.md R230). -/
def Engine.Stopped (e : Engine w) : Prop :=
  e.core.Ended ∨ e.terminated = true

/-! ### Streams -/

/-- The snapshot a receive returned, if it returned one. -/
def RendererMessage.snapshot? : RendererMessage w → Option (MachineState w)
  | .snapshot m => some m
  | .endOfStream => none

/-- Every snapshot ever sent on the output channel, in send order: those received, then those queued. -/
def OutChannel.stream (ch : OutChannel w) : List (MachineState w) :=
  ch.delivered.filterMap RendererMessage.snapshot? ++ ch.queue

/-! ### Invariants -/

/-- What an output channel keeps: a renderer blocked on a receive has nothing to receive and an open channel
(60_exceptions.md R240), and a bounded queue is not overfull (93_implementation_defined.md I8). -/
structure OutChannel.Sound (capacity : Option Nat) (ch : OutChannel w) : Prop where
  waiting_empty : ch.waiting = true → ch.queue = [] ∧ ch.isOpen = true
  capacity_kept : ∀ n, capacity = some n → ch.queue.length ≤ n

/-- The invariant of the engine. -/
structure Engine.Inv (e : Engine w) : Prop where
  /-- the memory is in canonical form (log entry 2) -/
  mem_wf : Memory.wf e.core.mem = true
  /-- every listed cell exists (20_memory.md R51) -/
  mem_within : Memory.within e.cfg.memWords e.core.mem = true
  /-- HALT is 1 exactly when the run state is Halted (10_state.md R29) -/
  halt_flag : e.core.flags.halt = true ↔ e.core.runState = .halted
  /-- a fault cause is recorded exactly in Faulted (10_state.md R30) -/
  fault_cause : e.core.faultCause ≠ .none ↔ e.core.runState = .faulted
  /-- the input channel is present exactly when HAS_INPUT holds (10_state.md R36) -/
  input_present : e.input.isSome = e.cfg.hasInput
  /-- the output channel is present exactly when HAS_OUTPUT holds (10_state.md R36) -/
  output_present : e.output.isSome = e.cfg.hasOutput
  /-- after the run has ended no present channel is open (60_exceptions.md R242) -/
  ended_input_closed : e.core.Ended → ∀ ch, e.input = some ch → ch.isOpen = false
  /-- the output channel is open exactly until the run has ended (60_exceptions.md R242) -/
  output_open : ∀ ch, e.output = some ch → (ch.isOpen = true ↔ ¬ e.core.Ended)
  /-- the output channel is sound -/
  output_sound : ∀ ch, e.output = some ch → ch.Sound e.cfg.outputCapacity
  /-- a send is owed only between two cycles of a run with an output channel (60_exceptions.md R241) -/
  due_running : e.snapshotDue = true → e.core.runState = .running ∧ e.output.isSome = true
  /-- where the Program failed to be produced there is no run (70_reset_and_hazards.md R262) -/
  boot_failed : e.bootFailed = true → e.core.runState = .ready

/-- Whether an operation is one of the 18 of the reference table. -/
def referenceSem : Sem → Bool
  | .reference _ => true
  | .described _ => false

/-- Every operation of the table is one of the 18 of the reference table. -/
def ReferenceOperations (t : ArchTable) : Prop :=
  ∀ r ∈ t, referenceSem r.sem = true

/-- The bound of 10_state.md R28 on the program counter. -/
def Engine.PcBounded (e : Engine w) : Prop :=
  e.core.pc ≤ max e.prog.length 65535

end Sys2Proof.Machine
end

