-- ==== Sys2Proof/Certificates/Slice0/Obligations.lean ====
section
/-! DEFINITION. The statements for the provers. Each is about every width `w` and every configuration; the log entries
named are those of notes/assumptions/. -/

open Sys2Proof Sys2Proof.Machine

/-! ### Encoding and decoding -/

/-- 30_encoding.md R82: the layout of `pack` and `unpack` as numbers, and that each undoes the other. -/
def Obligations.PackAndUnpackAreInverse : Prop :=
  (∀ f : Fields, (pack f).toNat = f.op.toNat + f.rd.toNat * 2 ^ 8 + f.rs.toNat * 2 ^ 12 + f.imm.toNat * 2 ^ 16) ∧
  (∀ word : CodeWord, (unpack word).op.toNat = word.toNat % 2 ^ 8 ∧ (unpack word).rd.toNat = word.toNat / 2 ^ 8 % 2 ^ 4 ∧
    (unpack word).rs.toNat = word.toNat / 2 ^ 12 % 2 ^ 4 ∧ (unpack word).imm.toNat = word.toNat / 2 ^ 16) ∧
  (∀ f : Fields, unpack (pack f) = f) ∧ (∀ word : CodeWord, pack (unpack word) = word)

/-- Decoding undoes encoding under every well-formed Architecture Table, for every instruction that is well-formed under
it (30_encoding.md R82, R85, R86; 10_state.md R33): some record has its operation and names the fields of its operands,
an operand of 0 excepted. That a field no kind names reads as 0 is the model's choice (log entry 3). -/
def Obligations.DecodeUndoesEncodeInEveryTable : Prop :=
  ∀ (t : ArchTable) (i : Instr), t.wellFormed = true → i.wellFormedIn t = true →
    ∃ word, encodeWith t i = some word ∧ decodeWith t word = .ok (.instr i)

/-- Under the reference table every instruction is well-formed, and decoding undoes encoding (30_encoding.md R95). -/
def Obligations.DecodeUndoesEncodeInReferenceTable : Prop :=
  ∀ i : Instr, i.wellFormedIn ArchTable.reference = true ∧ encodeWith ArchTable.reference i = some (encode i) ∧
    decode (encode i) = .ok i

/-- 30_encoding.md R85: words that agree on the opcode and on every field that the record's kinds name decode alike under
every table, to the same instruction or operation or to the same error; and the Assembler writes 0 in a field that no
kind names. -/
def Obligations.UnnamedFieldsAreIgnored : Prop :=
  (∀ (t : ArchTable) (a b : CodeWord), (unpack a).op = (unpack b).op →
    (∀ r, t.lookup (unpack a).op = some r →
      (Kind.D ∈ r.kinds → (unpack a).rd = (unpack b).rd) ∧ (Kind.S ∈ r.kinds → (unpack a).rs = (unpack b).rs) ∧
      (Kind.I ∈ r.kinds → (unpack a).imm = (unpack b).imm)) →
    decodeWith t a = decodeWith t b) ∧
  (∀ (t : ArchTable) (syms : SymbolTable) (i : SourceInstr) (r : InstructionSpec) (word : CodeWord),
    t.lookupMnemonic i.mnemonic = some r → encodeInstr t syms i = .ok word →
    (Kind.D ∉ r.kinds → (unpack word).rd = 0) ∧ (Kind.S ∉ r.kinds → (unpack word).rs = 0) ∧
      (Kind.I ∉ r.kinds → (unpack word).imm = 0))

/-- 30_encoding.md R88: which opcodes are legal under the reference table; every other is rejected by name. -/
def Obligations.ReferenceOpcodesLegal : Prop :=
  ∀ word : CodeWord,
    ((∃ i, decode word = .ok i) ↔
      ((unpack word).op.toNat ≤ 0x0B ∨ (0x10 ≤ (unpack word).op.toNat ∧ (unpack word).op.toNat ≤ 0x12) ∨
        (unpack word).op.toNat = 0x20 ∨ (unpack word).op.toNat = 0x21 ∨ (unpack word).op.toNat = 0x30)) ∧
    ((¬ ∃ i, decode word = .ok i) → decode word = .error (.unknownOpcode (unpack word).op))

/-- Words written out from the spec's encodings, one of each family, decode to the instructions they stand for
(30_encoding.md R81, R95). -/
def Obligations.WrittenOutWordsDecode : Prop :=
  decode 0b0001001000110100_0000_0001_00000010 = .ok (.ldi 1 0x1234) ∧
  decode 0b0000000000000000_0010_0001_00000101 = .ok (.sub 1 2) ∧
  decode 0b0000000000000101_0010_0000_00010001 = .ok (.jz 2 5) ∧
  decode 0b0000000011111111_0110_0101_00100001 = .ok (.st 5 6 0xFF) ∧
  decode 0b0000000000000000_0000_0100_00110000 = .ok (.inp 4) ∧
  decode 0b0000000000000000_0000_0000_00000000 = .ok .halt

/-- 20_memory.md R57: the words of an image, byte by byte, and the truncated image, on which no Program is loaded: where
`load` is accepted the host gets the load error and there is no run (70_reset_and_hazards.md R262). That the failure is
kept and refuses later calls is the model's choice (log entry 17). -/
def Obligations.ImageIsLittleEndianWords : Prop :=
  (∀ (bytes : List Byte) (p : Program), programOfImage bytes = some p →
    bytes.length = 4 * p.length ∧
    ∀ (i : Nat) (word : CodeWord), p[i]? = some word →
      ∃ b0 b1 b2 b3 : Byte, bytes[4 * i]? = some b0 ∧ bytes[4 * i + 1]? = some b1 ∧ bytes[4 * i + 2]? = some b2 ∧
        bytes[4 * i + 3]? = some b3 ∧
        word.toNat = b0.toNat + b1.toNat * 2 ^ 8 + b2.toNat * 2 ^ 16 + b3.toNat * 2 ^ 24) ∧
  (∀ bytes : List Byte, programOfImage bytes = none ↔ bytes.length % 4 ≠ 0) ∧
  (∀ (w : Nat) (e : Engine w) (bytes : List Byte), bytes.length % 4 ≠ 0 → e.acceptsControl = true →
    e.loadImage bytes = { e with hostInbox := e.hostInbox ++ [.loadError], bootFailed := true })

/-- An image made of a Program loads as that Program (20_memory.md R57). -/
def Obligations.ImageOfProgramLoads : Prop :=
  ∀ p : Program, programOfImage (imageOfProgram p) = some p

/-- 40_execution_loop.md R131, 10_state.md R33: in a well-formed table `lookup` finds exactly the record with the opcode,
and the Assembler's lookup the record with the mnemonic in any case. -/
def Obligations.LookupFindsTheRecord : Prop :=
  ∀ (t : ArchTable), t.wellFormed = true →
    (∀ (r : InstructionSpec) (op : Opcode), t.lookup op = some r ↔ r ∈ t ∧ r.opcode = op.toNat) ∧
    (∀ op : Opcode, t.lookup op = none ↔ ∀ r ∈ t, r.opcode ≠ op.toNat) ∧
    (∀ (r : InstructionSpec) (m : Text), t.lookupMnemonic m = some r ↔ r ∈ t ∧ r.key = normalizeMnemonic m)

/-! ### ALU and register-transfer instructions (41_alu.md) -/

/-- 41_alu.md R160: LDI, for every width of at least 16, which is every width the parameter XLEN allows. -/
def Obligations.LdiLoadsZeroExtendedImmediate : Prop :=
  ∀ (w : Nat) (e : Engine w) (rd rs : RegIndex) (imm : Imm), 16 ≤ w →
    decode (pack ⟨0x02, rd, rs, imm⟩) = .ok (.ldi rd imm) ∧
    Completes (.ldi rd imm) e fun e' =>
      (e'.core.x rd).toNat = imm.toNat ∧ e'.core.pc = e.core.pc + 1 ∧ Engine.OnlyRegister rd e e'

/-- 41_alu.md R161: MOV. -/
def Obligations.MovCopiesRegister : Prop :=
  ∀ (w : Nat) (e : Engine w) (rd rs : RegIndex) (imm : Imm),
    decode (pack ⟨0x03, rd, rs, imm⟩) = .ok (.mov rd rs) ∧
    Completes (.mov rd rs) e fun e' =>
      e'.core.x rd = e.core.x rs ∧ e'.core.pc = e.core.pc + 1 ∧ Engine.OnlyRegister rd e e'

/-- 41_alu.md R162: ADD. -/
def Obligations.AddWrapsAtXlen : Prop :=
  ∀ (w : Nat) (e : Engine w) (rd rs : RegIndex) (imm : Imm),
    decode (pack ⟨0x04, rd, rs, imm⟩) = .ok (.add rd rs) ∧
    Completes (.add rd rs) e fun e' =>
      (e'.core.x rd).toNat = ((e.core.x rd).toNat + (e.core.x rs).toNat) % 2 ^ w ∧ e'.core.pc = e.core.pc + 1 ∧
        Engine.OnlyRegister rd e e'

/-- 41_alu.md R163: SUB. -/
def Obligations.SubWrapsAtXlen : Prop :=
  ∀ (w : Nat) (e : Engine w) (rd rs : RegIndex) (imm : Imm),
    decode (pack ⟨0x05, rd, rs, imm⟩) = .ok (.sub rd rs) ∧
    Completes (.sub rd rs) e fun e' =>
      (e'.core.x rd).toNat = ((e.core.x rd).toNat + 2 ^ w - (e.core.x rs).toNat) % 2 ^ w ∧
        e'.core.pc = e.core.pc + 1 ∧ Engine.OnlyRegister rd e e'

/-- 41_alu.md R164, R165, R166: AND, OR and XOR, bit by bit. -/
def Obligations.LogicIsBitByBit : Prop :=
  ∀ (w : Nat) (e : Engine w) (rd rs : RegIndex) (imm : Imm),
    (decode (pack ⟨0x06, rd, rs, imm⟩) = .ok (.and rd rs) ∧
      Completes (.and rd rs) e fun e' =>
        (∀ k, (e'.core.x rd).getLsbD k = ((e.core.x rd).getLsbD k && (e.core.x rs).getLsbD k)) ∧
          e'.core.pc = e.core.pc + 1 ∧ Engine.OnlyRegister rd e e') ∧
    (decode (pack ⟨0x07, rd, rs, imm⟩) = .ok (.or rd rs) ∧
      Completes (.or rd rs) e fun e' =>
        (∀ k, (e'.core.x rd).getLsbD k = ((e.core.x rd).getLsbD k || (e.core.x rs).getLsbD k)) ∧
          e'.core.pc = e.core.pc + 1 ∧ Engine.OnlyRegister rd e e') ∧
    (decode (pack ⟨0x08, rd, rs, imm⟩) = .ok (.xor rd rs) ∧
      Completes (.xor rd rs) e fun e' =>
        (∀ k, (e'.core.x rd).getLsbD k = ((e.core.x rd).getLsbD k ^^ (e.core.x rs).getLsbD k)) ∧
          e'.core.pc = e.core.pc + 1 ∧ Engine.OnlyRegister rd e e')

/-- 41_alu.md R167: SHL; an amount of XLEN or more gives 0. -/
def Obligations.ShlShiftsByWholeRegister : Prop :=
  ∀ (w : Nat) (e : Engine w) (rd rs : RegIndex) (imm : Imm),
    decode (pack ⟨0x09, rd, rs, imm⟩) = .ok (.shl rd rs) ∧
    Completes (.shl rd rs) e fun e' =>
      (e'.core.x rd).toNat =
          (if (e.core.x rs).toNat ≥ w then 0 else (e.core.x rd).toNat * 2 ^ (e.core.x rs).toNat % 2 ^ w) ∧
        e'.core.pc = e.core.pc + 1 ∧ Engine.OnlyRegister rd e e'

/-- 41_alu.md R168: SHR; an amount of XLEN or more gives 0. -/
def Obligations.ShrShiftsInZeros : Prop :=
  ∀ (w : Nat) (e : Engine w) (rd rs : RegIndex) (imm : Imm),
    decode (pack ⟨0x0A, rd, rs, imm⟩) = .ok (.shr rd rs) ∧
    Completes (.shr rd rs) e fun e' =>
      (e'.core.x rd).toNat =
          (if (e.core.x rs).toNat ≥ w then 0 else (e.core.x rd).toNat / 2 ^ (e.core.x rs).toNat) ∧
        e'.core.pc = e.core.pc + 1 ∧ Engine.OnlyRegister rd e e'

/-- 41_alu.md R169: ADDI, for every width of at least 16, which is every width the parameter XLEN allows. -/
def Obligations.AddiAddsZeroExtendedImmediate : Prop :=
  ∀ (w : Nat) (e : Engine w) (rd rs : RegIndex) (imm : Imm), 16 ≤ w →
    decode (pack ⟨0x0B, rd, rs, imm⟩) = .ok (.addi rd imm) ∧
    Completes (.addi rd imm) e fun e' =>
      (e'.core.x rd).toNat = ((e.core.x rd).toNat + imm.toNat) % 2 ^ w ∧ e'.core.pc = e.core.pc + 1 ∧
        Engine.OnlyRegister rd e e'

/-! ### Control transfer and halt (43_control.md) -/

/-- 43_control.md R201: HALT; no instruction executes after it, for any number of steps. -/
def Obligations.HaltEntersHalted : Prop :=
  ∀ (w : Nat) (e : Engine w) (rd rs : RegIndex) (imm : Imm),
    decode (pack ⟨0x00, rd, rs, imm⟩) = .ok .halt ∧
    Completes .halt e fun e' =>
      e'.core.runState = .halted ∧ e'.core.flags.value = 1 ∧ e'.core.pc = e.core.pc ∧
        e'.core.faultCause = e.core.faultCause ∧ Engine.RegistersSame e e' ∧ Engine.CellsSame e e' ∧
        e'.input = e.input ∧ Engine.OutsideSame e e' ∧ ∀ k, RunsTo k e' fun e2 => e2.core = e'.core

/-- 43_control.md R202: NOP. -/
def Obligations.NopOnlyAdvances : Prop :=
  ∀ (w : Nat) (e : Engine w) (rd rs : RegIndex) (imm : Imm),
    decode (pack ⟨0x01, rd, rs, imm⟩) = .ok .nop ∧
    Completes .nop e fun e' => e'.core.pc = e.core.pc + 1 ∧ Engine.OnlyPc e e'

/-- 43_control.md R204: JMP. -/
def Obligations.JmpSetsPcToImmediate : Prop :=
  ∀ (w : Nat) (e : Engine w) (rd rs : RegIndex) (imm : Imm),
    decode (pack ⟨0x10, rd, rs, imm⟩) = .ok (.jmp imm) ∧
    Completes (.jmp imm) e fun e' => e'.core.pc = imm.toNat ∧ Engine.OnlyPc e e'

/-- 43_control.md R205: JZ. -/
def Obligations.JzJumpsOnZero : Prop :=
  ∀ (w : Nat) (e : Engine w) (rd rs : RegIndex) (imm : Imm),
    decode (pack ⟨0x11, rd, rs, imm⟩) = .ok (.jz rs imm) ∧
    Completes (.jz rs imm) e fun e' =>
      e'.core.pc = (if (e.core.x rs).toNat = 0 then imm.toNat else e.core.pc + 1) ∧ Engine.OnlyPc e e'

/-- 43_control.md R206: JNZ. -/
def Obligations.JnzJumpsOnNonZero : Prop :=
  ∀ (w : Nat) (e : Engine w) (rd rs : RegIndex) (imm : Imm),
    decode (pack ⟨0x12, rd, rs, imm⟩) = .ok (.jnz rs imm) ∧
    Completes (.jnz rs imm) e fun e' =>
      e'.core.pc = (if (e.core.x rs).toNat ≠ 0 then imm.toNat else e.core.pc + 1) ∧ Engine.OnlyPc e e'

/-! ### Memory access and peripheral input (42_memory_io.md) -/

/-- 42_memory_io.md R180: the effective address is the exact sum, however large. -/
def Obligations.EffectiveAddressIsExact : Prop :=
  ∀ (w : Nat) (base : Word w) (imm : Imm), effectiveAddress base imm = base.toNat + imm.toNat

/-- 42_memory_io.md R181: LD on a cell that exists, and its fault on any other. -/
def Obligations.LdLoadsCellOrFaults : Prop :=
  ∀ (w : Nat) (e : Engine w) (rd rs : RegIndex) (imm : Imm),
    decode (pack ⟨0x20, rd, rs, imm⟩) = .ok (.ld rd rs imm) ∧
    ((e.core.x rs).toNat + imm.toNat < e.cfg.memWords →
      Completes (.ld rd rs imm) e fun e' =>
        e'.core.x rd = Memory.read e.core.mem ((e.core.x rs).toNat + imm.toNat) ∧ e'.core.pc = e.core.pc + 1 ∧
          Engine.OnlyRegister rd e e') ∧
    ((e.core.x rs).toNat + imm.toNat ≥ e.cfg.memWords →
      Completes (.ld rd rs imm) e fun e' => Engine.TookFault .memOutOfRange e e')

/-- 42_memory_io.md R182: ST on a cell that exists, and its fault on any other. The memory is in its canonical form
(invariant `Engine.Inv.mem_wf`, stated in EveryStepKeepsTheInvariant). -/
def Obligations.StStoresCellOrFaults : Prop :=
  ∀ (w : Nat) (e : Engine w) (rd rs : RegIndex) (imm : Imm), Memory.wf e.core.mem = true →
    decode (pack ⟨0x21, rd, rs, imm⟩) = .ok (.st rd rs imm) ∧
    effectiveAddress (e.core.x rd) imm = (e.core.x rd).toNat + imm.toNat ∧
    (effectiveAddress (e.core.x rd) imm < e.cfg.memWords →
      Completes (.st rd rs imm) e fun e' =>
        Memory.read e'.core.mem (effectiveAddress (e.core.x rd) imm) = e.core.x rs ∧
          Engine.CellsSameBut (effectiveAddress (e.core.x rd) imm) e e' ∧ e'.core.pc = e.core.pc + 1 ∧
          Engine.RegistersSame e e' ∧ Engine.ControlSame e e' ∧ e'.input = e.input ∧ Engine.OutsideSame e e') ∧
    (effectiveAddress (e.core.x rd) imm ≥ e.cfg.memWords →
      Completes (.st rd rs imm) e fun e' => Engine.TookFault .memOutOfRange e e')

/-- 42_memory_io.md R183: IN takes the oldest event; on an empty open channel it waits, with nothing written; with no
channel, or at the end of the stream, it faults. -/
def Obligations.InReceivesWaitsOrFaults : Prop :=
  ∀ (w : Nat) (e : Engine w) (rd rs : RegIndex) (imm : Imm),
    decode (pack ⟨0x30, rd, rs, imm⟩) = .ok (.inp rd) ∧
    (∀ ch v rest, e.input = some ch → ch.queue = v :: rest →
      Completes (.inp rd) e fun e' =>
        e'.core.x rd = v ∧ e'.input = some { ch with queue := rest } ∧ e'.core.pc = e.core.pc + 1 ∧
          Engine.RegistersSameBut rd e e' ∧ Engine.CellsSame e e' ∧ Engine.ControlSame e e' ∧
          Engine.OutsideSame e e') ∧
    (∀ ch, e.input = some ch → ch.queue = [] → ch.isOpen = true →
      exec (.inp rd) ⟨w, e⟩ = .next ⟨w, e⟩) ∧
    ((e.input = none ∨ ∃ ch, e.input = some ch ∧ ch.queue = [] ∧ ch.isOpen = false) →
      Completes (.inp rd) e fun e' => Engine.TookFault .inputUnavailable e e')

/-- A load after a store (20_memory.md R61 (a), (c)): the stored value at its own address, the old value at any other. -/
def Obligations.LoadAfterStoreReadsIt : Prop :=
  ∀ (w : Nat) (e : Engine w) (sd ss ld ls : RegIndex) (simm limm : Imm), Memory.wf e.core.mem = true →
    effectiveAddress (e.core.x sd) simm < e.cfg.memWords → effectiveAddress (e.core.x ls) limm < e.cfg.memWords →
    Completes (.st sd ss simm) e fun e1 =>
      Completes (.ld ld ls limm) e1 fun e2 =>
        e2.core.x ld =
          if effectiveAddress (e.core.x ls) limm = effectiveAddress (e.core.x sd) simm then e.core.x ss
          else Memory.read e.core.mem (effectiveAddress (e.core.x ls) limm)

/-! ### What holds for every instruction -/

/-- 60_exceptions.md R222: a cycle that enters Faulted leaves the state exactly as before it, plus `fault_cause` and
`run_state`; nothing outside MachineState changes either. -/
def Obligations.FaultsArePrecise : Prop :=
  ∀ (w : Nat) (e e' : Engine w), e.core.runState = .running → State.cycle ⟨w, e⟩ = .next ⟨w, e'⟩ →
    e'.core.runState = .faulted →
    ∃ c, c ≠ .none ∧ e' = { e with core := { e.core with faultCause := c, runState := .faulted } }

/-- No instruction reads `flags`, and only HALT writes it (10_state.md R29, 41_alu.md R171): with any other flags, every
other instruction does the same and leaves them. -/
def Obligations.FlagsAreNeitherReadNorWritten : Prop :=
  ∀ (w : Nat) (e e' : Engine w) (i : Instr) (f : Flags), i ≠ .halt → exec i ⟨w, e⟩ = .next ⟨w, e'⟩ →
    e'.core.flags = e.core.flags ∧
    exec i ⟨w, { e with core := { e.core with flags := f } }⟩ =
      .next ⟨w, { e' with core := { e'.core with flags := f } }⟩

/-- 40_execution_loop.md R146: a computed register index outside 0 to 15 is RegOutOfRange, code 3, and any other names its
register. An operation of another table, whether or not it takes an event, takes that fault in place of every effect where
it comes to such an index before any other fault, anywhere in its faults' conditions, its writes or its next-pc action, or
where its description raises it as a fault of its own; it takes it in no other case; and no instruction of the reference
table raises it. The form of such operations, their own faults and the order of their checks are the model's (log entry
3). -/
def Obligations.RegOutOfRangeIsBadIndexOrOwnFault : Prop :=
  FaultCause.regOutOfRange.code = 3 ∧
  (∀ (w : Nat) (m : MachineState w) (n : Nat), 15 < n → m.xComputed n = .error .regOutOfRange) ∧
  (∀ (w : Nat) (m : MachineState w) (r : RegIndex), m.xComputed r.toNat = .ok (m.x r)) ∧
  (∀ (w : Nat) (e : Engine w) (f : Fields) (event : Nat) (x : Expr),
    e.value f event x = .error .regOutOfRange ↔ e.MeetsBadIndex f event x) ∧
  (∀ (w : Nat) (e : Engine w) (f : Fields) (p : Operation) (event : Nat), e.OperationEvent p event →
    e.OperationMeetsBadIndex f event p ∨ e.RaisesRegOutOfRange f event p →
    ∃ e', execOperation p f ⟨w, e⟩ = .next ⟨w, e'⟩ ∧ Engine.TookFault .regOutOfRange e e') ∧
  (∀ (w : Nat) (e e' : Engine w) (f : Fields) (p : Operation), execOperation p f ⟨w, e⟩ = .next ⟨w, e'⟩ →
    e.core.faultCause ≠ .regOutOfRange → e'.core.faultCause = .regOutOfRange →
    ∃ event, e.OperationEvent p event ∧
      (e.OperationMeetsBadIndex f event p ∨ e.RaisesRegOutOfRange f event p)) ∧
  (∀ (w : Nat) (e e' : Engine w) (i : Instr), exec i ⟨w, e⟩ = .next ⟨w, e'⟩ →
    e'.core.faultCause = .regOutOfRange → e.core.faultCause = .regOutOfRange)

/-- Which instructions write which registers (10_state.md R22, first and last lines): an instruction that is none of the
listed writers leaves every register, and a listed one writes its dest register alone. -/
def Obligations.OnlyListedInstructionsWriteRegisters : Prop :=
  ∀ (w : Nat) (e e' : Engine w) (i : Instr) (r : RegIndex), exec i ⟨w, e⟩ = .next ⟨w, e'⟩ →
    e'.core.x r ≠ e.core.x r →
    i.op ∈ [Op.ldi, .mov, .add, .sub, .and, .or, .xor, .shl, .shr, .addi, .ld, .inp] ∧ (i.fields 0).rd = r

/-- What a cycle does to MachineState and to the input channel depends on the parameters, MachineState, the Program and
the input channel alone: not on the renderer's side of the output channel, the host's messages or the turns to come
(20_memory.md R62, 60_exceptions.md R241). -/
def Obligations.CycleIgnoresItsObservers : Prop :=
  ∀ (w : Nat) (a b a' b' : Engine w), a.cfg = b.cfg → a.core = b.core → a.prog = b.prog → a.input = b.input →
    State.cycle ⟨w, a⟩ = .next ⟨w, a'⟩ → State.cycle ⟨w, b⟩ = .next ⟨w, b'⟩ →
    a'.core = b'.core ∧ a'.input = b'.input

/-! ### The step -/

/-- A step runs the decoded instruction (40_execution_loop.md R132 to R136), or the operation that another table gives the
opcode. Around it the step counts the cycle; where the run goes on it changes nothing else but to note a snapshot that
SNAPSHOT_POLICY asks for. The count, the note, the agenda and the form of such operations are the model's (log entries 3,
5 and 6). -/
def Obligations.StepRunsTheDecodedInstruction : Prop :=
  ∀ (w : Nat) (e : Engine w) (word : CodeWord) (rest : List (Turn w)), e.CanCycle → e.prog[e.core.pc]? = some word →
    e.MovesNext rest →
    (∀ i, decodeWith e.cfg.archTable word = .ok (.instr i) →
      Completes i { e with agenda := rest } fun e1 => StepsTo e fun e2 => Engine.AfterCycle e1 e2) ∧
    (∀ p f, decodeWith e.cfg.archTable word = .ok (.operation p f) →
      ∃ e1, execOperation p f ⟨w, { e with agenda := rest }⟩ = .next ⟨w, e1⟩ ∧
        StepsTo e fun e2 => Engine.AfterCycle e1 e2)

/-- 40_execution_loop.md R133: at or beyond the end of the Program the step enters Halted; no instruction executes. -/
def Obligations.EndOfProgramHalts : Prop :=
  ∀ (w : Nat) (e : Engine w) (rest : List (Turn w)), e.CanCycle → e.MovesNext rest → e.prog.length ≤ e.core.pc →
    StepsTo e fun e' =>
      e'.core.runState = .halted ∧ e'.core.flags.value = 1 ∧ e'.core.pc = e.core.pc ∧
        e'.core.faultCause = e.core.faultCause ∧ Engine.RegistersSame e e' ∧ Engine.CellsSame e e' ∧ e'.prog = e.prog

/-- 40_execution_loop.md R135: an opcode that is not in the table is the fault UnknownOpcode, whatever the other fields
and whatever else could fault. -/
def Obligations.UnknownOpcodeFaults : Prop :=
  ∀ (w : Nat) (e : Engine w) (word : CodeWord) (rest : List (Turn w)), e.CanCycle → e.MovesNext rest →
    e.prog[e.core.pc]? = some word →
    (∀ r ∈ e.cfg.archTable, r.opcode ≠ (unpack word).op.toNat) →
    StepsTo e fun e' =>
      e'.core.runState = .faulted ∧ e'.core.faultCause.code = 1 ∧ e'.core.pc = e.core.pc ∧
        e'.core.flags = e.core.flags ∧ Engine.RegistersSame e e' ∧ Engine.CellsSame e e' ∧ e'.prog = e.prog

/-- 60_exceptions.md R242, 40_execution_loop.md R148: the step that ends a run closes each channel that is present, gives
a renderer that is blocked on a receive its end-of-stream, and reports the outcome. That all this belongs to that same
step is the model's choice (log entry 8), and so are the mark of a blocked renderer and that queued snapshots stay (log
entry 11). -/
def Obligations.EndOfRunClosesChannelsAndReports : Prop :=
  ∀ (w : Nat) (e e' : Engine w) (rest : List (Turn w)), e.core.runState = .running → e.MovesNext rest →
    step ⟨w, e⟩ = .next ⟨w, e'⟩ → e'.core.Ended →
    (∀ ch, e'.input = some ch → ch.isOpen = false) ∧ (e'.input.isSome = e.input.isSome) ∧
    (e'.output.isSome = e.output.isSome) ∧
    (∀ ch ch', e.output = some ch → e'.output = some ch' →
      ch'.isOpen = false ∧ ch'.waiting = false ∧ ch'.queue = ch.queue ∧
        ch'.delivered = if ch.waiting then ch.delivered ++ [.endOfStream] else ch.delivered) ∧
    e'.hostInbox = e.hostInbox ++
      [.outcome (if e'.core.runState = .halted then .halted else .faulted e'.core.faultCause)]

/-- 40_execution_loop.md R140, R141, 60_exceptions.md R230: once the run has ended or a termination was taken, no step
changes MachineState or the Program, for any number of steps and whatever the host and the renderer do. That the host's
own calls do nothing to it after a termination is the model's choice (log entry 10). -/
def Obligations.NothingHappensAfterTheEnd : Prop :=
  ∀ (w : Nat) (e : Engine w) (k : Nat), e.Stopped →
    RunsTo k e fun e' => e'.core = e.core ∧ e'.prog = e.prog ∧ e'.Stopped

/-- XLEN and the other parameters never change, and no step ends in a fault or a refusal of the model
(10_state.md R33, "read-only for the life of the engine"). That the model stops nowhere, the spec's faults being states,
is its choice of form (log entry 4). -/
def Obligations.ParametersNeverChange : Prop :=
  ∀ (w : Nat) (e : Engine w) (k : Nat), RunsTo k e fun e' => e'.cfg = e.cfg

/-- 10_state.md R32: only `load` sets the Program, so from Running on it stays for any number of steps. -/
def Obligations.ProgramIsNeverMutated : Prop :=
  ∀ (w : Nat) (e : Engine w) (k : Nat), e.core.runState ≠ .ready →
    RunsTo k e fun e' => e'.prog = e.prog ∧ e'.core.runState ≠ .ready

/-! ### The host and the renderer -/

/-- 40_execution_loop.md R142: `load` in Ready sets `Prog` and `pc` and nothing else; in any other state it is refused.
The conditions on a termination and on a failed boot, and that a refusal gives no message, are the model's (log entries 10
and 17). -/
def Obligations.LoadIsAcceptedInReadyOnly : Prop :=
  ∀ (w : Nat) (e : Engine w) (p : Program) (rest : List (Turn w)), e.agenda = .host (.load p) :: rest →
    (e.core.runState = .ready → e.terminated = false → e.bootFailed = false →
      step ⟨w, e⟩ = .next ⟨w, { e with agenda := rest, prog := p, core := { e.core with pc := 0 } }⟩) ∧
    (e.core.runState ≠ .ready → step ⟨w, e⟩ = .next ⟨w, { e with agenda := rest }⟩)

/-- 40_execution_loop.md R142, last sentences, 60_exceptions.md R227, 70_reset_and_hazards.md R262 step 3: loading an image
or a source is the `load` of the Program it gives; where none is produced, no `load` happens, the host gets the error, and
there is no run: whatever the host, the renderer and the engine do afterwards, the engine stays in Ready with MachineState
and the Program as they are. How the failure is kept is the model's choice (log entry 17). -/
def Obligations.ImagesAndSourcesLoadTheirPrograms : Prop :=
  ∀ (w : Nat) (e : Engine w) (rest : List (Turn w)),
    (∀ bytes p, programOfImage bytes = some p →
      step ⟨w, { e with agenda := .host (.loadImage bytes) :: rest }⟩ =
        step ⟨w, { e with agenda := .host (.load p) :: rest }⟩) ∧
    (∀ source p, assemble e.cfg.archTable source = .ok p →
      step ⟨w, { e with agenda := .host (.loadSource source) :: rest }⟩ =
        step ⟨w, { e with agenda := .host (.load p) :: rest }⟩) ∧
    (∀ c m, e.core.runState = .ready → e.terminated = false → e.bootFailed = false →
      ((∃ bytes, c = .loadImage bytes ∧ programOfImage bytes = none ∧ m = .loadError) ∨
        ∃ source err, c = .loadSource source ∧ assemble e.cfg.archTable source = .error err ∧ m = .assemblyError err) →
      step ⟨w, { e with agenda := .host c :: rest }⟩ =
          .next ⟨w, { e with agenda := rest, hostInbox := e.hostInbox ++ [m], bootFailed := true }⟩ ∧
        ∀ k, RunsTo (k + 1) { e with agenda := .host c :: rest } fun e' => e'.core = e.core ∧ e'.prog = e.prog)

/-- 40_execution_loop.md R143: `run` in Ready enters Running and changes nothing else; in any other state it is
refused, and so it is where the Program was not produced (70_reset_and_hazards.md R262 step 3). The conditions on a
termination and on a failed boot, and that a refusal gives no message, are the model's (log entries 10 and 17). -/
def Obligations.RunIsAcceptedInReadyOnly : Prop :=
  ∀ (w : Nat) (e : Engine w) (rest : List (Turn w)), e.agenda = .host .run :: rest →
    (e.core.runState = .ready → e.terminated = false → e.bootFailed = false →
      step ⟨w, e⟩ = .next ⟨w, { e with agenda := rest, core := { e.core with runState := .running } }⟩) ∧
    (e.core.runState ≠ .ready ∨ e.bootFailed = true → step ⟨w, e⟩ = .next ⟨w, { e with agenda := rest }⟩)

/-- 60_exceptions.md R230: a termination request that is taken gives the host the report "terminated", after the dump where
that is produced, leaves all of MachineState, and no later step changes it or executes a cycle. Whether the dump is
produced is a draw, and what later host calls do is the model's choice (log entry 10). -/
def Obligations.TerminationStopsTheEngine : Prop :=
  ∀ (w : Nat) (e : Engine w) (rest : List (Turn w)) (dump : Bool) (k : Nat), e.terminated = false →
    e.agenda = .host (.terminate dump) :: rest →
    StepsTo e fun e1 =>
      e1.terminated = true ∧ e1.core = e.core ∧
        e1.hostInbox = e.hostInbox ++ (if dump then [.dump e.core] else []) ++ [.outcome .terminated] ∧
        RunsTo k e1 fun e2 => e2.core = e.core ∧ e2.terminated = true ∧ e2.cycles = e.cycles

/-- 60_exceptions.md R243, R245: a core dump and a disassembly change nothing of the engine; the host gets a copy of
MachineState, or the string. -/
def Obligations.DebugServicesOnlyRead : Prop :=
  ∀ (w : Nat) (e : Engine w) (rest : List (Turn w)) (word : CodeWord),
    (e.agenda = .host .dumpCore :: rest →
      step ⟨w, e⟩ = .next ⟨w, { e with agenda := rest, hostInbox := e.hostInbox ++ [.dump e.core] }⟩) ∧
    (e.agenda = .host (.disassemble word) :: rest →
      step ⟨w, e⟩ =
        .next ⟨w, { e with agenda := rest,
                           hostInbox := e.hostInbox ++ [.text (disassemble e.cfg.archTable word)] }⟩)

/-- 10_state.md R24: MachineState is the engine's alone: a turn of the host or the renderer leaves it as it is, but for the
two the spec accepts in Ready: a `load`, which sets `pc` to 0 and nothing else of it, and a `run`, which sets `run_state`
(40_execution_loop.md R142, R143). -/
def Obligations.OutsideAgentsNeverWriteMachineState : Prop :=
  ∀ (w : Nat) (e e' : Engine w) (turn : Turn w) (rest : List (Turn w)), e.agenda = turn :: rest → turn ≠ .engine →
    step ⟨w, e⟩ = .next ⟨w, e'⟩ →
    e'.core = e.core ∨
      (e.core.runState = .ready ∧
        (((∃ p, turn = .host (.load p)) ∨ (∃ bytes, turn = .host (.loadImage bytes)) ∨
              ∃ source, turn = .host (.loadSource source)) ∧
            e'.core = { e.core with pc := 0 } ∨
          turn = .host .run ∧ e'.core = { e.core with runState := .running }))

/-- 60_exceptions.md R241: an owed snapshot goes to the renderer that waits, or into a channel that has room, as a copy of
MachineState; else the engine is held at the boundary with nothing changed but the turn taken off. A send never changes
engine state. That a send is a step of its own, the capacity, and the direct handover to a waiting renderer are the model's
(log entries 6, 7 and 11). -/
def Obligations.SnapshotSendNeverChangesEngineState : Prop :=
  ∀ (w : Nat) (e : Engine w) (ch : OutChannel w) (rest : List (Turn w)), e.core.runState = .running →
    e.terminated = false → e.snapshotDue = true → e.MovesNext rest → e.output = some ch →
    (ch.waiting = true →
      step ⟨w, e⟩ =
        .next ⟨w, { e with agenda := rest, snapshotDue := false,
                           output := some { ch with waiting := false,
                                                    delivered := ch.delivered ++ [.snapshot e.core] } }⟩) ∧
    (ch.waiting = false → (∀ n, e.cfg.outputCapacity = some n → ch.queue.length < n) →
      step ⟨w, e⟩ =
        .next ⟨w, { e with agenda := rest, snapshotDue := false,
                           output := some { ch with queue := ch.queue ++ [e.core] } }⟩) ∧
    (ch.waiting = false → (∃ n, e.cfg.outputCapacity = some n ∧ n ≤ ch.queue.length) →
      step ⟨w, e⟩ = .next ⟨w, { e with agenda := rest }⟩)

/-- 60_exceptions.md R245, last row: a receive of the renderer unblocks a send, whatever the capacity of the channel. That it
does so for every capacity rests on the model's choices: the send's own step, the capacity as a parameter, the direct
handover, and a second receive that does nothing (log entries 6, 7 and 11). -/
def Obligations.ReceiveUnblocksSend : Prop :=
  ∀ (w : Nat) (e : Engine w), e.Inv → e.snapshotDue = true → e.terminated = false →
    e.agenda = [.renderer .receiveSnapshot, .engine] →
    RunsTo 2 e fun e' => e'.snapshotDue = false ∧ e'.core = e.core

/-- 42_memory_io.md R183, R186, 40_execution_loop.md R137: an event lifts the wait of an IN, which then takes it. -/
def Obligations.EventLiftsInputWait : Prop :=
  ∀ (w : Nat) (e : Engine w) (word : CodeWord) (rd : RegIndex) (ch : InChannel w) (v : Word w) (q : Bool),
    e.CanCycle → e.prog[e.core.pc]? = some word → decodeWith e.cfg.archTable word = .ok (.instr (.inp rd)) →
    e.input = some ch → ch.queue = [] → ch.isOpen = true → e.output = none →
    e.agenda = [.engine, .renderer (.sendEvent v q)] →
    RunsTo 3 e fun e' =>
      e'.core = { (e.core.setX rd v) with pc := e.core.pc + 1 } ∧ e'.input = some ch ∧ e'.cycles = e.cycles + 2

/-- 20_memory.md R66: the output channel is FIFO: no step loses or reorders a snapshot; a step adds one copy of
MachineState at the end at most. That a close leaves the queued snapshots to be received, and the direct handover to a
waiting renderer, are the model's choice (log entry 11). -/
def Obligations.SnapshotsArriveInSendOrder : Prop :=
  ∀ (w : Nat) (e e' : Engine w) (ch : OutChannel w), e.Inv → step ⟨w, e⟩ = .next ⟨w, e'⟩ → e.output = some ch →
    ∃ ch', e'.output = some ch' ∧ (ch'.stream = ch.stream ∨ ch'.stream = ch.stream ++ [e.core])

/-- 20_memory.md R66, 42_memory_io.md R186: the input channel is FIFO: a step leaves the queue, adds one event at its
end, or takes its oldest event; and the renderer's send of `v` on an open channel adds exactly `v` at the end. The input
channel has no bound in the model (log entry 7). -/
def Obligations.EventsArriveInSendOrder : Prop :=
  (∀ (w : Nat) (e e' : Engine w) (ch : InChannel w), step ⟨w, e⟩ = .next ⟨w, e'⟩ → e.input = some ch →
    ∃ ch', e'.input = some ch' ∧
      (ch'.queue = ch.queue ∨
        (∃ v q rest, e.agenda = .renderer (.sendEvent v q) :: rest ∧ ch'.queue = ch.queue ++ [v]) ∨
        ∃ v, ch.queue = v :: ch'.queue)) ∧
  (∀ (w : Nat) (e : Engine w) (ch : InChannel w) (v : Word w) (q : Bool) (rest : List (Turn w)),
    e.agenda = .renderer (.sendEvent v q) :: rest → e.input = some ch → ch.isOpen = true →
    step ⟨w, e⟩ = .next ⟨w, { e with agenda := rest, input := some { ch with queue := ch.queue ++ [v] } }⟩)

/-! ### Reset and invariants -/

/-- 10_state.md R40: the reset value of each piece of state, in an engine constructed with a well-formed table and
parameters in range. -/
def Obligations.ResetValues : Prop :=
  ∀ (w : Nat) (cfg : Config w), cfg.archTable.wellFormed = true → parametersInRange cfg = true →
    ∃ e : Engine w, State.construct cfg = .next ⟨w, e⟩ ∧ (∀ r, e.core.x r = 0#w) ∧ e.core.pc = 0 ∧
      e.core.flags.value = 0 ∧ e.core.faultCause.code = 0 ∧ e.core.runState = .ready ∧ e.prog = [] ∧
      e.core.mem = cfg.memInit ∧ e.cfg = cfg ∧ e.input.isSome = cfg.hasInput ∧ e.output.isSome = cfg.hasOutput ∧
      (∀ ch, e.input = some ch → ch.queue = [] ∧ ch.isOpen = true) ∧
      (∀ ch, e.output = some ch → ch.queue = [] ∧ ch.isOpen = true)

/-- `State.reset` is the engine constructed with the reference values of 00_scope.md R6. Which configuration
`State.reset` takes is the model's choice (log entry 1), and so is the capacity of its absent output channel (log
entry 7). -/
def Obligations.ResetIsTheReferenceConfiguration : Prop :=
  State.construct Config.reference = .next State.reset ∧ State.reset.xlen = 32 ∧
    State.reset.engine.cfg.memWords = 256 ∧ (∀ a, Memory.read State.reset.engine.core.mem a = 0) ∧
    State.reset.engine.cfg.archTable = ArchTable.reference ∧ State.reset.engine.input = none ∧
    State.reset.engine.output = none

/-- 10_state.md R33: with an ill-formed table there is no engine: a table with two records of one opcode, two records
of one mnemonic in any case or an opcode above 255; a definition source gives no table where a record lacks a field, and a
table it gives is well-formed. That a mnemonic which is not case-normalized (R34) makes a table ill-formed too is the
model's choice (log entry 3), so is which fields a definition source must hold (log entry 18), and the fault's name is the
model's (log entry 4). -/
def Obligations.IllFormedTableHasNoEngine : Prop :=
  (∀ (w : Nat) (cfg : Config w) (i j : Nat) (a b : InstructionSpec), cfg.archTable[i]? = some a →
    cfg.archTable[j]? = some b →
    (i ≠ j ∧ a.opcode = b.opcode) ∨ (i ≠ j ∧ a.key = b.key) ∨ 255 < a.opcode ∨ a.mnemonic.toList ≠ a.key →
    State.construct cfg = .fault .malformedTable) ∧
  (∀ (src : List SourceRecord) (r : SourceRecord), r ∈ src →
    (r.mnemonic = none ∨ r.opcode = none ∨ r.name = none ∨ r.kinds = none ∨ r.description = none ∨ r.sem = none) →
    ArchTable.ofSource src = none) ∧
  (∀ (src : List SourceRecord) (t : ArchTable), ArchTable.ofSource src = some t →
    t.wellFormed = true ∧ t.length = src.length)

/-- Every step keeps the invariant of the engine (10_state.md R29, R30, R36, 60_exceptions.md R242, 70_reset_and_hazards.md
R262 and the canonical form of the memory), from every state that has it. Its fields rest on the model's choices too: the
canonical form (log entry 2), the owed mark (6), the bounded queue (7), the close in the step that ends the run (8), an
output channel that a termination leaves open (10), the waiting renderer and the direct handover (11), the mark of a failed
boot (17). -/
def Obligations.EveryStepKeepsTheInvariant : Prop :=
  ∀ (w : Nat) (e : Engine w) (t : State), e.Inv → step ⟨w, e⟩ = .next t → t.engine.Inv

/-- The invariant holds at reset. -/
def Obligations.ResetHasTheInvariant : Prop :=
  State.reset.engine.Inv

/-- The invariant holds for every constructed engine (70_reset_and_hazards.md R260). -/
def Obligations.ConstructionGivesTheInvariant : Prop :=
  ∀ (w : Nat) (cfg : Config w) (s : State), State.construct cfg = .next s → s.engine.Inv

/-- 10_state.md R28: `pc <= max(len(Prog), 65535)` at every instruction boundary, under a table whose operations are those
of the reference table, as the rule's derivation says ("a reference-table target is at most 65535"): it holds at reset,
and every step keeps it. -/
def Obligations.PcStaysInBound : Prop :=
  ReferenceOperations State.reset.engine.cfg.archTable ∧ State.reset.engine.PcBounded ∧
  ∀ (w : Nat) (e : Engine w) (t : State), ReferenceOperations e.cfg.archTable → e.PcBounded →
    step ⟨w, e⟩ = .next t → t.engine.PcBounded

/-! ### Assembler and disassembly -/

/-- 30_encoding.md R112, last sentence: under the reference table the debug string of every instruction's word assembles
back to that word. -/
def Obligations.DisassemblyAssemblesBack : Prop :=
  ∀ i : Instr, assemble ArchTable.reference (disassemble ArchTable.reference (encode i)) = .ok [encode i]

/-- 30_encoding.md R109: the Program has one word per instruction line. -/
def Obligations.OneWordPerInstructionLine : Prop :=
  ∀ (t : ArchTable) (source : Text) (p : Program), assemble t source = .ok p →
    p.length = ((sourceLines source).filter fun l => l.instr.isSome).length

/-- 30_encoding.md R106: a source in which a label is defined twice has no Program, and the error is that of a duplicate
label. -/
def Obligations.DuplicateLabelIsRefused : Prop :=
  ∀ (t : ArchTable) (source : Text), ¬ ((sourceLines source).filterMap SourceLine.label).Nodup →
    ∃ line name, assemble t source = .error ⟨line, .duplicateLabel name⟩
end

