-- ==== Sys2Proof/Laws/State.lean ====
section
/-! SUPPORT. One lemma per field per update (no later proof unfolds a record update). -/

namespace Sys2Proof.Machine

variable {w : Nat}

/-! ### Fault entry, entry to Halted, `pc` -/

@[simp] theorem Engine.raiseFault_cfg (e : Engine w) (c : FaultCause) : (e.raiseFault c).cfg = e.cfg := rfl
@[simp] theorem Engine.raiseFault_prog (e : Engine w) (c : FaultCause) : (e.raiseFault c).prog = e.prog := rfl
@[simp] theorem Engine.raiseFault_input (e : Engine w) (c : FaultCause) : (e.raiseFault c).input = e.input := rfl
@[simp] theorem Engine.raiseFault_output (e : Engine w) (c : FaultCause) : (e.raiseFault c).output = e.output := rfl
@[simp] theorem Engine.raiseFault_cycles (e : Engine w) (c : FaultCause) : (e.raiseFault c).cycles = e.cycles := rfl
@[simp] theorem Engine.raiseFault_snapshotDue (e : Engine w) (c : FaultCause) : (e.raiseFault c).snapshotDue = e.snapshotDue := rfl
@[simp] theorem Engine.raiseFault_terminated (e : Engine w) (c : FaultCause) : (e.raiseFault c).terminated = e.terminated := rfl
@[simp] theorem Engine.raiseFault_bootFailed (e : Engine w) (c : FaultCause) : (e.raiseFault c).bootFailed = e.bootFailed := rfl
@[simp] theorem Engine.raiseFault_agenda (e : Engine w) (c : FaultCause) : (e.raiseFault c).agenda = e.agenda := rfl
@[simp] theorem Engine.raiseFault_hostInbox (e : Engine w) (c : FaultCause) : (e.raiseFault c).hostInbox = e.hostInbox := rfl
@[simp] theorem Engine.raiseFault_core_pc (e : Engine w) (c : FaultCause) : (e.raiseFault c).core.pc = e.core.pc := rfl
@[simp] theorem Engine.raiseFault_core_regs (e : Engine w) (c : FaultCause) : (e.raiseFault c).core.regs = e.core.regs := rfl
@[simp] theorem Engine.raiseFault_core_flags (e : Engine w) (c : FaultCause) : (e.raiseFault c).core.flags = e.core.flags := rfl
@[simp] theorem Engine.raiseFault_core_mem (e : Engine w) (c : FaultCause) : (e.raiseFault c).core.mem = e.core.mem := rfl
@[simp] theorem Engine.raiseFault_core_runState (e : Engine w) (c : FaultCause) : (e.raiseFault c).core.runState = .faulted := rfl
@[simp] theorem Engine.raiseFault_core_faultCause (e : Engine w) (c : FaultCause) : (e.raiseFault c).core.faultCause = c := rfl

@[simp] theorem Engine.enterHalted_cfg (e : Engine w) : (e.enterHalted).cfg = e.cfg := rfl
@[simp] theorem Engine.enterHalted_prog (e : Engine w) : (e.enterHalted).prog = e.prog := rfl
@[simp] theorem Engine.enterHalted_input (e : Engine w) : (e.enterHalted).input = e.input := rfl
@[simp] theorem Engine.enterHalted_output (e : Engine w) : (e.enterHalted).output = e.output := rfl
@[simp] theorem Engine.enterHalted_cycles (e : Engine w) : (e.enterHalted).cycles = e.cycles := rfl
@[simp] theorem Engine.enterHalted_snapshotDue (e : Engine w) : (e.enterHalted).snapshotDue = e.snapshotDue := rfl
@[simp] theorem Engine.enterHalted_terminated (e : Engine w) : (e.enterHalted).terminated = e.terminated := rfl
@[simp] theorem Engine.enterHalted_bootFailed (e : Engine w) : (e.enterHalted).bootFailed = e.bootFailed := rfl
@[simp] theorem Engine.enterHalted_agenda (e : Engine w) : (e.enterHalted).agenda = e.agenda := rfl
@[simp] theorem Engine.enterHalted_hostInbox (e : Engine w) : (e.enterHalted).hostInbox = e.hostInbox := rfl
@[simp] theorem Engine.enterHalted_core_pc (e : Engine w) : (e.enterHalted).core.pc = e.core.pc := rfl
@[simp] theorem Engine.enterHalted_core_regs (e : Engine w) : (e.enterHalted).core.regs = e.core.regs := rfl
@[simp] theorem Engine.enterHalted_core_flags (e : Engine w) : (e.enterHalted).core.flags = ⟨true⟩ := rfl
@[simp] theorem Engine.enterHalted_core_mem (e : Engine w) : (e.enterHalted).core.mem = e.core.mem := rfl
@[simp] theorem Engine.enterHalted_core_runState (e : Engine w) : (e.enterHalted).core.runState = .halted := rfl
@[simp] theorem Engine.enterHalted_core_faultCause (e : Engine w) : (e.enterHalted).core.faultCause = e.core.faultCause := rfl

@[simp] theorem Engine.setPc_cfg (e : Engine w) (t : Nat) : (e.setPc t).cfg = e.cfg := rfl
@[simp] theorem Engine.setPc_prog (e : Engine w) (t : Nat) : (e.setPc t).prog = e.prog := rfl
@[simp] theorem Engine.setPc_input (e : Engine w) (t : Nat) : (e.setPc t).input = e.input := rfl
@[simp] theorem Engine.setPc_output (e : Engine w) (t : Nat) : (e.setPc t).output = e.output := rfl
@[simp] theorem Engine.setPc_cycles (e : Engine w) (t : Nat) : (e.setPc t).cycles = e.cycles := rfl
@[simp] theorem Engine.setPc_snapshotDue (e : Engine w) (t : Nat) : (e.setPc t).snapshotDue = e.snapshotDue := rfl
@[simp] theorem Engine.setPc_terminated (e : Engine w) (t : Nat) : (e.setPc t).terminated = e.terminated := rfl
@[simp] theorem Engine.setPc_bootFailed (e : Engine w) (t : Nat) : (e.setPc t).bootFailed = e.bootFailed := rfl
@[simp] theorem Engine.setPc_agenda (e : Engine w) (t : Nat) : (e.setPc t).agenda = e.agenda := rfl
@[simp] theorem Engine.setPc_hostInbox (e : Engine w) (t : Nat) : (e.setPc t).hostInbox = e.hostInbox := rfl
@[simp] theorem Engine.setPc_core_pc (e : Engine w) (t : Nat) : (e.setPc t).core.pc = t := rfl
@[simp] theorem Engine.setPc_core_regs (e : Engine w) (t : Nat) : (e.setPc t).core.regs = e.core.regs := rfl
@[simp] theorem Engine.setPc_core_flags (e : Engine w) (t : Nat) : (e.setPc t).core.flags = e.core.flags := rfl
@[simp] theorem Engine.setPc_core_mem (e : Engine w) (t : Nat) : (e.setPc t).core.mem = e.core.mem := rfl
@[simp] theorem Engine.setPc_core_runState (e : Engine w) (t : Nat) : (e.setPc t).core.runState = e.core.runState := rfl
@[simp] theorem Engine.setPc_core_faultCause (e : Engine w) (t : Nat) : (e.setPc t).core.faultCause = e.core.faultCause := rfl

/-! ### Channels and messages -/

@[simp] theorem Engine.recvInput_cfg (e : Engine w) : (e.recvInput).cfg = e.cfg := rfl
@[simp] theorem Engine.recvInput_core (e : Engine w) : (e.recvInput).core = e.core := rfl
@[simp] theorem Engine.recvInput_prog (e : Engine w) : (e.recvInput).prog = e.prog := rfl
@[simp] theorem Engine.recvInput_input (e : Engine w) : (e.recvInput).input = e.input.map fun ch => { ch with queue := ch.queue.tail } := rfl
@[simp] theorem Engine.recvInput_output (e : Engine w) : (e.recvInput).output = e.output := rfl
@[simp] theorem Engine.recvInput_cycles (e : Engine w) : (e.recvInput).cycles = e.cycles := rfl
@[simp] theorem Engine.recvInput_snapshotDue (e : Engine w) : (e.recvInput).snapshotDue = e.snapshotDue := rfl
@[simp] theorem Engine.recvInput_terminated (e : Engine w) : (e.recvInput).terminated = e.terminated := rfl
@[simp] theorem Engine.recvInput_bootFailed (e : Engine w) : (e.recvInput).bootFailed = e.bootFailed := rfl
@[simp] theorem Engine.recvInput_agenda (e : Engine w) : (e.recvInput).agenda = e.agenda := rfl
@[simp] theorem Engine.recvInput_hostInbox (e : Engine w) : (e.recvInput).hostInbox = e.hostInbox := rfl

@[simp] theorem Engine.closeChannels_cfg (e : Engine w) : (e.closeChannels).cfg = e.cfg := rfl
@[simp] theorem Engine.closeChannels_core (e : Engine w) : (e.closeChannels).core = e.core := rfl
@[simp] theorem Engine.closeChannels_prog (e : Engine w) : (e.closeChannels).prog = e.prog := rfl
@[simp] theorem Engine.closeChannels_input (e : Engine w) : (e.closeChannels).input = e.input.map InChannel.close := rfl
@[simp] theorem Engine.closeChannels_output (e : Engine w) : (e.closeChannels).output = e.output.map OutChannel.close := rfl
@[simp] theorem Engine.closeChannels_cycles (e : Engine w) : (e.closeChannels).cycles = e.cycles := rfl
@[simp] theorem Engine.closeChannels_snapshotDue (e : Engine w) : (e.closeChannels).snapshotDue = e.snapshotDue := rfl
@[simp] theorem Engine.closeChannels_terminated (e : Engine w) : (e.closeChannels).terminated = e.terminated := rfl
@[simp] theorem Engine.closeChannels_bootFailed (e : Engine w) : (e.closeChannels).bootFailed = e.bootFailed := rfl
@[simp] theorem Engine.closeChannels_agenda (e : Engine w) : (e.closeChannels).agenda = e.agenda := rfl
@[simp] theorem Engine.closeChannels_hostInbox (e : Engine w) : (e.closeChannels).hostInbox = e.hostInbox := rfl

@[simp] theorem Engine.tellHost_cfg (e : Engine w) (m : HostMessage w) : (e.tellHost m).cfg = e.cfg := rfl
@[simp] theorem Engine.tellHost_core (e : Engine w) (m : HostMessage w) : (e.tellHost m).core = e.core := rfl
@[simp] theorem Engine.tellHost_prog (e : Engine w) (m : HostMessage w) : (e.tellHost m).prog = e.prog := rfl
@[simp] theorem Engine.tellHost_input (e : Engine w) (m : HostMessage w) : (e.tellHost m).input = e.input := rfl
@[simp] theorem Engine.tellHost_output (e : Engine w) (m : HostMessage w) : (e.tellHost m).output = e.output := rfl
@[simp] theorem Engine.tellHost_cycles (e : Engine w) (m : HostMessage w) : (e.tellHost m).cycles = e.cycles := rfl
@[simp] theorem Engine.tellHost_snapshotDue (e : Engine w) (m : HostMessage w) : (e.tellHost m).snapshotDue = e.snapshotDue := rfl
@[simp] theorem Engine.tellHost_terminated (e : Engine w) (m : HostMessage w) : (e.tellHost m).terminated = e.terminated := rfl
@[simp] theorem Engine.tellHost_bootFailed (e : Engine w) (m : HostMessage w) : (e.tellHost m).bootFailed = e.bootFailed := rfl
@[simp] theorem Engine.tellHost_agenda (e : Engine w) (m : HostMessage w) : (e.tellHost m).agenda = e.agenda := rfl
@[simp] theorem Engine.tellHost_hostInbox (e : Engine w) (m : HostMessage w) : (e.tellHost m).hostInbox = e.hostInbox ++ [m] := rfl

@[simp] theorem Engine.popTurn_cfg (e : Engine w) : e.popTurn.cfg = e.cfg := rfl
@[simp] theorem Engine.popTurn_core (e : Engine w) : e.popTurn.core = e.core := rfl
@[simp] theorem Engine.popTurn_prog (e : Engine w) : e.popTurn.prog = e.prog := rfl
@[simp] theorem Engine.popTurn_input (e : Engine w) : e.popTurn.input = e.input := rfl
@[simp] theorem Engine.popTurn_output (e : Engine w) : e.popTurn.output = e.output := rfl
@[simp] theorem Engine.popTurn_cycles (e : Engine w) : e.popTurn.cycles = e.cycles := rfl
@[simp] theorem Engine.popTurn_snapshotDue (e : Engine w) : e.popTurn.snapshotDue = e.snapshotDue := rfl
@[simp] theorem Engine.popTurn_terminated (e : Engine w) : e.popTurn.terminated = e.terminated := rfl
@[simp] theorem Engine.popTurn_bootFailed (e : Engine w) : e.popTurn.bootFailed = e.bootFailed := rfl
@[simp] theorem Engine.popTurn_agenda (e : Engine w) : e.popTurn.agenda = e.agenda.tail := rfl
@[simp] theorem Engine.popTurn_hostInbox (e : Engine w) : e.popTurn.hostInbox = e.hostInbox := rfl

@[simp] theorem Engine.failBoot_cfg (e : Engine w) (m : HostMessage w) : (e.failBoot m).cfg = e.cfg := rfl
@[simp] theorem Engine.failBoot_core (e : Engine w) (m : HostMessage w) : (e.failBoot m).core = e.core := rfl
@[simp] theorem Engine.failBoot_prog (e : Engine w) (m : HostMessage w) : (e.failBoot m).prog = e.prog := rfl
@[simp] theorem Engine.failBoot_input (e : Engine w) (m : HostMessage w) : (e.failBoot m).input = e.input := rfl
@[simp] theorem Engine.failBoot_output (e : Engine w) (m : HostMessage w) : (e.failBoot m).output = e.output := rfl
@[simp] theorem Engine.failBoot_cycles (e : Engine w) (m : HostMessage w) : (e.failBoot m).cycles = e.cycles := rfl
@[simp] theorem Engine.failBoot_snapshotDue (e : Engine w) (m : HostMessage w) : (e.failBoot m).snapshotDue = e.snapshotDue := rfl
@[simp] theorem Engine.failBoot_terminated (e : Engine w) (m : HostMessage w) : (e.failBoot m).terminated = e.terminated := rfl
@[simp] theorem Engine.failBoot_bootFailed (e : Engine w) (m : HostMessage w) : (e.failBoot m).bootFailed = true := rfl
@[simp] theorem Engine.failBoot_agenda (e : Engine w) (m : HostMessage w) : (e.failBoot m).agenda = e.agenda := rfl
@[simp] theorem Engine.failBoot_hostInbox (e : Engine w) (m : HostMessage w) : (e.failBoot m).hostInbox = e.hostInbox ++ [m] := rfl

/-! ### Writes -/

@[simp] theorem Engine.commit_cfg (e : Engine w) (ws : List (Write w)) : (e.commit ws).cfg = e.cfg := rfl
@[simp] theorem Engine.commit_prog (e : Engine w) (ws : List (Write w)) : (e.commit ws).prog = e.prog := rfl
@[simp] theorem Engine.commit_input (e : Engine w) (ws : List (Write w)) : (e.commit ws).input = e.input := rfl
@[simp] theorem Engine.commit_output (e : Engine w) (ws : List (Write w)) : (e.commit ws).output = e.output := rfl
@[simp] theorem Engine.commit_cycles (e : Engine w) (ws : List (Write w)) : (e.commit ws).cycles = e.cycles := rfl
@[simp] theorem Engine.commit_snapshotDue (e : Engine w) (ws : List (Write w)) : (e.commit ws).snapshotDue = e.snapshotDue := rfl
@[simp] theorem Engine.commit_terminated (e : Engine w) (ws : List (Write w)) : (e.commit ws).terminated = e.terminated := rfl
@[simp] theorem Engine.commit_bootFailed (e : Engine w) (ws : List (Write w)) : (e.commit ws).bootFailed = e.bootFailed := rfl
@[simp] theorem Engine.commit_agenda (e : Engine w) (ws : List (Write w)) : (e.commit ws).agenda = e.agenda := rfl
@[simp] theorem Engine.commit_hostInbox (e : Engine w) (ws : List (Write w)) : (e.commit ws).hostInbox = e.hostInbox := rfl

@[simp] theorem MachineState.apply_pc (m : MachineState w) (x : Write w) : (m.apply x).pc = m.pc := by cases x <;> rfl
@[simp] theorem MachineState.apply_flags (m : MachineState w) (x : Write w) : (m.apply x).flags = m.flags := by cases x <;> rfl
@[simp] theorem MachineState.apply_runState (m : MachineState w) (x : Write w) : (m.apply x).runState = m.runState := by cases x <;> rfl
@[simp] theorem MachineState.apply_faultCause (m : MachineState w) (x : Write w) : (m.apply x).faultCause = m.faultCause := by cases x <;> rfl

theorem Engine.commit_core (e : Engine w) (ws : List (Write w)) :
    (e.commit ws).core = ws.foldl MachineState.apply e.core := rfl

/-- What no write changes, no list of writes changes. -/
theorem MachineState.applyAll_frame {α : Type} (f : MachineState w → α) (h : ∀ m x, f (m.apply x) = f m)
    (ws : List (Write w)) (m : MachineState w) : f (ws.foldl MachineState.apply m) = f m := by
  induction ws generalizing m with
  | nil => rfl
  | cons x ws ih => rw [List.foldl_cons, ih, h]

@[simp] theorem Engine.commit_core_pc (e : Engine w) (ws : List (Write w)) : (e.commit ws).core.pc = e.core.pc :=
  MachineState.applyAll_frame _ MachineState.apply_pc ws e.core
@[simp] theorem Engine.commit_core_flags (e : Engine w) (ws : List (Write w)) : (e.commit ws).core.flags = e.core.flags :=
  MachineState.applyAll_frame _ MachineState.apply_flags ws e.core
@[simp] theorem Engine.commit_core_runState (e : Engine w) (ws : List (Write w)) : (e.commit ws).core.runState = e.core.runState :=
  MachineState.applyAll_frame _ MachineState.apply_runState ws e.core
@[simp] theorem Engine.commit_core_faultCause (e : Engine w) (ws : List (Write w)) : (e.commit ws).core.faultCause = e.core.faultCause :=
  MachineState.applyAll_frame _ MachineState.apply_faultCause ws e.core

@[simp] theorem MachineState.setX_pc (m : MachineState w) (i : RegIndex) (v : Word w) : (m.setX i v).pc = m.pc := rfl
@[simp] theorem MachineState.setX_regs (m : MachineState w) (i : RegIndex) (v : Word w) : (m.setX i v).regs = m.regs.set i.toNat v i.isLt := rfl
@[simp] theorem MachineState.setX_flags (m : MachineState w) (i : RegIndex) (v : Word w) : (m.setX i v).flags = m.flags := rfl
@[simp] theorem MachineState.setX_mem (m : MachineState w) (i : RegIndex) (v : Word w) : (m.setX i v).mem = m.mem := rfl
@[simp] theorem MachineState.setX_runState (m : MachineState w) (i : RegIndex) (v : Word w) : (m.setX i v).runState = m.runState := rfl
@[simp] theorem MachineState.setX_faultCause (m : MachineState w) (i : RegIndex) (v : Word w) : (m.setX i v).faultCause = m.faultCause := rfl

/-! ### What the simplifier reads of a state -/

@[simp] theorem State.nextWith_mk (e e' : Engine w) : State.nextWith ⟨w, e⟩ e' = .next ⟨w, e'⟩ := rfl

@[simp] theorem State.conclude_mk (e : Engine w) (r : ExecResult w) :
    State.conclude ⟨w, e⟩ r = .next ⟨w, e.conclude r⟩ := rfl

@[simp] theorem atBoundary_next (e : Engine w) : atBoundary (.next ⟨w, e⟩) = .next ⟨w, e.boundary⟩ := rfl

@[simp] theorem Engine.commit_nil (e : Engine w) : e.commit [] = e := rfl

@[simp] theorem Engine.commit_register_core (e : Engine w) (i : RegIndex) (v : Word w) :
    (e.commit [.register i v]).core = e.core.setX i v := rfl

@[simp] theorem Engine.commit_cell_core (e : Engine w) (a : Nat) (v : Word w) :
    (e.commit [.cell a v]).core = { e.core with mem := Memory.write e.core.mem a v } := rfl

@[simp] theorem Engine.advance_next (e : Engine w) : e.advance .next = e.setPc (e.core.pc + 1) := rfl

@[simp] theorem Engine.advance_jump (e : Engine w) (t : Nat) : e.advance (.jump t) = e.setPc t := rfl

@[simp] theorem Engine.advance_halt (e : Engine w) : e.advance .halt = e.enterHalted := rfl

@[simp] theorem Engine.conclude_ok (e : Engine w) (ws : List (Write w)) (nx : NextPc) :
    e.conclude (.ok ws nx) = (e.commit ws).advance nx := rfl

@[simp] theorem Engine.conclude_fault (e : Engine w) (c : FaultCause) : e.conclude (.fault c) = e.raiseFault c := rfl

@[simp] theorem Engine.concludeTaking_ok (e : Engine w) (ws : List (Write w)) (nx : NextPc) :
    e.concludeTaking (.ok ws nx) = (e.recvInput.commit ws).advance nx := rfl

@[simp] theorem Engine.concludeTaking_fault (e : Engine w) (c : FaultCause) :
    e.concludeTaking (.fault c) = e.raiseFault c := rfl

@[simp] theorem Engine.conclude_wait (e : Engine w) : e.conclude .wait = e := rfl

end Sys2Proof.Machine
end

