-- ==== Sys2Proof/Laws/Channels.lean ====
section
/-! SUPPORT. The Bridge: what each operation on the channels can do (60_exceptions.md R240 to R242). -/

namespace Sys2Proof.Machine

variable {w : Nat}

/-- What a peripheral read finds (42_memory_io.md R183). -/
theorem Engine.inputStatus_event (e : Engine w) (v : Word w) :
    e.inputStatus = .event v ↔ ∃ ch rest, e.input = some ch ∧ ch.queue = v :: rest := by
  unfold Engine.inputStatus
  split
  · simp [*]
  · next ch h =>
    split
    · next u rest hq => simp [h, hq]
    · next hq => split <;> simp [h, hq]

theorem Engine.inputStatus_pending (e : Engine w) :
    e.inputStatus = .pending ↔ ∃ ch, e.input = some ch ∧ ch.queue = [] ∧ ch.isOpen = true := by
  unfold Engine.inputStatus
  split
  · simp [*]
  · next ch h =>
    split
    · next u rest hq => simp [h, hq]
    · next hq => split <;> simp [*]

theorem Engine.inputStatus_unavailable (e : Engine w) :
    e.inputStatus = .unavailable ↔ e.input = none ∨ ∃ ch, e.input = some ch ∧ ch.queue = [] ∧ ch.isOpen = false := by
  unfold Engine.inputStatus
  split
  · simp [*]
  · next ch h =>
    split
    · next u rest hq => simp [h, hq]
    · next hq => split <;> simp [*]

/-- A send that is taken goes to the renderer that waits, or to the end of the queue (60_exceptions.md R241). -/
theorem OutChannel.send?_some (ch ch' : OutChannel w) (cap : Option Nat) (m : MachineState w)
    (h : ch.send? cap m = some ch') :
    (ch.waiting = true ∧ ch' = { ch with waiting := false, delivered := ch.delivered ++ [.snapshot m] }) ∨
      (ch.waiting = false ∧ ch.hasRoom cap = true ∧ ch' = { ch with queue := ch.queue ++ [m] }) := by
  unfold OutChannel.send? at h
  split at h
  · next hw => exact .inl ⟨hw, (Option.some.inj h).symm⟩
  · next hw =>
    split at h
    · next hr => exact .inr ⟨by simpa using hw, hr, (Option.some.inj h).symm⟩
    · cases h

/-- A send blocks exactly where no renderer waits and the channel has no room (60_exceptions.md R241). -/
theorem OutChannel.send?_none (ch : OutChannel w) (cap : Option Nat) (m : MachineState w) :
    ch.send? cap m = none ↔ ch.waiting = false ∧ ch.hasRoom cap = false := by
  unfold OutChannel.send?
  split
  · simp [*]
  · split <;> simp [*]

/-- What a receive does (60_exceptions.md R240, R245). -/
theorem OutChannel.receive_cases (ch : OutChannel w) :
    (ch.waiting = true ∧ ch.receive = ch) ∨
      (ch.waiting = false ∧ ∃ m rest, ch.queue = m :: rest ∧
        ch.receive = { ch with queue := rest, delivered := ch.delivered ++ [.snapshot m] }) ∨
      (ch.waiting = false ∧ ch.queue = [] ∧ ch.isOpen = true ∧ ch.receive = { ch with waiting := true }) ∨
      (ch.waiting = false ∧ ch.queue = [] ∧ ch.isOpen = false ∧
        ch.receive = { ch with delivered := ch.delivered ++ [.endOfStream] }) := by
  unfold OutChannel.receive
  split
  · next hw => exact .inl ⟨hw, rfl⟩
  · next hw =>
    have hw' : ch.waiting = false := by simpa using hw
    split
    · next m rest hq => exact .inr (.inl ⟨hw', m, rest, hq, rfl⟩)
    · next hq =>
      split
      · next ho => exact .inr (.inr (.inl ⟨hw', hq, ho, rfl⟩))
      · next ho => exact .inr (.inr (.inr ⟨hw', hq, by simpa using ho, rfl⟩))

@[simp] theorem OutChannel.close_queue (ch : OutChannel w) : ch.close.queue = ch.queue := by
  unfold OutChannel.close; split <;> rfl

@[simp] theorem OutChannel.close_isOpen (ch : OutChannel w) : ch.close.isOpen = false := by
  unfold OutChannel.close; split <;> rfl

@[simp] theorem OutChannel.close_waiting (ch : OutChannel w) : ch.close.waiting = false := by
  unfold OutChannel.close; split <;> simp_all

theorem OutChannel.close_delivered (ch : OutChannel w) :
    ch.close.delivered = if ch.waiting then ch.delivered ++ [.endOfStream] else ch.delivered := by
  unfold OutChannel.close; split <;> rfl

@[simp] theorem InChannel.close_queue (ch : InChannel w) : ch.close.queue = ch.queue := rfl

@[simp] theorem InChannel.close_isOpen (ch : InChannel w) : ch.close.isOpen = false := rfl

@[simp] theorem InChannel.send_isOpen (ch : InChannel w) (v : Word w) (q : Bool) : (ch.send v q).isOpen = ch.isOpen := by
  unfold InChannel.send; split <;> rfl

/-- What the engine's try of an owed send does (60_exceptions.md R241). -/
theorem Engine.trySend_cases (e : Engine w) :
    (e.output = none ∧ e.trySend = { e with snapshotDue := false }) ∨
      (∃ ch ch', e.output = some ch ∧ ch.send? e.cfg.outputCapacity e.core = some ch' ∧
        e.trySend = { e with output := some ch', snapshotDue := false }) ∨
      (∃ ch, e.output = some ch ∧ ch.send? e.cfg.outputCapacity e.core = none ∧ e.trySend = e) := by
  unfold Engine.trySend
  split
  · next h => exact .inl ⟨h, rfl⟩
  · next ch h =>
    split
    · next ch' hs => exact .inr (.inl ⟨ch, ch', h, hs, rfl⟩)
    · next hs => exact .inr (.inr ⟨ch, h, hs, rfl⟩)

/-- The renderer touches the channels alone (10_state.md R24). -/
theorem Engine.rendererAct_frame (e : Engine w) (a : RendererAct w) :
    ∃ i o, e.rendererAct a = { e with input := i, output := o } ∧ i.isSome = e.input.isSome ∧
      o.isSome = e.output.isSome := by
  cases a with
  | sendEvent v q => exact ⟨_, e.output, rfl, by simp, rfl⟩
  | closeInput => exact ⟨_, e.output, rfl, by simp, rfl⟩
  | receiveSnapshot => exact ⟨e.input, _, rfl, rfl, by simp⟩

end Sys2Proof.Machine
end

