-- ==== Sys2Proof/Laws/Memory.lean ====
section
/-! SUPPORT. Data memory: a read after a write, and the canonical form that every operation keeps (log entry 2). -/

namespace Sys2Proof.Machine

variable {w : Nat}

@[simp] theorem Memory.read_nil (a : Nat) : Memory.read ([] : Memory w) a = 0#w := rfl

theorem Memory.read_cons (b : Nat) (v : Word w) (rest : Memory w) (a : Nat) :
    Memory.read ((b, v) :: rest) a = if a = b then v else if a < b then 0#w else Memory.read rest a := rfl

@[simp] theorem Memory.wfFrom_nil (lo : Nat) : Memory.wfFrom lo ([] : Memory w) = true := rfl

theorem Memory.wfFrom_cons (lo b : Nat) (v : Word w) (rest : Memory w) :
    Memory.wfFrom lo ((b, v) :: rest) = true ↔ lo ≤ b ∧ v ≠ 0#w ∧ Memory.wfFrom (b + 1) rest = true := by
  simp [Memory.wfFrom, and_assoc]

theorem Memory.wfFrom_mono {lo lo' : Nat} (h : lo' ≤ lo) (m : Memory w) (hm : Memory.wfFrom lo m = true) :
    Memory.wfFrom lo' m = true := by
  cases m with
  | nil => rfl
  | cons c rest =>
    obtain ⟨b, v⟩ := c
    rw [Memory.wfFrom_cons] at hm ⊢
    exact ⟨by omega, hm.2⟩

/-- Below its first address a canonical memory reads 0. -/
theorem Memory.read_below {lo : Nat} (m : Memory w) (hm : Memory.wfFrom lo m = true) {a : Nat} (h : a < lo) :
    Memory.read m a = 0#w := by
  cases m with
  | nil => rfl
  | cons c rest =>
    obtain ⟨b, v⟩ := c
    rw [Memory.wfFrom_cons] at hm
    have h1 : a ≠ b := by omega
    have h2 : a < b := by omega
    simp [Memory.read_cons, h1, h2]

/-- What a read finds after a write to a canonical memory. -/
theorem Memory.read_write_from {lo : Nat} (m : Memory w) (hm : Memory.wfFrom lo m = true) (a : Nat) (v : Word w)
    (b : Nat) : Memory.read (Memory.write m a v) b = if b = a then v else Memory.read m b := by
  induction m generalizing lo with
  | nil =>
    by_cases hv : v = 0#w
    · simp [Memory.write, hv]
    · simp [Memory.write, hv, Memory.read_cons]
  | cons c rest ih =>
    obtain ⟨d, u⟩ := c
    rw [Memory.wfFrom_cons] at hm
    obtain ⟨-, -, hrest⟩ := hm
    simp only [Memory.write]
    split
    · next had =>
      subst had
      split
      · next hv =>
        subst hv
        by_cases hb : b = a
        · subst hb; simpa using Memory.read_below rest hrest (Nat.lt_succ_self b)
        · simp only [hb, if_false, Memory.read_cons]
          split
          · next hlt => exact Memory.read_below rest hrest (by omega)
          · rfl
      · by_cases hb : b = a <;> simp [Memory.read_cons, hb]
    · next had =>
      split
      · next hlt =>
        split
        · next hv =>
          subst hv
          by_cases hb : b = a
          · subst hb; simp [Memory.read_cons, had, hlt]
          · simp [hb]
        · by_cases hb : b = a
          · simp [Memory.read_cons, hb]
          · simp only [Memory.read_cons, hb, if_false]
            split
            · next hba => simp [show b ≠ d by omega, show b < d by omega]
            · rfl
      · next hlt =>
        simp only [Memory.read_cons, ih hrest]
        by_cases hb : b = a
        · subst hb; simp [had, hlt]
        · simp [hb]

theorem Memory.write_wfFrom {lo : Nat} (m : Memory w) (hm : Memory.wfFrom lo m = true) {a : Nat} (h : lo ≤ a)
    (v : Word w) : Memory.wfFrom lo (Memory.write m a v) = true := by
  induction m generalizing lo with
  | nil =>
    by_cases hv : v = 0#w
    · simp [Memory.write, hv]
    · simp [Memory.write, hv, Memory.wfFrom_cons, h]
  | cons c rest ih =>
    obtain ⟨d, u⟩ := c
    rw [Memory.wfFrom_cons] at hm
    obtain ⟨hd, hu, hrest⟩ := hm
    simp only [Memory.write]
    split
    · next had =>
      subst had
      split
      · exact Memory.wfFrom_mono (by omega) rest hrest
      · next hv => exact (Memory.wfFrom_cons ..).2 ⟨h, hv, hrest⟩
    · split
      · split
        · exact (Memory.wfFrom_cons ..).2 ⟨hd, hu, hrest⟩
        · next hv => exact (Memory.wfFrom_cons ..).2 ⟨h, hv, (Memory.wfFrom_cons ..).2 ⟨by omega, hu, hrest⟩⟩
      · exact (Memory.wfFrom_cons ..).2 ⟨hd, hu, ih hrest (by omega)⟩

/-- Every write keeps the canonical form. -/
theorem Memory.write_wf (m : Memory w) (hm : Memory.wf m = true) (a : Nat) (v : Word w) :
    Memory.wf (Memory.write m a v) = true :=
  Memory.write_wfFrom m hm (Nat.zero_le a) v

/-- A read after a write to a canonical memory: the value written, and every other cell as before. -/
theorem Memory.read_write (m : Memory w) (hm : Memory.wf m = true) (a : Nat) (v : Word w) (b : Nat) :
    Memory.read (Memory.write m a v) b = if b = a then v else Memory.read m b :=
  Memory.read_write_from m hm a v b

/-- A write to a cell that exists lists only cells that exist. -/
theorem Memory.write_within (n : Nat) (m : Memory w) (hm : Memory.within n m = true) {a : Nat} (h : a < n) (v : Word w) :
    Memory.within n (Memory.write m a v) = true := by
  induction m with
  | nil => by_cases hv : v = 0#w <;> simp [Memory.write, Memory.within, hv, h]
  | cons c rest ih =>
    obtain ⟨d, u⟩ := c
    simp only [Memory.within, List.all_cons, Bool.and_eq_true, decide_eq_true_eq] at hm ih ⊢
    simp only [Memory.write]
    split
    · split <;> simp [hm, h]
    · split
      · split <;> simp [hm, h]
      · simp [hm.1, ih hm.2]

/-- A cell that no canonical memory within `n` cells can hold reads 0. -/
theorem Memory.read_outside (n : Nat) (m : Memory w) (hm : Memory.within n m = true) {a : Nat} (h : n ≤ a) :
    Memory.read m a = 0#w := by
  induction m with
  | nil => rfl
  | cons c rest ih =>
    obtain ⟨d, u⟩ := c
    simp only [Memory.within, List.all_cons, Bool.and_eq_true, decide_eq_true_eq] at hm ih
    simp [Memory.read_cons, show a ≠ d by omega, ih hm.2]

/-- Canonical memories that read alike are the same list. -/
theorem Memory.ext_from {lo : Nat} (m m' : Memory w) (hm : Memory.wfFrom lo m = true) (hm' : Memory.wfFrom lo m' = true)
    (h : ∀ a, Memory.read m a = Memory.read m' a) : m = m' := by
  induction m generalizing lo m' with
  | nil =>
    cases m' with
    | nil => rfl
    | cons c rest =>
      obtain ⟨d, u⟩ := c
      have := h d
      simp [Memory.read_cons] at this
      exact absurd this.symm ((Memory.wfFrom_cons ..).1 hm').2.1
  | cons c rest ih =>
    obtain ⟨b, v⟩ := c
    obtain ⟨hb, hv, hrest⟩ := (Memory.wfFrom_cons ..).1 hm
    cases m' with
    | nil =>
      have := h b
      simp [Memory.read_cons] at this
      exact absurd this hv
    | cons c' rest' =>
      obtain ⟨d, u⟩ := c'
      obtain ⟨hd, hu, hrest'⟩ := (Memory.wfFrom_cons ..).1 hm'
      have hbd : b = d := by
        rcases Nat.lt_trichotomy b d with hlt | heq | hgt
        · have := h b
          simp [Memory.read_cons, show b ≠ d by omega, hlt] at this
          exact absurd this hv
        · exact heq
        · have := h d
          simp [Memory.read_cons, show d ≠ b by omega, hgt] at this
          exact absurd this.symm hu
      subst hbd
      have hvu : v = u := by simpa [Memory.read_cons] using h b
      subst hvu
      congr 1
      refine ih rest' hrest hrest' fun a => ?_
      by_cases hab : b < a
      · simpa [Memory.read_cons, show a ≠ b by omega, show ¬ a < b by omega] using h a
      · rw [Memory.read_below rest hrest (by omega), Memory.read_below rest' hrest' (by omega)]

/-- Equal memories are equal data: two canonical memories that read alike at every address are equal. -/
theorem Memory.ext (m m' : Memory w) (hm : Memory.wf m = true) (hm' : Memory.wf m' = true)
    (h : ∀ a, Memory.read m a = Memory.read m' a) : m = m' :=
  Memory.ext_from m m' hm hm' h

/-- Right after reset the memory is in canonical form. -/
theorem reset_memory_wf : Memory.wf State.reset.engine.core.mem = true := rfl

/-- `MemRead(a, 1)` answers a value exactly for a cell that exists (20_memory.md R52). -/
theorem Engine.memRead_ok (e : Engine w) (a : Nat) (v : Word w) :
    e.memRead a = .ok v ↔ a < e.cfg.memWords ∧ Memory.read e.core.mem a = v := by
  unfold Engine.memRead
  split <;> simp <;> omega

/-- `MemRead(a, 1)` faults exactly for a cell that does not exist, with cause MemOutOfRange (20_memory.md R52). -/
theorem Engine.memRead_error (e : Engine w) (a : Nat) (c : FaultCause) :
    e.memRead a = .error c ↔ e.cfg.memWords ≤ a ∧ c = .memOutOfRange := by
  unfold Engine.memRead
  split <;> simp [eq_comm] <;> omega

/-- `MemWrite(a, 1, v)` is accepted exactly for a cell that exists (20_memory.md R52). -/
theorem Engine.memWritable_ok (e : Engine w) (a : Nat) (u : Unit) :
    e.memWritable a = .ok u ↔ a < e.cfg.memWords := by
  unfold Engine.memWritable
  split <;> simp <;> omega

/-- `MemWrite(a, 1, v)` faults exactly for a cell that does not exist, with cause MemOutOfRange (20_memory.md R52). -/
theorem Engine.memWritable_error (e : Engine w) (a : Nat) (c : FaultCause) :
    e.memWritable a = .error c ↔ e.cfg.memWords ≤ a ∧ c = .memOutOfRange := by
  unfold Engine.memWritable
  split <;> simp [eq_comm] <;> omega

/-- Every write of a list goes to a cell that exists, where it goes to a cell. -/
def CellsExist (n : Nat) (ws : List (Write w)) : Prop :=
  ∀ a v, Write.cell a v ∈ ws → a < n

theorem CellsExist.of_cons {n : Nat} {x : Write w} {ws : List (Write w)} (h : CellsExist n (x :: ws)) : CellsExist n ws :=
  fun a v hm => h a v (List.mem_cons_of_mem x hm)

/-- A commit of writes to cells that exist keeps the canonical form and lists only cells that exist. -/
theorem MachineState.applyAll_mem (n : Nat) (ws : List (Write w)) (hws : CellsExist n ws) (m : MachineState w)
    (hw : Memory.wf m.mem = true) (hn : Memory.within n m.mem = true) :
    Memory.wf (ws.foldl MachineState.apply m).mem = true ∧ Memory.within n (ws.foldl MachineState.apply m).mem = true := by
  induction ws generalizing m with
  | nil => exact ⟨hw, hn⟩
  | cons x ws ih =>
    rw [List.foldl_cons]
    cases x with
    | register i v => exact ih hws.of_cons _ hw hn
    | cell a v =>
      exact ih hws.of_cons _ (Memory.write_wf _ hw a v) (Memory.write_within n _ hn (hws a v (.head _)) v)

end Sys2Proof.Machine
end

