-- ==== Sys2Proof/Laws/Registers.lean ====
section
/-! SUPPORT. Registers: a read after a write (10_state.md R21). -/

namespace Sys2Proof.Machine

variable {w : Nat}

theorem MachineState.x_setX (m : MachineState w) (i j : RegIndex) (v : Word w) :
    (m.setX i v).x j = if j = i then v else m.x j := by
  have h : (i.toNat = j.toNat) = (j = i) := by
    rw [BitVec.toNat_inj, eq_comm (a := i)]
  simp only [MachineState.x, MachineState.setX, Vector.getElem_set, h]

@[simp] theorem MachineState.x_setX_same (m : MachineState w) (i : RegIndex) (v : Word w) : (m.setX i v).x i = v := by
  simp [MachineState.x_setX]

theorem MachineState.x_setX_other (m : MachineState w) {i j : RegIndex} (v : Word w) (h : j ≠ i) :
    (m.setX i v).x j = m.x j := by
  simp [MachineState.x_setX, h]

/-- A register read depends on the register file alone. -/
theorem MachineState.x_congr {m m' : MachineState w} (h : m'.regs = m.regs) (i : RegIndex) : m'.x i = m.x i := by
  simp only [MachineState.x, h]

/-- A 4-bit field never computes an index out of range (40_execution_loop.md R146). -/
theorem computedRegister_field (i : RegIndex) : computedRegister i.toNat = .ok i := by
  have h : i.toNat ≤ 15 := by have := i.isLt; omega
  simp [computedRegister, h]

/-- The outcome of an instruction that writes one register and advances: the value it wrote. -/
@[simp] theorem Engine.conclude_registerResult_x (e : Engine w) (rd : RegIndex) (v : Word w) :
    (e.conclude (registerResult rd v)).core.x rd = v :=
  MachineState.x_setX_same _ _ _

@[simp] theorem Engine.conclude_registerResult_pc (e : Engine w) (rd : RegIndex) (v : Word w) :
    (e.conclude (registerResult rd v)).core.pc = e.core.pc + 1 := rfl

/-- The outcome of an instruction that writes one register and advances: nothing else changes. -/
theorem Engine.conclude_registerResult_frame (e : Engine w) (rd : RegIndex) (v : Word w) :
    Engine.OnlyRegister rd e (e.conclude (registerResult rd v)) :=
  ⟨fun _ h => MachineState.x_setX_other _ _ h, fun _ => rfl, ⟨rfl, rfl, rfl⟩, rfl,
    ⟨rfl, rfl, rfl, rfl, rfl, rfl, rfl, rfl, rfl⟩⟩

/-- Writing `pc` changes nothing else. -/
theorem Engine.setPc_frame (e : Engine w) (t : Nat) : Engine.OnlyPc e (e.setPc t) :=
  ⟨fun _ => rfl, fun _ => rfl, ⟨rfl, rfl, rfl⟩, rfl, ⟨rfl, rfl, rfl, rfl, rfl, rfl, rfl, rfl, rfl⟩⟩

/-- Fault entry changes nothing but `fault_cause` and `run_state` (60_exceptions.md R222). -/
theorem Engine.raiseFault_frame (e : Engine w) (c : FaultCause) : Engine.TookFault c e (e.raiseFault c) :=
  ⟨rfl, rfl, rfl, rfl, fun _ => rfl, fun _ => rfl, rfl, ⟨rfl, rfl, rfl, rfl, rfl, rfl, rfl, rfl, rfl⟩⟩

end Sys2Proof.Machine
end

