-- ==== Sys2Proof/Laws/Operation.lean ====
section
/-! SUPPORT. What a described operation can do (Machine/Operation.lean), each function said once. -/

namespace Sys2Proof.Machine

variable {w : Nat}

/-- The causes an operation may raise (40_execution_loop.md R146, 60_exceptions.md R220). -/
def FaultCause.OfOperation (c : FaultCause) : Prop :=
  c = .memOutOfRange ∨ c = .regOutOfRange ∨ c = .inputUnavailable

theorem raisedCause_ofOperation (r : OperationFault) : (raisedCause r).OfOperation := by
  cases r
  · exact .inl rfl
  · exact .inr (.inl rfl)
  · exact .inr (.inr rfl)

/-- A computed index faults exactly where it is above 15, with cause RegOutOfRange (40_execution_loop.md R146). -/
theorem computedRegister_error (n : Nat) (c : FaultCause) :
    computedRegister n = .error c ↔ 15 < n ∧ c = .regOutOfRange := by
  unfold computedRegister
  split <;> simp [eq_comm] <;> omega

theorem MachineState.xComputed_error (m : MachineState w) (n : Nat) (c : FaultCause) :
    m.xComputed n = .error c ↔ 15 < n ∧ c = .regOutOfRange := by
  rw [← computedRegister_error]
  unfold MachineState.xComputed
  cases computedRegister n <;> simp [Except.map]

/-- Mapping the value of a computation keeps its error. -/
theorem Except.map_error_iff {ε α β : Type} (f : α → β) (x : Except ε α) (c : ε) :
    x.map f = .error c ↔ x = .error c := by
  cases x <;> simp [Except.map]

/-- Every fault of an expression is one an operation may raise. -/
theorem Engine.value_error (e : Engine w) (f : Fields) (event : Nat) (x : Expr) (c : FaultCause)
    (h : e.value f event x = .error c) : c.OfOperation := by
  induction x with
  | const n => cases h
  | field k => cases h
  | xlen => cases h
  | memWords => cases h
  | pc => cases h
  | event => cases h
  | register index ih =>
    simp only [Engine.value] at h
    split at h
    · rw [Except.map_error_iff, MachineState.xComputed_error] at h
      exact .inr (.inl h.2)
    · next hc => cases h; exact ih hc
  | cell address ih =>
    simp only [Engine.value] at h
    split at h
    · rw [Except.map_error_iff, Engine.memRead_error] at h
      exact .inl h.2
    · next hc => cases h; exact ih hc
  | binary g a b iha ihb =>
    simp only [Engine.value] at h
    split at h
    · cases h
    · next hc => cases h; exact iha hc
    · next hc => cases h; exact ihb hc
  | choose k a b ihk iha ihb =>
    simp only [Engine.value] at h
    split at h
    · split at h
      · exact iha h
      · exact ihb h
    · next hc => cases h; exact ihk hc

theorem Engine.checkRaises_error (e : Engine w) (f : Fields) (event : Nat) (rs : List (Expr × OperationFault))
    (c : FaultCause) (h : e.checkRaises f event rs = .error c) : c.OfOperation := by
  induction rs with
  | nil => cases h
  | cons r rs ih =>
    obtain ⟨x, r⟩ := r
    simp only [Engine.checkRaises] at h
    split at h
    · split at h
      · cases h; exact raisedCause_ofOperation r
      · exact ih h
    · next hc => cases h; exact e.value_error f event x _ hc

/-- A write goes to a cell that exists, where it goes to a cell. -/
theorem Engine.writeTo_ok (e : Engine w) (f : Fields) (event : Nat) (d : Destination) (v : Word w) (x : Write w)
    (h : e.writeTo f event d v = .ok x) : CellsExist e.cfg.memWords [x] := by
  cases d with
  | register index =>
    simp only [Engine.writeTo] at h
    split at h
    · next n _ =>
      cases hn : computedRegister n with
      | error c => rw [hn] at h; cases h
      | ok i => rw [hn] at h; cases h; intro a u hm; cases hm with | tail _ hm => cases hm
    · cases h
  | cell address =>
    simp only [Engine.writeTo] at h
    split at h
    · next a _ =>
      cases hm : e.memWritable a with
      | error c => rw [hm] at h; cases h
      | ok u =>
        rw [hm] at h
        cases h
        intro b u' hb
        cases hb with
        | head => exact (e.memWritable_ok a u).1 hm
        | tail _ hb => cases hb
    · cases h

theorem Engine.writeTo_error (e : Engine w) (f : Fields) (event : Nat) (d : Destination) (v : Word w) (c : FaultCause)
    (h : e.writeTo f event d v = .error c) : c.OfOperation := by
  cases d with
  | register index =>
    simp only [Engine.writeTo] at h
    split at h
    · rw [Except.map_error_iff, computedRegister_error] at h
      exact .inr (.inl h.2)
    · next hc => cases h; exact e.value_error f event _ _ hc
  | cell address =>
    simp only [Engine.writeTo] at h
    split at h
    · rw [Except.map_error_iff, Engine.memWritable_error] at h
      exact .inl h.2
    · next hc => cases h; exact e.value_error f event _ _ hc

theorem Engine.writesOf_ok (e : Engine w) (f : Fields) (event : Nat) (os : List OperationWrite) (ws : List (Write w))
    (h : e.writesOf f event os = .ok ws) : CellsExist e.cfg.memWords ws := by
  induction os generalizing ws with
  | nil => cases h; intro a v hm; cases hm
  | cons o os ih =>
    simp only [Engine.writesOf] at h
    split at h
    · split at h
      · next x hx =>
        cases ht : e.writesOf f event os with
        | error c => rw [ht] at h; cases h
        | ok ws' =>
          rw [ht] at h
          cases h
          intro a v hm
          rcases List.mem_cons.1 hm with hm | hm
          · exact e.writeTo_ok f event _ _ x hx a v (by rw [hm]; exact .head _)
          · exact ih ws' ht a v hm
      · cases h
    · cases h

theorem Engine.writesOf_error (e : Engine w) (f : Fields) (event : Nat) (os : List OperationWrite) (c : FaultCause)
    (h : e.writesOf f event os = .error c) : c.OfOperation := by
  induction os with
  | nil => cases h
  | cons o os ih =>
    simp only [Engine.writesOf] at h
    split at h
    · split at h
      · exact ih ((Except.map_error_iff _ _ c).1 h)
      · next hc => cases h; exact e.writeTo_error f event _ _ _ hc
    · next hc => cases h; exact e.value_error f event _ _ hc

theorem Engine.transferOf_error (e : Engine w) (f : Fields) (event : Nat) (t : Transfer) (c : FaultCause)
    (h : e.transferOf f event t = .error c) : c.OfOperation := by
  induction t with
  | next => cases h
  | jump target => exact e.value_error f event target c ((Except.map_error_iff _ _ c).1 h)
  | halt => cases h
  | choose k a b iha ihb =>
    simp only [Engine.transferOf] at h
    split at h
    · split at h
      · exact iha h
      · exact ihb h
    · next hc => cases h; exact e.value_error f event k _ hc

/-- What a described operation answers once its event is there: writes to what exists, or a fault it may raise. It never
waits. -/
theorem Engine.operate_cases (e : Engine w) (p : Operation) (f : Fields) (event : Nat) :
    (∃ ws nx, e.operate p f event = .ok ws nx ∧ CellsExist e.cfg.memWords ws) ∨
      ∃ c, e.operate p f event = .fault c ∧ c.OfOperation := by
  unfold Engine.operate
  split
  · next c hc => exact .inr ⟨c, rfl, e.checkRaises_error f event _ c hc⟩
  · split
    · next c hc => exact .inr ⟨c, rfl, e.writesOf_error f event _ c hc⟩
    · next ws hws =>
      split
      · next c hc => exact .inr ⟨c, rfl, e.transferOf_error f event _ c hc⟩
      · next nx _ => exact .inl ⟨ws, nx, rfl, e.writesOf_ok f event _ ws hws⟩

/-- Everything a described operation can do (40_execution_loop.md R137). It always answers a next state. -/
inductive Operates (e : Engine w) : Engine w → Prop where
  /-- its writes and its next-pc action -/
  | completes (ws : List (Write w)) (nx : NextPc) (h : CellsExist e.cfg.memWords ws) :
      Operates e ((e.commit ws).advance nx)
  /-- the same, with an event taken -/
  | takes (v : Word w) (ws : List (Write w)) (nx : NextPc) (hv : e.inputStatus = .event v)
      (h : CellsExist e.cfg.memWords ws) : Operates e ((e.recvInput.commit ws).advance nx)
  /-- a fault it may raise -/
  | fault (c : FaultCause) (h : c.OfOperation) : Operates e (e.raiseFault c)
  /-- a peripheral read waits -/
  | wait : Operates e e

theorem execOperation_operates (p : Operation) (f : Fields) (e : Engine w) :
    ∃ e', execOperation p f ⟨w, e⟩ = .next ⟨w, e'⟩ ∧ Operates e e' := by
  unfold execOperation
  split
  · split
    · exact ⟨_, rfl, .fault _ (.inr (.inr rfl))⟩
    · exact ⟨_, rfl, .wait⟩
    · next v hv =>
      refine ⟨_, rfl, ?_⟩
      rcases e.operate_cases p f v.toNat with ⟨ws, nx, h, hws⟩ | ⟨c, h, hc⟩
      · rw [h]; exact .takes v ws nx hv hws
      · rw [h]; exact .fault c hc
  · refine ⟨_, rfl, ?_⟩
    rcases e.operate_cases p f 0 with ⟨ws, nx, h, hws⟩ | ⟨c, h, hc⟩
    · rw [h]; exact .completes ws nx hws
    · rw [h]; exact .fault c hc

end Sys2Proof.Machine
end

