-- ==== Sys2Proof/Laws/Exec.lean ====
section
/-! SUPPORT. What an instruction, a cycle, a call of the host and a step can do, each said once. -/

namespace Sys2Proof.Machine

variable {w : Nat}

/-- Everything an instruction can do (40_execution_loop.md R137 to R139). It always answers a next state. -/
inductive Executes (e : Engine w) : Engine w → Prop where
  /-- one register written, `pc + 1` -/
  | register (rd : RegIndex) (v : Word w) : Executes e ((e.commit [.register rd v]).setPc (e.core.pc + 1))
  /-- one cell that exists written, `pc + 1` -/
  | cell (a : Nat) (v : Word w) (h : a < e.cfg.memWords) : Executes e ((e.commit [.cell a v]).setPc (e.core.pc + 1))
  /-- nothing written, `pc + 1` -/
  | next : Executes e (e.setPc (e.core.pc + 1))
  /-- a control transfer -/
  | jump (t : Nat) (h : t ≤ 65535) : Executes e (e.setPc t)
  /-- HALT -/
  | halt : Executes e e.enterHalted
  /-- a fault of the operation itself -/
  | fault (c : FaultCause) (h : c = .memOutOfRange ∨ c = .inputUnavailable) : Executes e (e.raiseFault c)
  /-- IN waits -/
  | wait : Executes e e
  /-- IN takes an event -/
  | receive (rd : RegIndex) (v : Word w) (h : e.inputStatus = .event v) :
      Executes e ((e.recvInput.commit [.register rd v]).setPc (e.core.pc + 1))

theorem branchTarget_le (imm : Imm) : branchTarget imm ≤ 65535 := by
  have := imm.isLt
  simp only [branchTarget]
  omega

theorem exec_executes (i : Instr) (e : Engine w) : ∃ e', exec i ⟨w, e⟩ = .next ⟨w, e'⟩ ∧ Executes e e' := by
  cases i with
  | halt => exact ⟨_, rfl, .halt⟩
  | nop => exact ⟨_, rfl, .next⟩
  | ldi rd imm => exact ⟨_, rfl, .register _ _⟩
  | mov rd rs => exact ⟨_, rfl, .register _ _⟩
  | add rd rs => exact ⟨_, rfl, .register _ _⟩
  | sub rd rs => exact ⟨_, rfl, .register _ _⟩
  | and rd rs => exact ⟨_, rfl, .register _ _⟩
  | or rd rs => exact ⟨_, rfl, .register _ _⟩
  | xor rd rs => exact ⟨_, rfl, .register _ _⟩
  | shl rd rs => exact ⟨_, rfl, .register _ _⟩
  | shr rd rs => exact ⟨_, rfl, .register _ _⟩
  | addi rd imm => exact ⟨_, rfl, .register _ _⟩
  | jmp imm => exact ⟨_, rfl, .jump _ (branchTarget_le imm)⟩
  | jz rs imm =>
    simp only [exec, execJz, State.conclude_mk, Engine.conclude_ok]
    split
    · exact ⟨_, rfl, .jump _ (branchTarget_le imm)⟩
    · exact ⟨_, rfl, .next⟩
  | jnz rs imm =>
    simp only [exec, execJnz, State.conclude_mk, Engine.conclude_ok]
    split
    · exact ⟨_, rfl, .jump _ (branchTarget_le imm)⟩
    · exact ⟨_, rfl, .next⟩
  | ld rd rs imm =>
    simp only [exec, execLd]
    split
    · exact ⟨_, rfl, .register _ _⟩
    · next c hc => exact ⟨_, rfl, .fault c (.inl ((Engine.memRead_error ..).1 hc).2)⟩
  | st rd rs imm =>
    simp only [exec, execSt]
    split
    · next u hu => exact ⟨_, rfl, .cell _ _ ((Engine.memWritable_ok ..).1 hu)⟩
    · next c hc => exact ⟨_, rfl, .fault c (.inl ((Engine.memWritable_error ..).1 hc).2)⟩
  | inp rd =>
    simp only [exec, execIn]
    split
    · exact ⟨_, rfl, .fault _ (.inr rfl)⟩
    · exact ⟨_, rfl, .wait⟩
    · next v hv => exact ⟨_, rfl, .receive _ v hv⟩

/-- Everything a cycle can do (40_execution_loop.md R132). -/
inductive Cycles (e : Engine w) : Engine w → Prop where
  /-- the end of Program -/
  | endOfProgram (h : e.prog.length ≤ e.core.pc) : Cycles e e.enterHalted
  /-- an opcode that is not in the table -/
  | unknownOpcode (word : CodeWord) (d : DecodeError) (hf : e.fetch = some word)
      (hd : decodeWith e.cfg.archTable word = .error d) : Cycles e (e.raiseFault .unknownOpcode)
  /-- an instruction -/
  | instruction (word : CodeWord) (i : Instr) (e' : Engine w) (hf : e.fetch = some word)
      (hd : decodeWith e.cfg.archTable word = .ok (.instr i)) (hx : exec i ⟨w, e⟩ = .next ⟨w, e'⟩) (he : Executes e e') :
      Cycles e e'
  /-- a described operation of the table -/
  | operation (word : CodeWord) (p : Operation) (f : Fields) (e' : Engine w) (hf : e.fetch = some word)
      (hd : decodeWith e.cfg.archTable word = .ok (.operation p f))
      (hx : execOperation p f ⟨w, e⟩ = .next ⟨w, e'⟩) (he : Operates e e') : Cycles e e'

theorem Engine.fetch_none (e : Engine w) : e.fetch = none ↔ e.prog.length ≤ e.core.pc := by
  simp [Engine.fetch]

theorem Engine.fetch_some_lt (e : Engine w) (word : CodeWord) (h : e.fetch = some word) : e.core.pc < e.prog.length := by
  simp only [Engine.fetch] at h
  exact (List.getElem?_eq_some_iff.1 h).1

theorem cycle_cycles (e : Engine w) : ∃ e', State.cycle ⟨w, e⟩ = .next ⟨w, e'⟩ ∧ Cycles e e' := by
  unfold State.cycle
  split
  · next h => exact ⟨_, rfl, .endOfProgram ((Engine.fetch_none e).1 h)⟩
  · next word hf =>
    split
    · next d hd => exact ⟨_, rfl, .unknownOpcode word d hf hd⟩
    · next d hd =>
      cases d with
      | instr i =>
        obtain ⟨e', hx, he⟩ := exec_executes i e
        exact ⟨e', hx, .instruction word i e' hf hd hx he⟩
      | operation p f =>
        obtain ⟨e', hx, he⟩ := execOperation_operates p f e
        exact ⟨e', hx, .operation word p f e' hf hd hx he⟩

/-- The boundary of a run that goes on (60_exceptions.md R241). -/
theorem Engine.boundary_running (e : Engine w) (h : e.core.runState = .running) :
    e.boundary =
      { e with cycles := e.cycles + 1,
               snapshotDue := e.output.isSome && snapshotSelected e.cfg.snapshotPolicy (e.cycles + 1) } := by
  simp [Engine.boundary, MachineState.report, h]

/-- The boundary of a run that has ended (40_execution_loop.md R148, 60_exceptions.md R242). -/
theorem Engine.boundary_ended (e : Engine w) (r : RunReport) (h : e.core.report = some r) :
    e.boundary = ({ e with cycles := e.cycles + 1 } : Engine w).closeChannels.tellHost (.outcome r) := by
  simp [Engine.boundary, h]

@[simp] theorem Engine.boundary_core (e : Engine w) : e.boundary.core = e.core := by
  simp only [Engine.boundary]; split <;> rfl

@[simp] theorem Engine.boundary_cfg (e : Engine w) : e.boundary.cfg = e.cfg := by
  simp only [Engine.boundary]; split <;> rfl

@[simp] theorem Engine.boundary_prog (e : Engine w) : e.boundary.prog = e.prog := by
  simp only [Engine.boundary]; split <;> rfl

@[simp] theorem Engine.boundary_cycles (e : Engine w) : e.boundary.cycles = e.cycles + 1 := by
  simp only [Engine.boundary]; split <;> rfl

@[simp] theorem Engine.boundary_terminated (e : Engine w) : e.boundary.terminated = e.terminated := by
  simp only [Engine.boundary]; split <;> rfl

@[simp] theorem Engine.boundary_bootFailed (e : Engine w) : e.boundary.bootFailed = e.bootFailed := by
  simp only [Engine.boundary]; split <;> rfl

@[simp] theorem Engine.boundary_agenda (e : Engine w) : e.boundary.agenda = e.agenda := by
  simp only [Engine.boundary]; split <;> rfl

/-- Everything the engine's turn can do. -/
inductive EngineTurns (e : Engine w) : Engine w → Prop where
  /-- in Ready, in Halted, in Faulted or after a termination: nothing -/
  | idle (h : e.core.runState ≠ .running ∨ e.terminated = true) : EngineTurns e e
  /-- the send that the boundary owes -/
  | send (hr : e.core.runState = .running) (ht : e.terminated = false) (hd : e.snapshotDue = true) :
      EngineTurns e e.trySend
  /-- a cycle and the boundary after it -/
  | cycle (e' : Engine w) (hr : e.core.runState = .running) (ht : e.terminated = false) (hd : e.snapshotDue = false)
      (hc : Cycles e e') : EngineTurns e e'.boundary

theorem engineTurn_turns (e : Engine w) : ∃ e', State.engineTurn ⟨w, e⟩ = .next ⟨w, e'⟩ ∧ EngineTurns e e' := by
  unfold State.engineTurn
  split
  · next h => exact ⟨e, rfl, .idle (.inr h)⟩
  · next ht =>
    have ht' : e.terminated = false := by simpa using ht
    split
    · next h => exact ⟨e, rfl, .idle (.inl (by simp_all))⟩
    · next h => exact ⟨e, rfl, .idle (.inl (by simp_all))⟩
    · next h => exact ⟨e, rfl, .idle (.inl (by simp_all))⟩
    · next hr =>
      split
      · next hd => exact ⟨_, rfl, .send hr ht' hd⟩
      · next hd =>
        obtain ⟨e', hx, hc⟩ := cycle_cycles e
        exact ⟨e'.boundary, by rw [hx]; rfl, .cycle e' hr ht' (by simpa using hd) hc⟩

/-- Everything a call of the host can do (60_exceptions.md R245). -/
inductive HostCalls (e : Engine w) : Engine w → Prop where
  /-- a refused call -/
  | refused : HostCalls e e
  /-- an answer -/
  | answer (m : HostMessage w) : HostCalls e (e.tellHost m)
  /-- `load`, accepted in Ready -/
  | load (p : Program) (ha : e.acceptsControl = true) :
      HostCalls e { e with prog := p, core := { e.core with pc := 0 } }
  /-- `run`, accepted in Ready -/
  | run (ha : e.acceptsControl = true) :
      HostCalls e { e with core := { e.core with runState := .running } }
  /-- a Program that was not produced, in Ready -/
  | bootFails (m : HostMessage w) (ha : e.acceptsControl = true) : HostCalls e (e.failBoot m)
  /-- the first termination request -/
  | terminate (ms : List (HostMessage w)) (ht : e.terminated = false) :
      HostCalls e { e with terminated := true, hostInbox := e.hostInbox ++ ms }

theorem Engine.acceptsControl_iff (e : Engine w) :
    e.acceptsControl = true ↔ e.core.runState = .ready ∧ e.terminated = false ∧ e.bootFailed = false := by
  simp [Engine.acceptsControl, and_assoc]

theorem Engine.load_calls (e : Engine w) (p : Program) : HostCalls e (e.load p) := by
  unfold Engine.load
  split
  · next h => exact .load p h
  · exact .refused

theorem hostCall_calls (e : Engine w) (c : HostCall) : HostCalls e (e.hostCall c) := by
  cases c with
  | load p => exact e.load_calls p
  | loadImage bytes =>
    simp only [Engine.hostCall, Engine.loadImage]
    split
    · next ha =>
      split
      · exact e.load_calls _
      · exact .bootFails _ ha
    · exact .refused
  | loadSource source =>
    simp only [Engine.hostCall, Engine.loadSource]
    split
    · next ha =>
      split
      · exact e.load_calls _
      · exact .bootFails _ ha
    · exact .refused
  | run =>
    simp only [Engine.hostCall, Engine.run]
    split
    · next h => exact .run h
    · exact .refused
  | terminate d =>
    simp only [Engine.hostCall, Engine.terminate]
    split
    · exact .refused
    · next h =>
      have h' : e.terminated = false := by simpa using h
      cases d
      · exact .terminate [.outcome .terminated] h'
      · simpa [Engine.tellHost, Engine.dumpCore] using HostCalls.terminate [.dump e.core, .outcome .terminated] h'
  | dumpCore => exact .answer _
  | disassemble word => exact .answer _

theorem Engine.popTurn_of_agenda (e : Engine w) (t : Turn w) (rest : List (Turn w)) (h : e.agenda = t :: rest) :
    e.popTurn = { e with agenda := rest } := by
  simp [Engine.popTurn, h]

/-- The step of the engine alone. -/
theorem step_alone (e : Engine w) (h : e.agenda = []) : step ⟨w, e⟩ = State.engineTurn ⟨w, e⟩ := by
  simp only [step, State.turn, h]

/-- The step of the engine by the agenda. -/
theorem step_engine (e : Engine w) (rest : List (Turn w)) (h : e.agenda = .engine :: rest) :
    step ⟨w, e⟩ = State.engineTurn ⟨w, { e with agenda := rest }⟩ := by
  simp only [step, State.turn, h]
  rw [e.popTurn_of_agenda _ _ h]

/-- The step of the host. -/
theorem step_host (e : Engine w) (c : HostCall) (rest : List (Turn w)) (h : e.agenda = .host c :: rest) :
    step ⟨w, e⟩ = .next ⟨w, ({ e with agenda := rest } : Engine w).hostCall c⟩ := by
  simp only [step, State.turn, h, State.nextWith]
  rw [e.popTurn_of_agenda _ _ h]

/-- The step of the renderer. -/
theorem step_renderer (e : Engine w) (a : RendererAct w) (rest : List (Turn w)) (h : e.agenda = .renderer a :: rest) :
    step ⟨w, e⟩ = .next ⟨w, ({ e with agenda := rest } : Engine w).rendererAct a⟩ := by
  simp only [step, State.turn, h, State.nextWith]
  rw [e.popTurn_of_agenda _ _ h]

/-- Everything a step can do. It always answers a next state of the same width. -/
inductive Steps (e : Engine w) : Engine w → Prop where
  /-- the engine, alone -/
  | alone (e' : Engine w) (ha : e.agenda = []) (h : EngineTurns e e') : Steps e e'
  /-- the engine, by the agenda -/
  | engine (rest : List (Turn w)) (e' : Engine w) (ha : e.agenda = .engine :: rest) (h : EngineTurns e.popTurn e') :
      Steps e e'
  /-- the host -/
  | host (c : HostCall) (rest : List (Turn w)) (ha : e.agenda = .host c :: rest) (h : HostCalls e.popTurn (e.popTurn.hostCall c)) :
      Steps e (e.popTurn.hostCall c)
  /-- the renderer -/
  | renderer (a : RendererAct w) (rest : List (Turn w)) (ha : e.agenda = .renderer a :: rest) :
      Steps e (e.popTurn.rendererAct a)

theorem step_steps (e : Engine w) : ∃ e', step ⟨w, e⟩ = .next ⟨w, e'⟩ ∧ Steps e e' := by
  unfold step State.turn
  split
  · next ha =>
    obtain ⟨e', hx, he⟩ := engineTurn_turns e
    exact ⟨e', hx, .alone e' ha he⟩
  · next rest ha =>
    obtain ⟨e', hx, he⟩ := engineTurn_turns e.popTurn
    exact ⟨e', hx, .engine rest e' ha he⟩
  · next c rest ha => exact ⟨_, rfl, .host c rest ha (hostCall_calls _ c)⟩
  · next a rest ha => exact ⟨_, rfl, .renderer a rest ha⟩

/-- A step that answers a next state is one of the cases of `Steps`. -/
theorem step_inversion (e : Engine w) (t : State) (h : step ⟨w, e⟩ = .next t) : ∃ e', t = ⟨w, e'⟩ ∧ Steps e e' := by
  obtain ⟨e', hx, he⟩ := step_steps e
  rw [hx] at h
  exact ⟨e', (Host.Outcome.next.inj h).symm, he⟩

end Sys2Proof.Machine
end

