-- ==== Sys2Proof/Laws/PerInstr.lean ====
section
/-! SUPPORT. Laws stated once per constructor of `Instr`. -/

namespace Sys2Proof.Laws

/-- An instruction's operands survive in the fields of its word, its opcode stands in the opcode field, and every field
that its operation's kinds do not name is 0 (30_encoding.md R85, R90, R107 (f)). -/
def FieldsCarryOperands.Statement (i : Instr) : Prop :=
  ∀ op : Opcode, i.op.build (i.fields op) = i ∧ (i.fields op).op = op ∧
    (Kind.D ∉ i.op.kinds → (i.fields op).rd = 0#4) ∧ (Kind.S ∉ i.op.kinds → (i.fields op).rs = 0#4) ∧
    (Kind.I ∉ i.op.kinds → (i.fields op).imm = 0#16)

/-- A kind that a list names: what is said of the lists that do not name it holds. -/
theorem kind_named {k : Kind} {ks : List Kind} {P : Prop} (h : ks.elem k = true) (hn : k ∉ ks) : P :=
  absurd (List.mem_of_elem_eq_true h) hn

theorem FieldsCarryOperands.halt : FieldsCarryOperands.Statement .halt :=
  fun _ => ⟨rfl, rfl, fun _ => rfl, fun _ => rfl, fun _ => rfl⟩

theorem FieldsCarryOperands.nop : FieldsCarryOperands.Statement .nop :=
  fun _ => ⟨rfl, rfl, fun _ => rfl, fun _ => rfl, fun _ => rfl⟩

theorem FieldsCarryOperands.ldi (rd : RegIndex) (imm : Imm) : FieldsCarryOperands.Statement (.ldi rd imm) :=
  fun _ => ⟨rfl, rfl, kind_named rfl, fun _ => rfl, kind_named rfl⟩

theorem FieldsCarryOperands.mov (rd rs : RegIndex) : FieldsCarryOperands.Statement (.mov rd rs) :=
  fun _ => ⟨rfl, rfl, kind_named rfl, kind_named rfl, fun _ => rfl⟩

theorem FieldsCarryOperands.add (rd rs : RegIndex) : FieldsCarryOperands.Statement (.add rd rs) :=
  fun _ => ⟨rfl, rfl, kind_named rfl, kind_named rfl, fun _ => rfl⟩

theorem FieldsCarryOperands.sub (rd rs : RegIndex) : FieldsCarryOperands.Statement (.sub rd rs) :=
  fun _ => ⟨rfl, rfl, kind_named rfl, kind_named rfl, fun _ => rfl⟩

theorem FieldsCarryOperands.and (rd rs : RegIndex) : FieldsCarryOperands.Statement (.and rd rs) :=
  fun _ => ⟨rfl, rfl, kind_named rfl, kind_named rfl, fun _ => rfl⟩

theorem FieldsCarryOperands.or (rd rs : RegIndex) : FieldsCarryOperands.Statement (.or rd rs) :=
  fun _ => ⟨rfl, rfl, kind_named rfl, kind_named rfl, fun _ => rfl⟩

theorem FieldsCarryOperands.xor (rd rs : RegIndex) : FieldsCarryOperands.Statement (.xor rd rs) :=
  fun _ => ⟨rfl, rfl, kind_named rfl, kind_named rfl, fun _ => rfl⟩

theorem FieldsCarryOperands.shl (rd rs : RegIndex) : FieldsCarryOperands.Statement (.shl rd rs) :=
  fun _ => ⟨rfl, rfl, kind_named rfl, kind_named rfl, fun _ => rfl⟩

theorem FieldsCarryOperands.shr (rd rs : RegIndex) : FieldsCarryOperands.Statement (.shr rd rs) :=
  fun _ => ⟨rfl, rfl, kind_named rfl, kind_named rfl, fun _ => rfl⟩

theorem FieldsCarryOperands.addi (rd : RegIndex) (imm : Imm) : FieldsCarryOperands.Statement (.addi rd imm) :=
  fun _ => ⟨rfl, rfl, kind_named rfl, fun _ => rfl, kind_named rfl⟩

theorem FieldsCarryOperands.jmp (imm : Imm) : FieldsCarryOperands.Statement (.jmp imm) :=
  fun _ => ⟨rfl, rfl, fun _ => rfl, fun _ => rfl, kind_named rfl⟩

theorem FieldsCarryOperands.jz (rs : RegIndex) (imm : Imm) : FieldsCarryOperands.Statement (.jz rs imm) :=
  fun _ => ⟨rfl, rfl, fun _ => rfl, kind_named rfl, kind_named rfl⟩

theorem FieldsCarryOperands.jnz (rs : RegIndex) (imm : Imm) : FieldsCarryOperands.Statement (.jnz rs imm) :=
  fun _ => ⟨rfl, rfl, fun _ => rfl, kind_named rfl, kind_named rfl⟩

theorem FieldsCarryOperands.ld (rd rs : RegIndex) (imm : Imm) : FieldsCarryOperands.Statement (.ld rd rs imm) :=
  fun _ => ⟨rfl, rfl, kind_named rfl, kind_named rfl, kind_named rfl⟩

theorem FieldsCarryOperands.st (rd rs : RegIndex) (imm : Imm) : FieldsCarryOperands.Statement (.st rd rs imm) :=
  fun _ => ⟨rfl, rfl, kind_named rfl, kind_named rfl, kind_named rfl⟩

theorem FieldsCarryOperands.inp (rd : RegIndex) : FieldsCarryOperands.Statement (.inp rd) :=
  fun _ => ⟨rfl, rfl, kind_named rfl, fun _ => rfl, fun _ => rfl⟩

end Sys2Proof.Laws
end

