-- ==== Sys2Proof/Tests/Slice0.lean ====
section
/-! SUPPORT. The model's own tests: the spec's vectors (95_test_vectors.md) and words written out bit by bit from the
spec's encoding. Each test's source stands in its comment. -/

namespace Sys2Proof.Tests

open Sys2Proof.Machine

/-! ### Well-formedness: one ill-formed term for each check -/

def row (m : String) (op : Nat) (ks : List Kind) : InstructionSpec := ⟨m, op, m, ks, "", .reference .add⟩

/-- V2: the reference table is well-formed. -/
theorem test_reference_table_well_formed : ArchTable.wellFormed ArchTable.reference = true := by decide

/-- V2, R33 (a): two rows of opcode 0x04. -/
theorem test_duplicate_opcode_refused : ArchTable.wellFormed [row "A" 4 [], row "B" 4 []] = false := by decide

/-- V2, R33 (b): two rows named ADD. -/
theorem test_duplicate_mnemonic_refused : ArchTable.wellFormed [row "ADD" 4 [], row "ADD" 5 []] = false := by decide

/-- R34: a mnemonic that is not case-normalized. -/
theorem test_lower_case_mnemonic_refused : ArchTable.wellFormed [row "add" 4 []] = false := by decide

/-- R33 (d): opcode 256. -/
theorem test_opcode_256_refused : ArchTable.wellFormed [row "A" 256 []] = false := by decide

/-- R90: a kind that occurs twice. -/
theorem test_kind_twice_refused : ArchTable.wellFormed [row "A" 4 [.D, .D]] = false := by decide

/-- R33 (c): a record with no opcode. -/
theorem test_missing_field_refused :
    ArchTable.ofSource [⟨some "A", none, some "A", some [], some "", some (.reference .add)⟩] = none := by decide

/-- R33 (c), R34: a source with every field is a table, its mnemonic in normalized case. -/
theorem test_complete_source_loads :
    ArchTable.ofSource [⟨some "a", some 4, some "A", some [], some "", some (.reference .add)⟩] = some [row "A" 4 []] := by
  decide

/-- R33 (b): two source records whose mnemonics differ in case alone. -/
theorem test_source_mnemonics_in_two_cases_refused :
    ArchTable.ofSource [⟨some "ADD", some 4, some "", some [], some "", some (.reference .add)⟩,
      ⟨some "add", some 5, some "", some [], some "", some (.reference .add)⟩] = none := by decide

/-- R86: an instruction whose operation the table lacks. -/
theorem test_instr_not_in_table : Instr.wellFormedIn [row "A" 4 []] .nop = false := by decide

/-- R85, R86: an instruction whose operand lies in a field that the record's kinds do not name. -/
theorem test_instr_field_not_named : Instr.wellFormedIn [row "A" 4 [.D]] (.add 1 2) = false := by decide

/-- R33: a malformed table gives no engine. -/
theorem test_malformed_table_no_engine :
    (match State.construct { Config.reference with archTable := [row "A" 4 [], row "B" 4 []] } with
      | .fault .malformedTable => true
      | _ => false) = true := by decide

/-- R6: MEM_WORDS = 0 gives no engine. -/
theorem test_no_cells_no_engine :
    (match State.construct { Config.reference with memWords := 0 } with
      | .fault .parameterOutOfRange => true
      | _ => false) = true := by decide

/-- R260: the reference configuration gives State.reset. -/
theorem test_construct_reference :
    (match State.construct Config.reference with
      | .next s => decide (s = State.reset)
      | _ => false) = true := by decide

/-! ### Decoding: words written out from R81 and R95, immediate, src, dest, opcode -/

theorem test_decode_halt : decode 0b0000000000000000_0000_0000_00000000 = .ok .halt := by decide
theorem test_decode_nop : decode 0b0000000000000000_0000_0000_00000001 = .ok .nop := by decide
theorem test_decode_ldi : decode 0b0001001000110100_0000_0001_00000010 = .ok (.ldi 1 0x1234) := by decide
theorem test_decode_mov : decode 0b0000000000000000_0001_0010_00000011 = .ok (.mov 2 1) := by decide
theorem test_decode_add : decode 0b0000000000000000_0010_0001_00000100 = .ok (.add 1 2) := by decide
theorem test_decode_sub : decode 0b0000000011111111_0011_1010_00000101 = .ok (.sub 10 3) := by decide
theorem test_decode_and : decode 0b0000000000000000_0010_0001_00000110 = .ok (.and 1 2) := by decide
theorem test_decode_or : decode 0b0000000000000000_0010_0001_00000111 = .ok (.or 1 2) := by decide
theorem test_decode_xor : decode 0b0000000000000000_0010_0001_00001000 = .ok (.xor 1 2) := by decide
theorem test_decode_shl : decode 0b0000000000000000_0010_0001_00001001 = .ok (.shl 1 2) := by decide
theorem test_decode_shr : decode 0b0000000000000000_0010_0001_00001010 = .ok (.shr 1 2) := by decide
theorem test_decode_addi : decode 0b0000000000000001_0000_0001_00001011 = .ok (.addi 1 1) := by decide
theorem test_decode_jmp : decode 0b0000000000000011_0000_0000_00010000 = .ok (.jmp 3) := by decide
theorem test_decode_jz : decode 0b0000000000000101_0010_0000_00010001 = .ok (.jz 2 5) := by decide
theorem test_decode_jnz : decode 0b0000000000000010_0001_0000_00010010 = .ok (.jnz 1 2) := by decide
theorem test_decode_ld : decode 0b1111111111111111_1000_0111_00100000 = .ok (.ld 7 8 0xFFFF) := by decide
theorem test_decode_st : decode 0b0000000011111111_0110_0101_00100001 = .ok (.st 5 6 0xFF) := by decide
theorem test_decode_in : decode 0b0000000000000000_0000_0100_00110000 = .ok (.inp 4) := by decide

/-- DC1, DC4 and V7: opcodes between the ranges are rejected by name. -/
theorem test_decode_unknown :
    (decode 0x0000000C, decode 0x00000013, decode 0xABCD12FF) =
      (.error (.unknownOpcode 0x0C), .error (.unknownOpcode 0x13), .error (.unknownOpcode 0xFF)) := by decide

/-- E9: the set bits lie in fields NOP ignores. -/
theorem test_decode_ignored_bits : decode 0xFFFF0001 = .ok .nop := by decide

/-- E3: `pack(0x21, 5, 6, 0xFF)` and its image bytes. -/
theorem test_pack_bytes :
    pack ⟨0x21, 5, 6, 0xFF⟩ = 0x00FF6521 ∧ bytesOfWord 0x00FF6521 = [0x21, 0x65, 0xFF, 0x00] := by decide

/-- V1. -/
theorem test_pack_example : pack ⟨0x05, 0xA, 0x3, 0x00FF⟩ = 0x00FF3A05 := by decide

/-- E5 to E8: images. -/
theorem test_images :
    programOfImage [0x02, 0x01, 0x05, 0x00] = some [0x00050102] ∧ programOfImage [0x02, 0x01, 0x05, 0x00, 0x00] = none ∧
      programOfImage [] = some [] ∧ programOfImage [0xFF, 0, 0, 0] = some [0x000000FF] := by decide

/-- A truncated word is rejected by name. -/
theorem test_decode_truncated : decodeBytes [0x02, 0x01, 0x05] = .error .truncatedWord := by decide

theorem test_decodeTableWord : decodeTableWord 32 0x00041320 = some (.ld 3 1 4) ∧ decodeTableWord 8 0x0C = none := by
  decide

/-- V3: the words of the round-trip table. -/
theorem test_encode :
    [Instr.ldi 1 0x10, .add 1 2, .ld 3 1 4, .st 1 2 0, .jz 2 5, .inp 4, .nop, .halt].map encode =
      [0x00100102, 0x00002104, 0x00041320, 0x00002121, 0x00052011, 0x00000430, 0x00000001, 0x00000000] := by decide

/-! ### One instruction, the vectors of 95_test_vectors.md part 2 -/

/-- A running engine in the reference configuration with `pc = 4`, two registers set and one cell set. -/
def bench (a : RegIndex) (va : Word 32) (b : RegIndex) (vb : Word 32) (mem : Memory 32) : Engine 32 :=
  let e := Engine.fresh Config.reference
  { e with core := { ((e.core.setX a va).setX b vb) with pc := 4, mem := mem, runState := .running } }

/-- A view of the next state, `none` where there is none. -/
def after {α : Type} (o : Host.Outcome State Fault Refusal) (f : MachineState 32 → α) : Option α :=
  match o with
  | .next ⟨32, e⟩ => some (f e.core)
  | _ => none

/-- Register `r` and `pc` after one instruction. -/
def regPc (i : Instr) (e : Engine 32) (r : RegIndex) : Option (Word 32 × Nat) :=
  after (exec i ⟨32, e⟩) fun m => (m.x r, m.pc)

/-- `fault_cause`, `run_state`, `flags` and `pc` after one instruction. -/
def control (i : Instr) (e : Engine 32) : Option (Nat × RunState × Nat × Nat) :=
  after (exec i ⟨32, e⟩) fun m => (m.faultCause.code, m.runState, m.flags.value, m.pc)

/-- 2.3: LDI clears the upper bits. -/
theorem test_ldi : regPc (.ldi 1 0xFFFF) (bench 1 0xDEADBEEF 2 0 []) 1 = some (0x0000FFFF, 5) := by decide
/-- 2.3 -/
theorem test_mov : regPc (.mov 2 1) (bench 2 5 1 0x12345678 []) 2 = some (0x12345678, 5) := by decide
/-- 2.3: wraps -/
theorem test_add_wraps : regPc (.add 1 2) (bench 1 0xFFFFFFFF 2 1 []) 1 = some (0, 5) := by decide
/-- 2.3: the same register twice -/
theorem test_add_same : regPc (.add 1 1) (bench 1 0x80000001 2 0 []) 1 = some (2, 5) := by decide
/-- 2.3: wraps -/
theorem test_sub_wraps : regPc (.sub 1 2) (bench 1 0 2 1 []) 1 = some (0xFFFFFFFF, 5) := by decide
/-- 2.3 -/
theorem test_sub : regPc (.sub 1 2) (bench 1 5 2 3 []) 1 = some (2, 5) := by decide
/-- 2.3 -/
theorem test_and : regPc (.and 1 2) (bench 1 0xF0F0F0F0 2 0xFF00FF00 []) 1 = some (0xF000F000, 5) := by decide
/-- 2.3 -/
theorem test_or : regPc (.or 1 2) (bench 1 0xF0F0F0F0 2 0x0F0F0F0F []) 1 = some (0xFFFFFFFF, 5) := by decide
/-- 2.3 -/
theorem test_xor : regPc (.xor 1 2) (bench 1 0xFFFF0000 2 0x0F0F0F0F []) 1 = some (0xF0F00F0F, 5) := by decide
/-- 2.3: the amount is not reduced mod XLEN -/
theorem test_shl_large : regPc (.shl 1 2) (bench 1 1 2 0xFFFFFFFF []) 1 = some (0, 5) := by decide
/-- 2.3: the top bit is lost -/
theorem test_shl : regPc (.shl 1 2) (bench 1 0x80000001 2 1 []) 1 = some (2, 5) := by decide
/-- 2.3: logical -/
theorem test_shr : regPc (.shr 1 2) (bench 1 0xF0000000 2 4 []) 1 = some (0x0F000000, 5) := by decide
/-- 2.3: amount = XLEN -/
theorem test_shr_xlen : regPc (.shr 1 2) (bench 1 0x80000000 2 0x20 []) 1 = some (0, 5) := by decide
/-- 2.3: the immediate is zero-extended -/
theorem test_addi : regPc (.addi 1 0xFFFF) (bench 1 0xFFFF0001 2 0 []) 1 = some (0, 5) := by decide
/-- J1 -/
theorem test_halt : control .halt (bench 1 0 2 0 []) = some (0, .halted, 1, 4) := by decide
/-- J2 -/
theorem test_nop : control .nop (bench 1 0 2 0 []) = some (0, .running, 0, 5) := by decide
/-- J4 -/
theorem test_jmp : control (.jmp 65535) (bench 1 0 2 0 []) = some (0, .running, 0, 65535) := by decide
/-- J5 -/
theorem test_jz_taken : control (.jz 2 9) (bench 1 0 2 0 []) = some (0, .running, 0, 9) := by decide
/-- J6 -/
theorem test_jz_not_taken : control (.jz 2 9) (bench 1 0 2 1 []) = some (0, .running, 0, 5) := by decide
/-- J7 -/
theorem test_jnz_taken : control (.jnz 1 2) (bench 1 0x80000000 2 0 []) = some (0, .running, 0, 2) := by decide
/-- J8 -/
theorem test_jnz_not_taken : control (.jnz 1 2) (bench 1 0 2 0 []) = some (0, .running, 0, 5) := by decide
/-- M1 -/
theorem test_ld : regPc (.ld 3 1 4) (bench 1 10 2 0 [(14, 99)]) 3 = some (99, 5) := by decide
/-- M6: the sum does not wrap. -/
theorem test_ld_no_wrap : control (.ld 2 1 1) (bench 1 0xFFFFFFFF 2 0 [(0, 7)]) = some (2, .faulted, 0, 4) := by decide
/-- M10: the base register is also the value. -/
theorem test_st : after (exec (.st 1 1 2) ⟨32, bench 1 3 2 0 []⟩) MachineState.mem = some [(5, 3)] := by decide
/-- M9 -/
theorem test_st_out_of_range :
    after (exec (.st 5 6 0xFF) ⟨32, bench 5 1 6 7 [(0, 1)]⟩) (fun m => (m.mem, m.faultCause.code, m.pc)) =
      some ([(0, 1)], 2, 4) := by decide
/-- M12: headless -/
theorem test_in_headless : control (.inp 4) (bench 4 7 2 0 []) = some (4, .faulted, 0, 4) := by decide
/-- M13 -/
theorem test_in_event : regPc (.inp 4) { bench 4 7 2 0 [] with input := some ⟨[0x41], true⟩ } 4 = some (0x41, 5) := by
  decide
/-- M14: Wait writes nothing. -/
theorem test_in_waits : control (.inp 4) { bench 4 7 2 0 [] with input := some ⟨[], true⟩ } = some (0, .running, 0, 4) := by
  decide
/-- M15 -/
theorem test_in_closed : control (.inp 4) { bench 4 7 2 0 [] with input := some ⟨[], false⟩ } = some (4, .faulted, 0, 4) := by
  decide

/-- A store of 0 removes the cell from the list. -/
theorem test_write_zero : Memory.write [(3, 1#32), (5, 2)] 3 0 = [(5, 2)] := by decide

/-! ### Operations of other tables -/

/-- MUL, with a computed index out of range in IND: `x[rd] <- x[x[rs]]`, and CALL: `x[rd] <- pc + 1; pc <- imm`. -/
def otherTable : ArchTable :=
  [⟨"MUL", 0x40, "Multiply", [.D, .S], "",
      .described ⟨false, [], [⟨.register (.field .D), .binary .mul (.register (.field .D)) (.register (.field .S))⟩],
        .next⟩⟩,
    ⟨"IND", 0x41, "Indirect move", [.D, .S], "",
      .described ⟨false, [], [⟨.register (.field .D), .register (.register (.field .S))⟩], .next⟩⟩,
    ⟨"CALL", 0x42, "Call", [.D, .I], "",
      .described ⟨false, [], [⟨.register (.field .D), .binary .add .pc (.const 1)⟩], .jump (.field .I)⟩⟩]

/-- The bench at `pc = 0` with one word of `otherTable`. -/
def otherBench (word : CodeWord) (va vb : Word 32) : Engine 32 :=
  { bench 1 va 2 vb [] with
    cfg := { Config.reference with archTable := otherTable }
    prog := [0, 0, 0, 0, word] }

theorem test_other_table_well_formed : ArchTable.wellFormed otherTable = true := by decide

/-- R33, R170: a multiply, its result modulo 2^32. -/
theorem test_described_multiply :
    after (step ⟨32, otherBench 0x00002140 0x10001 0x10003⟩) (fun m => (m.x 1, m.pc)) = some (0x40003, 5) := by decide

/-- R146: the computed index 15 names a register, 16 is the fault RegOutOfRange. -/
theorem test_described_index :
    after (step ⟨32, otherBench 0x00002141 7 15⟩) (fun m => (m.x 1, m.faultCause.code, m.pc)) = some (0, 0, 5) ∧
      after (step ⟨32, otherBench 0x00002141 7 16⟩) (fun m => (m.x 1, m.faultCause.code, m.pc)) = some (7, 3, 4) := by
  decide

/-- R137, R139: a register write with a jump. -/
theorem test_described_call :
    after (step ⟨32, otherBench 0x00090142 0 0⟩) (fun m => (m.x 1, m.pc, m.runState)) = some (5, 9, .running) := by decide

/-- R85: a field that the kinds do not name is ignored, here the src field of a record of ADD with the kind D alone. -/
theorem test_unnamed_field_ignored :
    decodeWith [row "A" 4 [.D]] 0x00002104 = .ok (.instr (.add 1 0)) := by decide

/-- R241: a policy of every second boundary, in a run without end. -/
theorem test_periodic_policy :
    [1, 2, 3, 1000000].map (snapshotSelected (.periodic 2 [0])) = [false, true, false, true] := by decide

/-! ### One step -/

/-- The step runs the word at `pc`, here the reference ADDI (DC3). -/
theorem test_step_runs_word :
    after (step (State.reset.withFetchWord 32 0x0001010B)) (fun m => (m.x 1, m.pc, m.runState)) =
      some (1, 1, .running) := by decide

/-- V7: an unknown opcode. -/
theorem test_step_unknown_opcode :
    after (step (State.reset.withFetchWord 32 0x000000FF)) (fun m => (m.faultCause.code, m.runState, m.pc, m.flags.value)) =
      some (1, .faulted, 0, 0) := by decide

/-- J11: `pc = len(Prog)` halts without a fetch. -/
theorem test_step_end_of_program :
    after (step ⟨32, bench 1 0 2 0 []⟩) (fun m => (m.runState, m.pc, m.flags.value)) = some (.halted, 4, 1) := by decide

/-- S1: `run()` in Halted is refused, with no change. -/
theorem test_run_refused_in_halted :
    (let e := (bench 1 0 2 0 []).enterHalted
     after (step ⟨32, { e with agenda := [.host .run] }⟩) id = some e.core) := by decide

/-- S3: `load(P)` in Ready. -/
theorem test_load :
    (match step ⟨32, { Engine.fresh Config.reference with agenda := [.host (.load [0x00000001])] }⟩ with
      | .next ⟨32, e⟩ => some (e.prog, e.core.runState, e.core.pc)
      | _ => none) = some ([0x00000001], .ready, 0) := by decide

/-- R57, R262: a truncated image gives the error, and a `run` after it is refused. -/
theorem test_failed_boot_no_run :
    (match Host.Core.run Sys2Proof.core 2
        ⟨32, { Engine.fresh Config.reference with agenda := [.host (.loadImage [1, 2, 3]), .host .run] }⟩ with
      | .next ⟨32, e⟩ => some (e.core.runState, e.bootFailed, e.hostInbox)
      | _ => none) = some (.ready, true, [.loadError]) := by decide

/-- S4: a termination request, with the dump and the report. -/
theorem test_terminate :
    (match step ⟨32, { bench 1 0 2 0 [] with agenda := [.host (.terminate true)] }⟩ with
      | .next ⟨32, e⟩ => some (e.terminated, e.core.runState, e.hostInbox.length)
      | _ => none) = some (true, .running, 2) := by decide

/-- V8: the engine's HALT closes the output channel and unblocks the renderer with end-of-stream. -/
theorem test_halt_unblocks_renderer :
    (match step ⟨32, { bench 1 0 2 0 [] with output := some ⟨[], true, true, []⟩ }⟩ with
      | .next ⟨32, e⟩ => e.output
      | _ => none) = some ⟨[], false, false, [.endOfStream]⟩ := by decide

/-- R241: a snapshot that is owed goes to the queue before the next cycle, and a full channel holds the engine. -/
theorem test_snapshot_blocks :
    (let e := { bench 1 0 2 0 [] with output := some ⟨[], true, false, []⟩, snapshotDue := true,
                                      cfg := { Config.reference with outputCapacity := some 0 } }
     match step ⟨32, e⟩ with
      | .next ⟨32, e'⟩ => decide (e' = e)
      | _ => false) = true := by decide

/-! ### Assembler and disassembly -/

def asm (s : String) : Except AssemblyError Program := assemble ArchTable.reference s.toList

/-- A1, A2, A3 and A4. -/
theorem test_assemble :
    asm "add r1, r2 ; sum" = .ok [0x00002104] ∧ asm "loop: JMP loop" = .ok [0x00000010] ∧
      asm "JMP end\nend:" = .ok [0x00010010] ∧ asm "LDI r1, 65535" = .ok [0xFFFF0102] := by decide

/-- A5 to A11, V4 and V5. -/
theorem test_assembly_errors :
    asm "LDI r1, 65536" = .error ⟨1, .immediateOutOfRange⟩ ∧ asm "LDI r1, -1" = .error ⟨1, .immediateOutOfRange⟩ ∧
      asm "ADD r1" = .error ⟨1, .wrongOperandCount⟩ ∧ asm "ADD r1, 5" = .error ⟨1, .wrongOperandKind⟩ ∧
      asm "FOO r1" = .error ⟨1, .unknownMnemonic⟩ ∧ asm "HALT\nNOP r1" = .error ⟨2, .wrongOperandCount⟩ := by decide

/-- V4, V5 and A11. -/
theorem test_assembly_labels :
    asm "JMP nowhere" = .error ⟨1, .undefinedLabel "nowhere".toList⟩ ∧
      asm "a:\na:\nHALT" = .error ⟨2, .duplicateLabel "a".toList⟩ ∧ asm "LDI r16, 1" = .error ⟨1, .registerOutOfRange⟩ ∧
      asm "LDI r15, 1" = .ok [0x00010F02] ∧ asm "\n; only a comment\nHALT" = .ok [0] := by decide

/-- 2.8. -/
theorem test_disassemble :
    [0x12340102, 0x00061220, 0x00FF3A05, 0xFFFF0001, 0xABCD12FE].map (disassemble ArchTable.reference) =
      ["LDI r1, 4660".toList, "LD r2, r1, 6".toList, "SUB r10, r3".toList, "NOP".toList, "??? 0xABCD12FE".toList] := by
  decide

/-! ### Witnesses: for every statement with hypotheses, a state and operands that meet them all -/

/-- A one-row table with an opcode and a mnemonic of its own. -/
def tableOfPut : ArchTable := [⟨"PUT", 200, "PUT", [.D, .S, .I], "", .reference .st⟩]

theorem test_witness_DecodeUndoesEncodeInEveryTable :
    ArchTable.wellFormed tableOfPut = true ∧ (Instr.st 15 0 0xFFFF).wellFormedIn tableOfPut = true := by decide

/-- E9's word and NOP's own; and an instruction of one operand that the Assembler encodes. -/
theorem test_witness_UnnamedFieldsAreIgnored :
    (unpack 0xFFFF0001).op = (unpack 0x00000001).op ∧
      (∀ r, ArchTable.lookup ArchTable.reference (unpack 0xFFFF0001).op = some r →
        (Kind.D ∈ r.kinds → (unpack 0xFFFF0001).rd = (unpack 0x00000001).rd) ∧
        (Kind.S ∈ r.kinds → (unpack 0xFFFF0001).rs = (unpack 0x00000001).rs) ∧
        (Kind.I ∈ r.kinds → (unpack 0xFFFF0001).imm = (unpack 0x00000001).imm)) ∧
      (∃ r, ArchTable.lookupMnemonic ArchTable.reference "in".toList = some r) ∧
      encodeInstr ArchTable.reference [] ⟨"in".toList, ["r4".toList]⟩ = .ok 0x00000430 := by
  refine ⟨by decide, fun r h => ?_, Option.isSome_iff_exists.1 (by decide), by decide⟩
  have hr : r.kinds = [] := by
    have : (ArchTable.lookup ArchTable.reference (unpack 0xFFFF0001).op).map InstructionSpec.kinds = some [] := by decide
    rw [h] at this
    exact Option.some.inj this
  rw [hr]
  decide

/-- The lowest illegal opcode and the highest legal one. -/
theorem test_witness_ReferenceOpcodesLegal : (∃ i, decode 0x00000030 = .ok i) ∧ ¬ ∃ i, decode 0x0000000C = .ok i := by
  refine ⟨⟨.inp 0, by decide⟩, fun ⟨i, h⟩ => ?_⟩
  have : decode 0x0000000C = .error (.unknownOpcode 0x0C) := by decide
  rw [this] at h
  cases h

theorem test_witness_ImageIsLittleEndianWords :
    programOfImage [0x02, 0x01, 0x05, 0x00] = some [0x00050102] ∧ [(0x00050102 : CodeWord)][0]? = some 0x00050102 ∧
      [(1 : Byte), 2, 3, 4, 5].length % 4 ≠ 0 ∧ (Engine.fresh Config.reference).acceptsControl = true := by decide

theorem test_witness_LookupFindsTheRecord : ArchTable.wellFormed tableOfPut = true := by decide

/-- LDI and ADDI: the narrowest registers the parameter allows (R6). -/
theorem test_witness_LdiAddi_narrowest_width : 16 ≤ 16 ∧ 16 ≤ Config.referenceXlen := by decide

/-- The last cell, and the first address beyond it. -/
theorem test_witness_LdLoadsCellOrFaults :
    ((bench 1 251 2 0 []).core.x 1).toNat + (4 : Imm).toNat < (bench 1 251 2 0 []).cfg.memWords ∧
      ((bench 1 252 2 0 []).core.x 1).toNat + (4 : Imm).toNat ≥ (bench 1 252 2 0 []).cfg.memWords := by decide

theorem test_witness_StStoresCellOrFaults :
    (Memory.wf (bench 1 255 2 9 [(7, 1)]).core.mem = true ∧
        effectiveAddress ((bench 1 255 2 9 [(7, 1)]).core.x 1) 0 < (bench 1 255 2 9 [(7, 1)]).cfg.memWords) ∧
      Memory.wf (bench 1 255 2 9 [(7, 1)]).core.mem = true ∧
        effectiveAddress ((bench 1 255 2 9 [(7, 1)]).core.x 1) 1 ≥ (bench 1 255 2 9 [(7, 1)]).cfg.memWords := by decide

/-- An engine of width 32 in Running with the channel `ch` for input. -/
def withInput (ch : Option (InChannel 32)) : Engine 32 := { bench 4 7 2 0 [] with input := ch }

theorem test_witness_InReceivesWaitsOrFaults :
    ((withInput (some ⟨[0x41], false⟩)).input = some ⟨[0x41], false⟩) ∧
      ((withInput (some ⟨[], true⟩)).input = some ⟨[], true⟩) ∧ (withInput none).input = none ∧
      ∃ ch, (withInput (some ⟨[], false⟩)).input = some ch ∧ ch.queue = [] ∧ ch.isOpen = false :=
  ⟨rfl, rfl, rfl, _, rfl, rfl, rfl⟩

/-- The same address by two operand forms, and two addresses, the last cell among them. -/
theorem test_witness_LoadAfterStoreReadsIt :
    (let e := bench 1 3 2 255 [(255, 6)]
     Memory.wf e.core.mem = true ∧ effectiveAddress (e.core.x 1) 252 < e.cfg.memWords ∧
       effectiveAddress (e.core.x 2) 0 = effectiveAddress (e.core.x 1) 252 ∧
       effectiveAddress (e.core.x 1) 0 < e.cfg.memWords ∧
       effectiveAddress (e.core.x 1) 0 ≠ effectiveAddress (e.core.x 2) 0) := by decide

/-- The bench with `word` at `pc`. -/
def benchAt (word : CodeWord) : Engine 32 := { bench 1 300 2 7 [] with prog := [0, 0, 0, 0, word] }

/-- V7's word, and a load beyond the last cell. -/
theorem test_witness_FaultsArePrecise :
    (∃ e', State.cycle ⟨32, benchAt 0x000000FF⟩ = .next ⟨32, e'⟩ ∧ e'.core.runState = .faulted) ∧
      ∃ e', State.cycle ⟨32, benchAt 0x00001220⟩ = .next ⟨32, e'⟩ ∧ e'.core.runState = .faulted :=
  ⟨⟨_, rfl, rfl⟩, ⟨_, rfl, rfl⟩⟩

theorem test_witness_FlagsAreNeitherReadNorWritten :
    Instr.add 1 2 ≠ .halt ∧ ∃ e', exec (.add 1 2) ⟨32, benchAt 0⟩ = .next ⟨32, e'⟩ := ⟨by decide, _, rfl⟩

/-- The first index beyond the registers: where it is read in a value, where it is the place of a second write, in a target
after the writes, in a peripheral read; an operation's own fault; and an instruction that keeps the cause. -/
theorem test_witness_RegOutOfRangeIsBadIndexOrOwnFault :
    (let e := benchAt 0
     let f : Fields := ⟨0, 1, 2, 0⟩
     let bad : Expr := .register (.const 16)
     15 < 16 ∧ e.MeetsBadIndex f 0 bad ∧
      (let p : Operation := ⟨false, [], [⟨.register (.field .D), bad⟩], .next⟩
       e.OperationEvent p 0 ∧ e.OperationMeetsBadIndex f 0 p) ∧
      (let p : Operation := ⟨false, [], [⟨.register (.field .D), .const 9⟩, ⟨.register (.const 16), .const 9⟩], .halt⟩
       e.OperationEvent p 0 ∧ e.OperationMeetsBadIndex f 0 p) ∧
      (let p : Operation := ⟨false, [], [⟨.register (.field .D), .const 9⟩], .choose (.const 0) .next (.jump bad)⟩
       e.OperationEvent p 0 ∧ e.OperationMeetsBadIndex f 0 p) ∧
      (let p : Operation := ⟨false, [(.const 0, .memOutOfRange), (.const 1, .regOutOfRange)], [], .next⟩
       e.OperationEvent p 0 ∧ e.RaisesRegOutOfRange f 0 p ∧
         ∃ e', execOperation p f ⟨32, e⟩ = .next ⟨32, e'⟩ ∧ e.core.faultCause ≠ .regOutOfRange ∧
           e'.core.faultCause = .regOutOfRange)) ∧
    (let e := withInput (some ⟨[16], true⟩)
     let p : Operation := ⟨true, [], [⟨.register .event, .const 0⟩], .next⟩
     e.OperationEvent p 16 ∧ e.OperationMeetsBadIndex ⟨0, 0, 0, 0⟩ 16 p) ∧
    ∃ e', exec .nop ⟨32, (benchAt 0).raiseFault .regOutOfRange⟩ = .next ⟨32, e'⟩ ∧ e'.core.faultCause = .regOutOfRange :=
  ⟨⟨by decide, .index _ 16 rfl (by decide),
    ⟨.inl ⟨rfl, rfl⟩, .writes rfl (.value _ _ (.index _ 16 rfl (by decide)))⟩,
    ⟨.inl ⟨rfl, rfl⟩, .writes rfl (.later _ _ 9 (.register 1 9) rfl rfl (.place _ _ 9 rfl (.index _ 16 rfl (by decide))))⟩,
    ⟨.inl ⟨rfl, rfl⟩, .transfer rfl [.register 1 9] rfl (.inElse _ _ _ rfl (.target _ (.index _ 16 rfl (by decide))))⟩,
    .inl ⟨rfl, rfl⟩, ⟨[(.const 0, .memOutOfRange)], .const 1, 1, [], rfl, by decide, rfl, by decide⟩,
    _, rfl, by decide, rfl⟩,
   ⟨.inr ⟨rfl, _, 16, [], rfl, rfl, rfl⟩, .writes rfl (.place _ _ 0 rfl (.index _ 16 rfl (by decide)))⟩, _, rfl, rfl⟩

theorem test_witness_OnlyListedInstructionsWriteRegisters :
    ∃ e', exec (.add 1 2) ⟨32, benchAt 0⟩ = .next ⟨32, e'⟩ ∧ e'.core.x 1 ≠ (benchAt 0).core.x 1 := ⟨_, rfl, by decide⟩

/-- Two engines that differ in the output channel and in the messages to the host. -/
theorem test_witness_CycleIgnoresItsObservers :
    (let a := benchAt 0x00002104
     let b := { a with output := some ⟨[a.core], true, false, []⟩, hostInbox := [.loadError] }
     a.cfg = b.cfg ∧ a.core = b.core ∧ a.prog = b.prog ∧ a.input = b.input ∧
       (∃ a', State.cycle ⟨32, a⟩ = .next ⟨32, a'⟩) ∧ ∃ b', State.cycle ⟨32, b⟩ = .next ⟨32, b'⟩) :=
  ⟨rfl, rfl, rfl, rfl, ⟨_, rfl⟩, _, rfl⟩

/-- Both agendas, with an instruction after which the run goes on, and with an operation of another table. -/
theorem test_witness_StepRunsTheDecodedInstruction :
    (benchAt 0x00002104).CanCycle ∧ (benchAt 0x00002104).prog[(benchAt 0x00002104).core.pc]? = some 0x00002104 ∧
      decodeWith (benchAt 0x00002104).cfg.archTable 0x00002104 = .ok (.instr (.add 1 2)) ∧
      (benchAt 0x00002104).MovesNext [] ∧
      ({ benchAt 0x00002104 with agenda := [.engine, .host .run] } : Engine 32).MovesNext [.host .run] ∧
      (Completes (.add 1 2) (benchAt 0x00002104) fun e1 => e1.core.runState = .running) ∧
      (otherBench 0x00002140 3 4).CanCycle ∧ (otherBench 0x00002140 3 4).prog[4]? = some 0x00002140 ∧
      (otherBench 0x00002140 3 4).MovesNext [] ∧
      ∃ p f, decodeWith (otherBench 0x00002140 3 4).cfg.archTable 0x00002140 = .ok (.operation p f) :=
  ⟨⟨rfl, rfl, rfl⟩, rfl, rfl, .inl ⟨rfl, rfl⟩, .inr rfl, ⟨_, rfl, rfl⟩, ⟨rfl, rfl, rfl⟩, rfl, .inl ⟨rfl, rfl⟩, _, _, rfl⟩

/-- `pc` at the end of the Program, and beyond it; both agendas. -/
theorem test_witness_EndOfProgramHalts :
    (bench 1 0 2 0 []).CanCycle ∧ (bench 1 0 2 0 []).MovesNext [] ∧
      ({ bench 1 0 2 0 [] with agenda := [.engine] } : Engine 32).MovesNext [] ∧
      (bench 1 0 2 0 []).prog.length ≤ (bench 1 0 2 0 []).core.pc ∧
      ({ bench 1 0 2 0 [] with prog := [0, 0, 0, 0] } : Engine 32).prog.length ≤ (bench 1 0 2 0 []).core.pc :=
  ⟨⟨rfl, rfl, rfl⟩, .inl ⟨rfl, rfl⟩, .inr rfl, by decide, by decide⟩

/-- The lowest and the highest illegal opcode. -/
theorem test_witness_UnknownOpcodeFaults :
    (benchAt 0x0000000C).CanCycle ∧ (benchAt 0x0000000C).MovesNext [] ∧
      (benchAt 0x0000000C).prog[(benchAt 0x0000000C).core.pc]? = some 0x0000000C ∧
      (∀ r ∈ (benchAt 0x0000000C).cfg.archTable, r.opcode ≠ (unpack 0x0000000C).op.toNat) ∧
      ∀ r ∈ (benchAt 0x0000000C).cfg.archTable, r.opcode ≠ (unpack 0xFFFFFFFF).op.toNat :=
  ⟨⟨rfl, rfl, rfl⟩, .inl ⟨rfl, rfl⟩, rfl, by decide, by decide⟩

/-- An engine with both channels, a renderer blocked on a receive, and HALT at `pc`. -/
def benchWithRenderer : Engine 32 :=
  { benchAt 0 with input := some ⟨[5], true⟩, output := some ⟨[], true, true, []⟩ }

theorem test_witness_EndOfRunClosesChannelsAndReports :
    benchWithRenderer.core.runState = .running ∧ benchWithRenderer.MovesNext [] ∧
      ∃ e', step ⟨32, benchWithRenderer⟩ = .next ⟨32, e'⟩ ∧ e'.core.Ended := ⟨rfl, .inl ⟨rfl, rfl⟩, _, rfl, .inl rfl⟩

/-- Halted, Faulted, and a termination taken in Running. -/
theorem test_witness_NothingHappensAfterTheEnd :
    (benchAt 0).enterHalted.Stopped ∧ ((benchAt 0).raiseFault .memOutOfRange).Stopped ∧
      ((benchAt 0).terminate true).Stopped := ⟨.inl (.inl rfl), .inl (.inr rfl), .inr rfl⟩

theorem test_witness_ProgramIsNeverMutated : (benchAt 0).core.runState ≠ .ready := by decide

/-- The turns `turns` for an engine in Ready. -/
def readyWith (turns : List (Turn 32)) : Engine 32 := { Engine.fresh Config.reference with agenda := turns }

theorem test_witness_LoadIsAcceptedInReadyOnly :
    ((readyWith [.host (.load [1])]).agenda = .host (.load [1]) :: [] ∧
        (readyWith [.host (.load [1])]).core.runState = .ready ∧ (readyWith [.host (.load [1])]).terminated = false ∧
        (readyWith [.host (.load [1])]).bootFailed = false) ∧
      ({ benchAt 0 with agenda := [.host (.load [1])] } : Engine 32).agenda = .host (.load [1]) :: [] ∧
        (benchAt 0).core.runState ≠ .ready := ⟨⟨rfl, rfl, rfl, rfl⟩, rfl, by decide⟩

theorem test_witness_ImagesAndSourcesLoadTheirPrograms :
    programOfImage [0x02, 0x01, 0x05, 0x00] = some [0x00050102] ∧
      assemble ArchTable.reference "HALT".toList = .ok [0] ∧
      assemble ArchTable.reference "FOO r1".toList = .error ⟨1, .unknownMnemonic⟩ ∧ programOfImage [1, 2, 3] = none ∧
      (readyWith []).core.runState = .ready ∧ (readyWith []).terminated = false ∧ (readyWith []).bootFailed = false := by
  decide

theorem test_witness_RunIsRefusedAfterFailedBoot :
    ({ readyWith [.host .run] with bootFailed := true } : Engine 32).agenda = .host .run :: [] ∧
      ({ readyWith [.host .run] with bootFailed := true } : Engine 32).bootFailed = true := ⟨rfl, rfl⟩

theorem test_witness_RunIsAcceptedInReadyOnly :
    ((readyWith [.host .run]).agenda = .host .run :: [] ∧ (readyWith [.host .run]).core.runState = .ready ∧
        (readyWith [.host .run]).terminated = false ∧ (readyWith [.host .run]).bootFailed = false) ∧
      ({ benchAt 0 with agenda := [.host .run] } : Engine 32).agenda = .host .run :: [] ∧
        (benchAt 0).core.runState ≠ .ready := ⟨⟨rfl, rfl, rfl, rfl⟩, rfl, by decide⟩

theorem test_witness_TerminationStopsTheEngine :
    (readyWith [.host (.terminate true), .engine]).terminated = false ∧
      (readyWith [.host (.terminate true), .engine]).agenda = .host (.terminate true) :: [.engine] ∧
      (readyWith [.host (.terminate false)]).terminated = false ∧
      (readyWith [.host (.terminate false)]).agenda = .host (.terminate false) :: [] := ⟨rfl, rfl, rfl, rfl⟩

theorem test_witness_DebugServicesOnlyRead :
    (readyWith [.host .dumpCore]).agenda = .host .dumpCore :: [] ∧
      (readyWith [.host (.disassemble 0x00000004)]).agenda = .host (.disassemble 0x00000004) :: [] := ⟨rfl, rfl⟩

/-- A `load` in Ready, and a receive in Running. -/
theorem test_witness_OutsideAgentsNeverWriteMachineState :
    (Turn.host (.load [1]) : Turn 32) ≠ .engine ∧ (∃ e', step ⟨32, readyWith [.host (.load [1])]⟩ = .next ⟨32, e'⟩) ∧
      (benchAt 0).core.runState ≠ .ready ∧
      ∃ e', step ⟨32, { benchAt 0 with agenda := [.renderer .receiveSnapshot] }⟩ = .next ⟨32, e'⟩ :=
  ⟨by decide, ⟨_, rfl⟩, by decide, _, rfl⟩

/-- An engine that owes a snapshot to a channel of capacity `n`. -/
def owing (n : Nat) (ch : OutChannel 32) : Engine 32 :=
  { benchAt 0 with cfg := { Config.reference with hasOutput := true, outputCapacity := some n },
                   output := some ch, snapshotDue := true }

/-- A blocked receiver; a channel of capacity 1 with room; the same channel full. -/
theorem test_witness_SnapshotSendNeverChangesEngineState :
    ((owing 0 ⟨[], true, true, []⟩).core.runState = .running ∧ (owing 0 ⟨[], true, true, []⟩).terminated = false ∧
        (owing 0 ⟨[], true, true, []⟩).snapshotDue = true ∧ (owing 0 ⟨[], true, true, []⟩).MovesNext [] ∧
        (owing 0 ⟨[], true, true, []⟩).output = some ⟨[], true, true, []⟩) ∧
      (∀ n, (owing 1 ⟨[], true, false, []⟩).cfg.outputCapacity = some n → ([] : List (MachineState 32)).length < n) ∧
      ∃ n, (owing 1 ⟨[(benchAt 0).core], true, false, []⟩).cfg.outputCapacity = some n ∧ n ≤ [(benchAt 0).core].length :=
  ⟨⟨rfl, rfl, rfl, .inl ⟨rfl, rfl⟩, rfl⟩, fun n h => by cases h; decide, 1, rfl, by decide⟩

/-- An engine that owes a snapshot to a full channel, the renderer about to receive. -/
def blockedSend : Engine 32 :=
  { owing 1 ⟨[(benchAt 0).core], true, false, []⟩ with agenda := [.renderer .receiveSnapshot, .engine] }

theorem blockedSend_inv : blockedSend.Inv where
  mem_wf := rfl
  mem_within := rfl
  halt_flag := by decide
  fault_cause := by decide
  input_present := rfl
  output_present := rfl
  ended_input_closed _ _ h := by cases h
  output_open ch h := by
    cases h
    exact ⟨fun _ he => he.elim (fun h => by cases h) (fun h => by cases h), fun _ => rfl⟩
  output_sound ch h := by
    cases h
    exact { waiting_empty := fun h => (by cases h), capacity_kept := fun n h => by cases h; exact Nat.le_refl 1 }
  due_running _ := ⟨rfl, rfl⟩
  boot_failed h := by cases h

theorem test_witness_ReceiveUnblocksSend :
    blockedSend.Inv ∧ blockedSend.snapshotDue = true ∧ blockedSend.terminated = false ∧
      blockedSend.agenda = [.renderer .receiveSnapshot, .engine] := ⟨blockedSend_inv, rfl, rfl, rfl⟩

/-- An IN on an empty open channel, the renderer about to send 0x41. -/
theorem test_witness_EventLiftsInputWait :
    (let e := { benchAt 0x00000430 with input := some ⟨[], true⟩, agenda := [.engine, .renderer (.sendEvent 0x41 false)] }
     e.CanCycle ∧ e.prog[e.core.pc]? = some 0x00000430 ∧
       decodeWith e.cfg.archTable 0x00000430 = .ok (.instr (.inp 4)) ∧ e.input = some ⟨[], true⟩ ∧ e.output = none ∧
       e.agenda = [.engine, .renderer (.sendEvent 0x41 false)]) := ⟨⟨rfl, rfl, rfl⟩, rfl, rfl, rfl, rfl, rfl⟩

theorem test_witness_SnapshotsArriveInSendOrder :
    blockedSend.Inv ∧ (∃ e', step ⟨32, blockedSend⟩ = .next ⟨32, e'⟩) ∧
      blockedSend.output = some ⟨[(benchAt 0).core], true, false, []⟩ := ⟨blockedSend_inv, ⟨_, rfl⟩, rfl⟩

theorem test_witness_EventsArriveInSendOrder :
    (∃ e', step ⟨32, benchWithRenderer⟩ = .next ⟨32, e'⟩) ∧ benchWithRenderer.input = some ⟨[5], true⟩ ∧
      ({ benchWithRenderer with agenda := [.renderer (.sendEvent 6 false)] } : Engine 32).agenda =
        .renderer (.sendEvent 6 false) :: [] := ⟨⟨_, rfl⟩, rfl, rfl⟩

theorem test_witness_ResetValues :
    (let cfg : Config 32 := { Config.reference with memWords := 1, memInit := [(0, 5)], hasInput := true, hasOutput := true }
     cfg.archTable.wellFormed = true ∧ parametersInRange cfg = true) := by decide

/-- The reference configuration with the table `t`. -/
def cfgWith (t : ArchTable) : Config 32 := { Config.reference with archTable := t }

theorem test_witness_IllFormedTableHasNoEngine :
    ((cfgWith [row "A" 4 [], row "B" 4 []]).archTable[0]? = some (row "A" 4 []) ∧
        (cfgWith [row "A" 4 [], row "B" 4 []]).archTable[1]? = some (row "B" 4 []) ∧
        0 ≠ 1 ∧ (row "A" 4 []).opcode = (row "B" 4 []).opcode) ∧
      (row "ADD" 4 []).key = (row "add" 5 []).key ∧
      (cfgWith [row "add" 4 []]).archTable[0]? = some (row "add" 4 []) ∧ (row "add" 4 []).mnemonic.toList ≠ (row "add" 4 []).key ∧
      (⟨some "A", none, some "A", some [], some "", some (.reference .add)⟩ : SourceRecord).opcode = none ∧
      ArchTable.ofSource [⟨some "a", some 4, some "A", some [], some "", some (.reference .add)⟩] = some [row "A" 4 []] ∧
      (cfgWith [row "A" 256 []]).archTable[0]? = some (row "A" 256 []) ∧ 255 < (row "A" 256 []).opcode := by decide

theorem test_witness_EveryStepKeepsTheInvariant :
    blockedSend.Inv ∧ ∃ t, step ⟨32, blockedSend⟩ = .next t := ⟨blockedSend_inv, _, rfl⟩

theorem test_witness_ConstructionGivesTheInvariant : ∃ s, State.construct Config.reference = .next s := by
  have h1 : ArchTable.wellFormed Config.reference.archTable = true := by decide
  have h2 : parametersInRange Config.reference = true := by decide
  exact ⟨_, by simp only [State.construct, h1, h2]; rfl⟩

/-- `pc` at 65535, beyond the end of the Program. -/
theorem test_witness_PcStaysInBound :
    (let e := { bench 1 0 2 0 [] with core := { (bench 1 0 2 0 []).core with pc := 65535 } }
     ReferenceOperations e.cfg.archTable ∧ e.PcBounded ∧ ∃ t, step ⟨32, e⟩ = .next t) :=
  ⟨by unfold ReferenceOperations; decide, by unfold Engine.PcBounded; decide, _, rfl⟩

theorem test_witness_OneWordPerInstructionLine : ∃ p, assemble ArchTable.reference "HALT".toList = .ok p :=
  ⟨[0], by decide⟩

theorem test_witness_DuplicateLabelIsRefused :
    ¬ ((sourceLines "a:\na:\nHALT".toList).filterMap SourceLine.label).Nodup := by decide

end Sys2Proof.Tests
end

section
/-! Construction of an engine (00_scope.md R6, 10_state.md R33, 70_reset_and_hazards.md R260): when it succeeds and what
it gives, and that the reference configuration passes its checks. -/

namespace Sys2Proof.Machine

variable {w : Nat}

/-- Construction succeeds exactly for a well-formed table and parameters within their constraints (10_state.md R33,
00_scope.md R6), and then gives the fresh engine. -/
theorem State.construct_eq_next_iff (cfg : Config w) (s : State) :
    State.construct cfg = .next s ↔
      cfg.archTable.wellFormed = true ∧ parametersInRange cfg = true ∧ s = ⟨w, Engine.fresh cfg⟩ := by
  unfold State.construct
  cases cfg.archTable.wellFormed with
  | false => simp
  | true =>
    cases parametersInRange cfg with
    | false => simp
    | true => simp [eq_comm]

theorem reference_archTable_wellFormed : Config.reference.archTable.wellFormed = true := by decide

theorem reference_parametersInRange : parametersInRange Config.reference = true := by decide

theorem construct_reference_eq_reset : State.construct Config.reference = .next State.reset :=
  (State.construct_eq_next_iff _ _).mpr ⟨reference_archTable_wellFormed, reference_parametersInRange, rfl⟩

/-- MEM_INIT of the reference configuration lists no cell, so every cell reads as 0 (00_scope.md R6, log entry 2). -/
theorem read_reset_mem (a : Nat) : Memory.read State.reset.engine.core.mem a = 0 :=
  Memory.read_nil a

/-- Settles O52: construction accepts the reference configuration, no cell of the reset memory is listed, and the
other reset values are fields of that configuration. -/
theorem resetIsTheReferenceConfiguration : Obligations.ResetIsTheReferenceConfiguration := by
  have hxlen : State.reset.xlen = 32 := rfl
  have hwords : State.reset.engine.cfg.memWords = 256 := rfl
  have htable : State.reset.engine.cfg.archTable = ArchTable.reference := rfl
  have hinput : State.reset.engine.input = none := rfl
  have houtput : State.reset.engine.output = none := rfl
  exact ⟨construct_reference_eq_reset, hxlen, hwords, read_reset_mem, htable, hinput, houtput⟩

end Sys2Proof.Machine
end

section
/-! What every step keeps, said once: the frame of a cycle, and that a property which each kind of turn keeps holds after
any number of steps. -/

namespace Sys2Proof.Machine

variable {w : Nat}

/-! ### A cycle does what a described operation can do, or finds an unknown opcode -/

/-- What an instruction can do is among what a described operation can do: writes to what exists and a next-pc action, an
event taken before them, a fault, or a wait (40_execution_loop.md R137). -/
theorem Executes.operates {e e' : Engine w} (h : Executes e e') : Operates e e' := by
  have hnone : CellsExist e.cfg.memWords ([] : List (Write w)) := by simp [CellsExist]
  have hregister (rd : RegIndex) (v : Word w) : CellsExist e.cfg.memWords [.register rd v] := by simp [CellsExist]
  cases h with
  | register rd v => exact .completes _ .next (hregister rd v)
  | cell a v ha =>
    have hcell : CellsExist e.cfg.memWords [.cell a v] := by simpa [CellsExist] using ha
    exact .completes _ .next hcell
  | next => exact .completes _ .next hnone
  | jump t _ => exact .completes _ (.jump t) hnone
  | halt => exact .completes _ .halt hnone
  | fault c hc => exact .fault c (hc.imp_right .inr)
  | wait => exact .wait
  | receive rd v hv => exact .takes v _ .next hv (hregister rd v)

theorem Cycles.operates_or_unknownOpcode {e e' : Engine w} (h : Cycles e e') :
    Operates e e' ∨ e' = e.raiseFault .unknownOpcode := by
  cases h with
  | endOfProgram _ => exact .inl Executes.halt.operates
  | unknownOpcode _ _ _ _ => exact .inr rfl
  | instruction _ _ _ _ _ _ he => exact .inl he.operates
  | operation _ _ _ _ _ _ _ he => exact .inl he

/-! ### The frame of a cycle -/

/-- Taking an event and the end of an instruction leave everything outside MachineState and the input channel. -/
theorem Operates.outsideSame {e e' : Engine w} (h : Operates e e') : Engine.OutsideSame e e' := by
  cases h with
  | completes ws nx _ => cases nx <;> exact ⟨rfl, rfl, rfl, rfl, rfl, rfl, rfl, rfl, rfl⟩
  | takes v ws nx _ _ => cases nx <;> exact ⟨rfl, rfl, rfl, rfl, rfl, rfl, rfl, rfl, rfl⟩
  | fault c _ => exact (e.raiseFault_frame c).outside
  | wait => exact ⟨rfl, rfl, rfl, rfl, rfl, rfl, rfl, rfl, rfl⟩

theorem Cycles.outsideSame {e e' : Engine w} (h : Cycles e e') : Engine.OutsideSame e e' := by
  obtain hop | rfl := h.operates_or_unknownOpcode
  · exact hop.outsideSame
  · exact (e.raiseFault_frame _).outside

/-- A cycle may take an event, but the input channel stays present or absent (10_state.md R36). -/
theorem Cycles.input_isSome {e e' : Engine w} (h : Cycles e e') : e'.input.isSome = e.input.isSome := by
  obtain hop | rfl := h.operates_or_unknownOpcode
  · cases hop with
    | completes ws nx _ => cases nx <;> rfl
    | takes v ws nx _ _ => cases nx <;> simp
    | fault c _ => rfl
    | wait => rfl
  · rfl

/-- The next-pc action keeps the run state or enters Halted (40_execution_loop.md R139). -/
theorem Engine.advance_runState (e : Engine w) (nx : NextPc) :
    (e.advance nx).core.runState = e.core.runState ∨ (e.advance nx).core.Ended := by
  cases nx with
  | next => exact .inl rfl
  | jump t => exact .inl rfl
  | halt => exact .inr (.inl rfl)

/-- A cycle keeps the run state or ends the run. -/
theorem Cycles.runState {e e' : Engine w} (h : Cycles e e') :
    e'.core.runState = e.core.runState ∨ e'.core.Ended := by
  obtain hop | rfl := h.operates_or_unknownOpcode
  · cases hop with
    | completes ws nx _ => simpa using (e.commit ws).advance_runState nx
    | takes v ws nx _ _ => simpa using (e.recvInput.commit ws).advance_runState nx
    | fault c _ => exact .inr (.inr rfl)
    | wait => exact .inl rfl
  · exact .inr (.inr rfl)

/-- The try of an owed send touches the output channel and the mark alone (60_exceptions.md R241). -/
theorem Engine.trySend_frame (e : Engine w) : ∃ o d, e.trySend = { e with output := o, snapshotDue := d } := by
  obtain ⟨-, h⟩ | ⟨-, ch', -, -, h⟩ | ⟨-, -, -, h⟩ := e.trySend_cases
  · exact ⟨e.output, false, h⟩
  · exact ⟨some ch', false, h⟩
  · exact ⟨e.output, e.snapshotDue, h⟩

/-! ### What each kind of turn keeps, every step keeps -/

/-- Each kind of turn keeps `P`, and so does taking a turn off the agenda. -/
structure KeptByTurns (P : Engine w → Prop) : Prop where
  popTurn : ∀ e, P e → P e.popTurn
  send : ∀ e, P e → P e.trySend
  cycle : ∀ e e', P e → e.core.runState = .running → e.snapshotDue = false → Cycles e e' → P e'.boundary
  host : ∀ e e', P e → HostCalls e e' → P e'
  renderer : ∀ e a, P e → P (e.rendererAct a)

/-- A property of the parameters, MachineState and the Program is kept by every turn where cycles and host calls keep it:
sends, boundaries and the renderer touch none of the three. -/
theorem KeptByTurns.of_cfg_core_prog (Q : Config w → MachineState w → Program → Prop)
    (hcycle : ∀ e e' : Engine w, Q e.cfg e.core e.prog → e.core.runState = .running → Cycles e e' →
      Q e'.cfg e'.core e'.prog)
    (hhost : ∀ e e' : Engine w, Q e.cfg e.core e.prog → HostCalls e e' → Q e'.cfg e'.core e'.prog) :
    KeptByTurns fun e : Engine w => Q e.cfg e.core e.prog where
  popTurn _ h := h
  send e h := by
    obtain ⟨o, d, hsend⟩ := e.trySend_frame
    rw [hsend]
    exact h
  cycle e e' h hr _ hc := by simpa using hcycle e e' h hr hc
  host := hhost
  renderer e a h := by
    obtain ⟨i, o, hact, -, -⟩ := e.rendererAct_frame a
    rw [hact]
    exact h

section
variable {P : Engine w → Prop}

theorem KeptByTurns.engineTurn (hP : KeptByTurns P) {e e' : Engine w} (he : P e) (h : EngineTurns e e') : P e' := by
  cases h with
  | idle _ => exact he
  | send _ _ _ => exact hP.send e he
  | cycle e1 hr _ hd hc => exact hP.cycle e e1 he hr hd hc

theorem KeptByTurns.steps (hP : KeptByTurns P) {e e' : Engine w} (he : P e) (h : Steps e e') : P e' := by
  cases h with
  | alone _ _ h => exact hP.engineTurn he h
  | engine _ _ _ h => exact hP.engineTurn (hP.popTurn e he) h
  | host c _ _ h => exact hP.host _ _ (hP.popTurn e he) h
  | renderer a _ _ => exact hP.renderer _ a (hP.popTurn e he)

/-- A run of `k + 1` steps whose first step answers `t` is a run of `k` steps from `t`. -/
theorem core_run_succ {s t : State} (k : Nat) (h : step s = .next t) :
    Host.Core.run Sys2Proof.core (k + 1) s = Host.Core.run Sys2Proof.core k t := by
  have hcore : Sys2Proof.core.step s = .next t := h
  simp only [Host.Core.run, hcore]

/-- What each kind of turn keeps holds after any number of steps, which all answer next states of the same width. -/
theorem KeptByTurns.runsTo (hP : KeptByTurns P) (k : Nat) {e : Engine w} (he : P e) : RunsTo k e P := by
  induction k generalizing e with
  | zero => exact ⟨e, rfl, he⟩
  | succ k ih =>
    obtain ⟨e1, hstep, hs⟩ := step_steps e
    obtain ⟨e2, hrun, he2⟩ := ih (hP.steps he hs)
    exact ⟨e2, (core_run_succ k hstep).trans hrun, he2⟩

end

end Sys2Proof.Machine
end

section
/-! The invariant of the engine (10_state.md R29, R30, R36, 20_memory.md R51, 60_exceptions.md R241, R242): MachineState,
the output channel and the boundary after a cycle, each kept on its own, then the step. -/

namespace Sys2Proof.Machine

variable {w : Nat}

/-! ### MachineState -/

/-- The part of `Engine.Inv` about MachineState alone, for a memory of `cells` cells. -/
structure MachineState.Sound (cells : Nat) (m : MachineState w) : Prop where
  mem_wf : Memory.wf m.mem = true
  mem_within : Memory.within cells m.mem = true
  halt_flag : m.flags.halt = true ↔ m.runState = .halted
  fault_cause : m.faultCause ≠ .none ↔ m.runState = .faulted

theorem Engine.Inv.core_sound {e : Engine w} (h : e.Inv) : e.core.Sound e.cfg.memWords :=
  ⟨h.mem_wf, h.mem_within, h.halt_flag, h.fault_cause⟩

theorem MachineState.Sound.applyAll {cells : Nat} {m : MachineState w} (h : m.Sound cells) {ws : List (Write w)}
    (hws : CellsExist cells ws) : (ws.foldl MachineState.apply m).Sound cells := by
  obtain ⟨hwf, hwithin⟩ := MachineState.applyAll_mem cells ws hws m h.mem_wf h.mem_within
  have hflags : (ws.foldl MachineState.apply m).flags = m.flags := applyAll_frame _ apply_flags ws m
  have hrun : (ws.foldl MachineState.apply m).runState = m.runState := applyAll_frame _ apply_runState ws m
  have hcause : (ws.foldl MachineState.apply m).faultCause = m.faultCause := applyAll_frame _ apply_faultCause ws m
  exact ⟨hwf, hwithin, by rw [hflags, hrun]; exact h.halt_flag, by rw [hcause, hrun]; exact h.fault_cause⟩

/-- The next-pc action writes `pc`, or in a run enters Halted with no fault cause recorded (10_state.md R29, R30). -/
theorem Engine.advance_sound {cells : Nat} {e : Engine w} (h : e.core.Sound cells) (hr : e.core.runState = .running)
    (nx : NextPc) : (e.advance nx).core.Sound cells := by
  cases nx with
  | next => exact ⟨h.mem_wf, h.mem_within, h.halt_flag, h.fault_cause⟩
  | jump t => exact ⟨h.mem_wf, h.mem_within, h.halt_flag, h.fault_cause⟩
  | halt =>
    have hcause : e.core.faultCause = .none := by simpa [hr] using h.fault_cause
    exact ⟨h.mem_wf, h.mem_within, by simp, by simp [hcause]⟩

/-- Fault entry in a run records a cause, and HALT is not 1 (10_state.md R29, R30). -/
theorem Engine.raiseFault_sound {cells : Nat} {e : Engine w} (h : e.core.Sound cells)
    (hr : e.core.runState = .running) {c : FaultCause} (hc : c ≠ .none) : (e.raiseFault c).core.Sound cells := by
  have hhalt : e.core.flags.halt = false := by simpa [hr] using h.halt_flag
  exact ⟨h.mem_wf, h.mem_within, by simp [hhalt], by simp [hc]⟩

theorem FaultCause.OfOperation.ne_none {c : FaultCause} (h : c.OfOperation) : c ≠ .none := by
  obtain rfl | rfl | rfl := h <;> decide

theorem Cycles.core_sound {e e' : Engine w} (h : Cycles e e') (hs : e.core.Sound e.cfg.memWords)
    (hr : e.core.runState = .running) : e'.core.Sound e.cfg.memWords := by
  obtain hop | rfl := h.operates_or_unknownOpcode
  · cases hop with
    | completes ws nx hws => exact Engine.advance_sound (hs.applyAll hws) (by simpa using hr) nx
    | takes v ws nx _ hws =>
      have hcommit : (e.recvInput.commit ws).core.Sound e.cfg.memWords := hs.applyAll hws
      exact Engine.advance_sound hcommit (by simpa using hr) nx
    | fault c hc => exact Engine.raiseFault_sound hs hr hc.ne_none
    | wait => exact hs
  · exact Engine.raiseFault_sound hs hr (by decide)

/-! ### The output channel -/

/-- A send that is taken needs a waiting renderer or room in the queue (60_exceptions.md R241). -/
theorem OutChannel.Sound.send {cap : Option Nat} {ch ch' : OutChannel w} (h : ch.Sound cap) {m : MachineState w}
    (hs : ch.send? cap m = some ch') : ch'.Sound cap ∧ ch'.isOpen = ch.isOpen := by
  obtain ⟨-, rfl⟩ | ⟨hw, hroom, rfl⟩ := OutChannel.send?_some ch ch' cap m hs
  · exact ⟨⟨by simp, h.capacity_kept⟩, rfl⟩
  · refine ⟨⟨by simp [hw], fun n hn => ?_⟩, rfl⟩
    have hlt : ch.queue.length < n := by simpa [OutChannel.hasRoom, hn] using hroom
    simpa using hlt

/-- A renderer blocks on a receive only with nothing to receive and an open channel (60_exceptions.md R240). -/
theorem OutChannel.Sound.receive {cap : Option Nat} {ch : OutChannel w} (h : ch.Sound cap) :
    ch.receive.Sound cap ∧ ch.receive.isOpen = ch.isOpen := by
  obtain ⟨-, hr⟩ | ⟨hw, m, rest, hq, hr⟩ | ⟨-, hq, ho, hr⟩ | ⟨hw, -, -, hr⟩ := ch.receive_cases <;> rw [hr]
  · exact ⟨h, rfl⟩
  · refine ⟨⟨by simp [hw], fun n hn => ?_⟩, rfl⟩
    have hle : (m :: rest).length ≤ n := hq ▸ h.capacity_kept n hn
    exact Nat.le_of_succ_le hle
  · exact ⟨⟨fun _ => ⟨hq, ho⟩, h.capacity_kept⟩, rfl⟩
  · exact ⟨⟨h.waiting_empty, h.capacity_kept⟩, rfl⟩

/-- A close leaves no renderer waiting (60_exceptions.md R242). -/
theorem OutChannel.Sound.close {cap : Option Nat} {ch : OutChannel w} (h : ch.Sound cap) : ch.close.Sound cap :=
  ⟨by simp, by simpa using h.capacity_kept⟩

/-! ### Each kind of turn -/

theorem Engine.Inv.popTurn {e : Engine w} (h : e.Inv) : e.popTurn.Inv :=
  { h with }

/-- Messages to the host and the mark of a termination are not in the invariant (log entry 10). -/
theorem Engine.Inv.withMessages {e : Engine w} (h : e.Inv) (t : Bool) (ms : List (HostMessage w)) :
    Engine.Inv { e with terminated := t, hostInbox := ms } :=
  { h with }

theorem Engine.Inv.trySend {e : Engine w} (h : e.Inv) : e.trySend.Inv := by
  obtain ⟨-, hs⟩ | ⟨ch, ch', hch, hsend, hs⟩ | ⟨-, -, -, hs⟩ := e.trySend_cases <;> rw [hs]
  · exact { h with due_running := by simp }
  · obtain ⟨hsound, hopen⟩ := (h.output_sound ch hch).send hsend
    exact { h with
      output_present := by simpa [hch] using h.output_present
      output_open := by rintro _ ⟨⟩; rw [hopen]; exact h.output_open ch hch
      output_sound := by rintro _ ⟨⟩; exact hsound
      due_running := by simp }
  · exact h

theorem Engine.Inv.rendererAct {e : Engine w} (h : e.Inv) (a : RendererAct w) : (e.rendererAct a).Inv := by
  cases a with
  | sendEvent v q =>
    exact { h with
      input_present := by simpa [Engine.rendererAct] using h.input_present
      ended_input_closed := by simpa [Engine.rendererAct] using h.ended_input_closed }
  | closeInput =>
    exact { h with
      input_present := by simpa [Engine.rendererAct] using h.input_present
      ended_input_closed := by simp [Engine.rendererAct] }
  | receiveSnapshot =>
    have hchannel (ch') (hch' : e.output.map OutChannel.receive = some ch') :
        (ch'.isOpen = true ↔ ¬ e.core.Ended) ∧ ch'.Sound e.cfg.outputCapacity := by
      obtain ⟨ch, hch, rfl⟩ := Option.map_eq_some_iff.1 hch'
      obtain ⟨hsound, hopen⟩ := (h.output_sound ch hch).receive
      exact ⟨hopen ▸ h.output_open ch hch, hsound⟩
    exact { h with
      output_present := by simpa [Engine.rendererAct] using h.output_present
      output_open := fun ch' hch' => (hchannel ch' hch').1
      output_sound := fun ch' hch' => (hchannel ch' hch').2
      due_running := by simpa [Engine.rendererAct] using h.due_running }

theorem Engine.Inv.hostCall {e e' : Engine w} (h : e.Inv) (hc : HostCalls e e') : e'.Inv := by
  cases hc with
  | refused => exact h
  | answer m => exact h.withMessages e.terminated _
  | terminate ms _ => exact h.withMessages true _
  | load p _ => exact { h with }
  | bootFails m ha =>
    obtain ⟨hready, -, -⟩ := e.acceptsControl_iff.1 ha
    exact { h with boot_failed := fun _ => hready }
  | run ha =>
    obtain ⟨hready, -, hboot⟩ := e.acceptsControl_iff.1 ha
    have hhalt : e.core.flags.halt = false := by simpa [hready] using h.halt_flag
    have hcause : e.core.faultCause = .none := by simpa [hready] using h.fault_cause
    have hdue : e.snapshotDue = false := by simpa [hready] using h.due_running
    exact { h with
      halt_flag := by simp [hhalt]
      fault_cause := by simp [hcause]
      ended_input_closed := by simp [MachineState.Ended]
      output_open := by simpa [MachineState.Ended, hready] using h.output_open
      due_running := by simp [hdue]
      boot_failed := by simp [hboot] }

theorem MachineState.report_of_ended {m : MachineState w} (h : m.Ended) : ∃ r, m.report = some r := by
  obtain h | h := h <;> simp [MachineState.report, h]

/-- Where the run goes on, the channels and their openness are as before the cycle, and a snapshot is owed only with an
output channel (60_exceptions.md R241). -/
theorem Engine.Inv.boundary_goesOn {e e' : Engine w} (h : e.Inv) (hr : e.core.runState = .running) (hc : Cycles e e')
    (hr' : e'.core.runState = .running) : e'.boundary.Inv := by
  have hf := hc.outsideSame
  have hs := hc.core_sound h.core_sound hr
  have hgoing : ¬ e.core.Ended := by simp [MachineState.Ended, hr]
  have hgoing' : ¬ e'.core.Ended := by simp [MachineState.Ended, hr']
  have hboot : e.bootFailed = false := by simpa [hr] using h.boot_failed
  rw [Engine.boundary_running e' hr']
  exact { hs with
    mem_within := by simpa [hf.cfg] using hs.mem_within
    input_present := by simpa [hf.cfg, hc.input_isSome] using h.input_present
    output_present := by simpa [hf.cfg, hf.output] using h.output_present
    ended_input_closed := fun hended => absurd hended hgoing'
    output_open := by simpa [hf.output, hgoing, hgoing'] using h.output_open
    output_sound := by simpa [hf.cfg, hf.output] using h.output_sound
    due_running := fun hdue => ⟨hr', (Bool.and_eq_true_iff.1 hdue).1⟩
    boot_failed := by simp [hf.bootFailed, hboot] }

/-- Where the run has ended, both channels are closed and no snapshot is owed (60_exceptions.md R242). -/
theorem Engine.Inv.boundary_ends {e e' : Engine w} (h : e.Inv) (hr : e.core.runState = .running)
    (hd : e.snapshotDue = false) (hc : Cycles e e') (hended : e'.core.Ended) : e'.boundary.Inv := by
  have hf := hc.outsideSame
  have hs := hc.core_sound h.core_sound hr
  have hboot : e.bootFailed = false := by simpa [hr] using h.boot_failed
  obtain ⟨r, hreport⟩ := MachineState.report_of_ended hended
  rw [Engine.boundary_ended e' r hreport]
  exact { hs with
    mem_within := by simpa [hf.cfg] using hs.mem_within
    input_present := by simpa [hf.cfg, hc.input_isSome] using h.input_present
    output_present := by simpa [hf.cfg, hf.output] using h.output_present
    ended_input_closed := by simp
    output_open := by simp [hended]
    output_sound := by
      simpa [hf.cfg, hf.output] using fun ch hch => (h.output_sound ch hch).close
    due_running := by simp [hf.snapshotDue, hd]
    boot_failed := by simp [hf.bootFailed, hboot] }

theorem Engine.Inv.boundary {e e' : Engine w} (h : e.Inv) (hr : e.core.runState = .running)
    (hd : e.snapshotDue = false) (hc : Cycles e e') : e'.boundary.Inv := by
  obtain hsame | hended := hc.runState
  · exact h.boundary_goesOn hr hc (hsame.trans hr)
  · exact h.boundary_ends hr hd hc hended

/-- Every kind of turn keeps the invariant. -/
theorem Engine.Inv.keptByTurns : KeptByTurns fun e : Engine w => e.Inv where
  popTurn _ h := h.popTurn
  send _ h := h.trySend
  cycle _ _ h hr hd hc := h.boundary hr hd hc
  host _ _ h hc := h.hostCall hc
  renderer _ a h := h.rendererAct a

/-- Settles O54: every kind of turn keeps the invariant, so every step does. -/
theorem everyStepKeepsTheInvariant : Obligations.EveryStepKeepsTheInvariant := by
  intro w e t hinv hstep
  obtain ⟨e', rfl, hsteps⟩ := step_inversion e t hstep
  exact Engine.Inv.keptByTurns.steps hinv hsteps

end Sys2Proof.Machine
end

section
/-! What a run never changes (10_state.md R28, R32, R33): the parameters, the Program from Running on, and the bound on
`pc`. -/

namespace Sys2Proof.Machine

variable {w : Nat}

/-! ### The parameters -/

theorem cfg_keptByTurns (cfg : Config w) : KeptByTurns fun e : Engine w => e.cfg = cfg := by
  refine .of_cfg_core_prog (fun c _ _ => c = cfg) ?cycle ?host
  case cycle => exact fun e e' h _ hc => hc.outsideSame.cfg.trans h
  case host => intro e e' h hc; cases hc <;> exact h

/-- Settles O38: no kind of turn writes the parameters, and a step always answers a next state. -/
theorem parametersNeverChange : Obligations.ParametersNeverChange :=
  fun _ e k => (cfg_keptByTurns e.cfg).runsTo k rfl

/-! ### The Program -/

/-- A cycle of a run never goes back to Ready (10_state.md R31). -/
theorem Cycles.runState_ne_ready {e e' : Engine w} (h : Cycles e e') (hr : e.core.runState = .running) :
    e'.core.runState ≠ .ready := by
  obtain hsame | hhalted | hfaulted := h.runState
  · simp [hsame, hr]
  · simp [hhalted]
  · simp [hfaulted]

/-- Only `load` sets the Program, and it is accepted in Ready alone, which no turn enters (40_execution_loop.md R142). -/
theorem prog_keptByTurns (p : Program) :
    KeptByTurns fun e : Engine w => e.prog = p ∧ e.core.runState ≠ .ready := by
  refine .of_cfg_core_prog (fun _ m q => q = p ∧ m.runState ≠ .ready) ?cycle ?host
  case cycle =>
    intro e e' ⟨hprog, _⟩ hr hc
    exact ⟨hc.outsideSame.prog.trans hprog, hc.runState_ne_ready hr⟩
  case host =>
    intro e e' h hc
    have hrefused : e.acceptsControl ≠ true := fun ha => h.2 (e.acceptsControl_iff.1 ha).1
    cases hc with
    | refused => exact h
    | answer m => exact h
    | load q ha => exact absurd ha hrefused
    | run ha => exact absurd ha hrefused
    | bootFails m ha => exact absurd ha hrefused
    | terminate ms _ => exact h

/-- Settles O39: from any state that is not Ready the only writer of the Program is refused. -/
theorem programIsNeverMutated : Obligations.ProgramIsNeverMutated :=
  fun _ e k hready => (prog_keptByTurns e.prog).runsTo k ⟨rfl, hready⟩

/-! ### The bound on `pc` -/

/-- A table of reference operations decodes no word to an operation of another table. -/
theorem decodeWith_ne_operation {t : ArchTable} (ht : ReferenceOperations t) (word : CodeWord) (p : Operation)
    (f : Fields) : decodeWith t word ≠ .ok (.operation p f) := by
  unfold decodeWith
  cases hlookup : t.lookup (unpack word).op with
  | none => simp
  | some r =>
    have hsem : referenceSem r.sem = true := ht r (List.mem_of_find?_eq_some hlookup)
    cases hr : r.sem with
    | reference o => simp [Sem.decode, hr]
    | described q => simp [hr, referenceSem] at hsem

/-- An instruction advances `pc` by 1 at most, or sets it to a 16-bit target (43_control.md R203). -/
theorem Executes.pc_le {e e' : Engine w} (h : Executes e e') :
    e'.core.pc ≤ e.core.pc + 1 ∨ e'.core.pc ≤ 65535 := by
  cases h with
  | register rd v => exact .inl le_rfl
  | cell a v _ => exact .inl le_rfl
  | next => exact .inl le_rfl
  | jump t ht => exact .inr ht
  | halt => exact .inl (Nat.le_succ _)
  | fault c _ => exact .inl (Nat.le_succ _)
  | wait => exact .inl (Nat.le_succ _)
  | receive rd v _ => exact .inl le_rfl

/-- An instruction executes below the end of the Program only, so `pc + 1` is at most its length (40_execution_loop.md
R133). -/
theorem Cycles.pcBounded {e e' : Engine w} (h : Cycles e e') (ht : ReferenceOperations e.cfg.archTable)
    (hb : e.PcBounded) : e'.PcBounded := by
  have hprog := h.outsideSame.prog
  unfold Engine.PcBounded at hb ⊢
  cases h with
  | endOfProgram _ => exact hb
  | unknownOpcode _ _ _ _ => exact hb
  | instruction word i _ hf _ _ he =>
    have hlt := e.fetch_some_lt word hf
    have hpc := he.pc_le
    rw [hprog]
    omega
  | operation word p f _ _ hd _ _ => exact absurd hd (decodeWith_ne_operation ht word p f)

theorem pcBounded_keptByTurns :
    KeptByTurns fun e : Engine w => ReferenceOperations e.cfg.archTable ∧ e.PcBounded := by
  refine .of_cfg_core_prog (fun c m p => ReferenceOperations c.archTable ∧ m.pc ≤ max p.length 65535) ?cycle ?host
  case cycle =>
    intro e e' ⟨ht, hb⟩ _ hc
    exact ⟨hc.outsideSame.cfg ▸ ht, hc.pcBounded ht hb⟩
  case host =>
    intro e e' h hc
    cases hc with
    | refused => exact h
    | answer m => exact h
    | load p _ => exact ⟨h.1, Nat.zero_le _⟩
    | run _ => exact h
    | bootFails m _ => exact h
    | terminate ms _ => exact h

theorem reset_referenceOperations : ReferenceOperations State.reset.engine.cfg.archTable := by
  show ∀ r ∈ ArchTable.reference, referenceSem r.sem = true
  decide

/-- Settles O57: `pc` is 0 at reset; a step takes it to `pc + 1` below the end of the Program, to a target, or to 0. -/
theorem pcStaysInBound : Obligations.PcStaysInBound := by
  refine ⟨reset_referenceOperations, Nat.zero_le _, ?_⟩
  intro w e t ht hb hstep
  obtain ⟨e', rfl, hsteps⟩ := step_inversion e t hstep
  exact (pcBounded_keptByTurns.steps ⟨ht, hb⟩ hsteps).2

end Sys2Proof.Machine
end

section
/-! Who writes what of MachineState: the flags (10_state.md R29), the registers (10_state.md R22), and the turns of the host
and the renderer (10_state.md R24). -/

namespace Sys2Proof.Machine

variable {w : Nat}

/-! ### The flags -/

/-- The engine with the flags register set to `f`. -/
def Engine.withFlags (e : Engine w) (f : Flags) : Engine w :=
  { e with core := { e.core with flags := f } }

/-! What an instruction reads of the state, it reads alike whatever the flags hold. -/

@[simp] theorem Engine.withFlags_x (e : Engine w) (f : Flags) (r : RegIndex) :
    (e.withFlags f).core.x r = e.core.x r := rfl

@[simp] theorem Engine.withFlags_memRead (e : Engine w) (f : Flags) (a : Nat) :
    (e.withFlags f).memRead a = e.memRead a := rfl

@[simp] theorem Engine.withFlags_memWritable (e : Engine w) (f : Flags) (a : Nat) :
    (e.withFlags f).memWritable a = e.memWritable a := rfl

@[simp] theorem Engine.withFlags_inputStatus (e : Engine w) (f : Flags) :
    (e.withFlags f).inputStatus = e.inputStatus := rfl

/-- The instruction leaves the flags, and setting them before it is setting them after it. -/
def FlagsPassThrough (i : Instr) (e : Engine w) (f : Flags) : Prop :=
  ∃ e', exec i ⟨w, e⟩ = .next ⟨w, e'⟩ ∧ e'.core.flags = e.core.flags ∧
    exec i ⟨w, e.withFlags f⟩ = .next ⟨w, e'.withFlags f⟩

/-- A control transfer writes `pc` alone, so it passes the flags through where it does not halt. -/
theorem State.conclude_transfer_flags (e : Engine w) (f : Flags) {nx : NextPc} (hnx : nx ≠ .halt) :
    ∃ e', State.conclude ⟨w, e⟩ (.ok [] nx) = .next ⟨w, e'⟩ ∧ e'.core.flags = e.core.flags ∧
      State.conclude ⟨w, e.withFlags f⟩ (.ok [] nx) = .next ⟨w, e'.withFlags f⟩ := by
  cases nx with
  | next => exact ⟨_, rfl, rfl, rfl⟩
  | jump t => exact ⟨_, rfl, rfl, rfl⟩
  | halt => exact absurd rfl hnx

theorem exec_flagsPassThrough (i : Instr) (hi : i ≠ .halt) (e : Engine w) (f : Flags) : FlagsPassThrough i e f := by
  cases i with
  | halt => exact absurd rfl hi
  | nop => exact ⟨_, rfl, rfl, rfl⟩
  | ldi rd imm => exact ⟨_, rfl, rfl, rfl⟩
  | mov rd rs => exact ⟨_, rfl, rfl, rfl⟩
  | add rd rs => exact ⟨_, rfl, rfl, rfl⟩
  | sub rd rs => exact ⟨_, rfl, rfl, rfl⟩
  | and rd rs => exact ⟨_, rfl, rfl, rfl⟩
  | or rd rs => exact ⟨_, rfl, rfl, rfl⟩
  | xor rd rs => exact ⟨_, rfl, rfl, rfl⟩
  | shl rd rs => exact ⟨_, rfl, rfl, rfl⟩
  | shr rd rs => exact ⟨_, rfl, rfl, rfl⟩
  | addi rd imm => exact ⟨_, rfl, rfl, rfl⟩
  | jmp imm => exact ⟨_, rfl, rfl, rfl⟩
  | jz rs imm =>
    have hnx : (if e.core.x rs = 0#w then .jump (branchTarget imm) else .next) ≠ NextPc.halt := by split <;> simp
    exact State.conclude_transfer_flags e f hnx
  | jnz rs imm =>
    have hnx : (if e.core.x rs ≠ 0#w then .jump (branchTarget imm) else .next) ≠ NextPc.halt := by split <;> simp
    exact State.conclude_transfer_flags e f hnx
  | ld rd rs imm =>
    simp only [FlagsPassThrough, exec, execLd, Engine.withFlags_x, Engine.withFlags_memRead]
    split <;> exact ⟨_, rfl, rfl, rfl⟩
  | st rd rs imm =>
    simp only [FlagsPassThrough, exec, execSt, Engine.withFlags_x, Engine.withFlags_memWritable]
    split <;> exact ⟨_, rfl, rfl, rfl⟩
  | inp rd =>
    simp only [FlagsPassThrough, exec, execIn, Engine.withFlags_inputStatus]
    split <;> exact ⟨_, rfl, rfl, rfl⟩

/-- Settles O29: setting other flags before an instruction that is not HALT is setting them after it. -/
theorem flagsAreNeitherReadNorWritten : Obligations.FlagsAreNeitherReadNorWritten := by
  intro w e e' i f hi hexec
  obtain ⟨e1, h1, hflags, hother⟩ := exec_flagsPassThrough i hi e f
  obtain rfl : e1 = e' := by simpa [h1] using hexec
  exact ⟨hflags, hother⟩

/-! ### The registers -/

/-- The operations that 10_state.md R22 lists as writers of a register. -/
def registerWriters : List Op :=
  [.ldi, .mov, .add, .sub, .and, .or, .xor, .shl, .shr, .addi, .ld, .inp]

/-- The register file after an instruction: as before, or a listed writer has written its dest register. -/
def RegistersAfter (i : Instr) (e e' : Engine w) : Prop :=
  e'.core.regs = e.core.regs ∨
    registerWriters.contains i.op = true ∧ ∃ v, e'.core.regs = (e.core.setX (i.fields 0).rd v).regs

theorem exec_registersAfter (i : Instr) (e : Engine w) :
    ∃ e', exec i ⟨w, e⟩ = .next ⟨w, e'⟩ ∧ RegistersAfter i e e' := by
  cases i with
  | halt => exact ⟨_, rfl, .inl rfl⟩
  | nop => exact ⟨_, rfl, .inl rfl⟩
  | ldi rd imm => exact ⟨_, rfl, .inr ⟨rfl, _, rfl⟩⟩
  | mov rd rs => exact ⟨_, rfl, .inr ⟨rfl, _, rfl⟩⟩
  | add rd rs => exact ⟨_, rfl, .inr ⟨rfl, _, rfl⟩⟩
  | sub rd rs => exact ⟨_, rfl, .inr ⟨rfl, _, rfl⟩⟩
  | and rd rs => exact ⟨_, rfl, .inr ⟨rfl, _, rfl⟩⟩
  | or rd rs => exact ⟨_, rfl, .inr ⟨rfl, _, rfl⟩⟩
  | xor rd rs => exact ⟨_, rfl, .inr ⟨rfl, _, rfl⟩⟩
  | shl rd rs => exact ⟨_, rfl, .inr ⟨rfl, _, rfl⟩⟩
  | shr rd rs => exact ⟨_, rfl, .inr ⟨rfl, _, rfl⟩⟩
  | addi rd imm => exact ⟨_, rfl, .inr ⟨rfl, _, rfl⟩⟩
  | jmp imm => exact ⟨_, rfl, .inl rfl⟩
  | jz rs imm =>
    simp only [exec, execJz]
    split <;> exact ⟨_, rfl, .inl rfl⟩
  | jnz rs imm =>
    simp only [exec, execJnz]
    split <;> exact ⟨_, rfl, .inl rfl⟩
  | ld rd rs imm =>
    simp only [exec, execLd]
    split
    · exact ⟨_, rfl, .inr ⟨rfl, _, rfl⟩⟩
    · exact ⟨_, rfl, .inl rfl⟩
  | st rd rs imm =>
    simp only [exec, execSt]
    split <;> exact ⟨_, rfl, .inl rfl⟩
  | inp rd =>
    simp only [exec, execIn]
    split
    · exact ⟨_, rfl, .inl rfl⟩
    · exact ⟨_, rfl, .inl rfl⟩
    · exact ⟨_, rfl, .inr ⟨rfl, _, rfl⟩⟩

/-- Settles O31: a changed register excludes an unchanged register file, and a write changes its own register alone. -/
theorem onlyListedInstructionsWriteRegisters : Obligations.OnlyListedInstructionsWriteRegisters := by
  intro w e e' i r hexec hchanged
  obtain ⟨e1, h1, hafter⟩ := exec_registersAfter i e
  obtain rfl : e1 = e' := by simpa [h1] using hexec
  obtain hsame | ⟨hop, v, hwrite⟩ := hafter
  · exact absurd (MachineState.x_congr hsame r) hchanged
  · refine ⟨List.contains_iff_mem.1 hop, ?_⟩
    by_contra hne
    have hother : (e.core.setX (i.fields 0).rd v).x r = e.core.x r := MachineState.x_setX_other _ v (Ne.symm hne)
    exact hchanged ((MachineState.x_congr hwrite r).trans hother)

/-! ### The turns of the host and the renderer -/

/-- Making the Program and loading it writes `pc` of MachineState alone, in Ready (40_execution_loop.md R142). -/
def LoadsOnly (e e' : Engine w) : Prop :=
  e'.core = e.core ∨ e.core.runState = .ready ∧ e'.core = { e.core with pc := 0 }

theorem Engine.load_loadsOnly (e : Engine w) (p : Program) : LoadsOnly e (e.load p) := by
  unfold Engine.load
  split
  · next ha => exact .inr ⟨(e.acceptsControl_iff.1 ha).1, rfl⟩
  · exact .inl rfl

theorem Engine.loadImage_loadsOnly (e : Engine w) (bytes : List Byte) : LoadsOnly e (e.loadImage bytes) := by
  unfold Engine.loadImage
  split
  · split
    · exact e.load_loadsOnly _
    · exact .inl rfl
  · exact .inl rfl

theorem Engine.loadSource_loadsOnly (e : Engine w) (source : Text) : LoadsOnly e (e.loadSource source) := by
  unfold Engine.loadSource
  split
  · split
    · exact e.load_loadsOnly _
    · exact .inl rfl
  · exact .inl rfl

/-- `run` writes the run state of MachineState alone, in Ready (40_execution_loop.md R143). -/
theorem Engine.run_core (e : Engine w) :
    e.run.core = e.core ∨ e.core.runState = .ready ∧ e.run.core = { e.core with runState := .running } := by
  unfold Engine.run
  split
  · next ha => exact .inr ⟨(e.acceptsControl_iff.1 ha).1, rfl⟩
  · exact .inl rfl

/-- A termination request leaves MachineState (60_exceptions.md R230). -/
@[simp] theorem Engine.terminate_core (e : Engine w) (dump : Bool) : (e.terminate dump).core = e.core := by
  unfold Engine.terminate
  split
  · rfl
  · cases dump <;> rfl

@[simp] theorem Engine.rendererAct_core (e : Engine w) (a : RendererAct w) : (e.rendererAct a).core = e.core := by
  cases a <;> rfl

/-- What a call of the host writes of MachineState: a load and a run, each in Ready, and no other call. -/
theorem Engine.hostCall_core (e : Engine w) (c : HostCall) :
    (e.hostCall c).core = e.core ∨
      e.core.runState = .ready ∧
        (((∃ p, c = .load p) ∨ (∃ bytes, c = .loadImage bytes) ∨ ∃ source, c = .loadSource source) ∧
            (e.hostCall c).core = { e.core with pc := 0 } ∨
          c = .run ∧ (e.hostCall c).core = { e.core with runState := .running }) := by
  cases c with
  | load p => exact (e.load_loadsOnly p).imp_right (And.imp_right fun h => .inl ⟨.inl ⟨p, rfl⟩, h⟩)
  | loadImage bytes =>
    exact (e.loadImage_loadsOnly bytes).imp_right (And.imp_right fun h => .inl ⟨.inr (.inl ⟨bytes, rfl⟩), h⟩)
  | loadSource source =>
    exact (e.loadSource_loadsOnly source).imp_right (And.imp_right fun h => .inl ⟨.inr (.inr ⟨source, rfl⟩), h⟩)
  | run => exact e.run_core.imp_right (And.imp_right fun h => .inr ⟨rfl, h⟩)
  | terminate dump => exact .inl (e.terminate_core dump)
  | dumpCore => exact .inl rfl
  | disassemble word => exact .inl rfl

/-- Settles O45: the renderer touches the channels alone, and of the host's calls a load and a run write MachineState. -/
theorem outsideAgentsNeverWriteMachineState : Obligations.OutsideAgentsNeverWriteMachineState := by
  intro w e e' turn rest hagenda hturn hstep
  cases turn with
  | engine => exact absurd rfl hturn
  | host c =>
    obtain rfl : ({ e with agenda := rest } : Engine w).hostCall c = e' := by
      simpa [step_host e c rest hagenda] using hstep
    simpa using ({ e with agenda := rest } : Engine w).hostCall_core c
  | renderer a =>
    obtain rfl : ({ e with agenda := rest } : Engine w).rendererAct a = e' := by
      simpa [step_renderer e a rest hagenda] using hstep
    exact .inl (by simp)

end Sys2Proof.Machine
end

section
/-! The checks of an Architecture Table (10_state.md R33, R34) and what a definition source gives. -/

namespace Sys2Proof

/-- The five checks of a table, as propositions (10_state.md R33, R34, 30_encoding.md R90). -/
theorem ArchTable.wellFormed_iff (t : ArchTable) :
    t.wellFormed = true ↔
      (t.map InstructionSpec.opcode).Nodup ∧ (t.map InstructionSpec.key).Nodup ∧
        (∀ r ∈ t, r.mnemonic.toList = r.key) ∧ (∀ r ∈ t, r.kinds.Nodup) ∧ ∀ r ∈ t, r.opcode ≤ 255 := by
  simp [ArchTable.wellFormed, ArchTable.opcodesUnique, ArchTable.mnemonicsUnique, ArchTable.mnemonicsNormalized,
    ArchTable.kindsOnce, ArchTable.opcodesInRange, and_assoc]

/-- Where all elements of a list have different images, two places with the same image are one place. -/
theorem index_eq_of_nodup_map {α β : Type} {l : List α} {g : α → β} (hl : (l.map g).Nodup) {i j : Nat} {a b : α}
    (hi : l[i]? = some a) (hj : l[j]? = some b) (hab : g a = g b) : i = j := by
  have hi' : (l.map g)[i]? = some (g a) := by simp [hi]
  have hj' : (l.map g)[j]? = some (g b) := by simp [hj]
  have hlt : i < (l.map g).length := (List.getElem?_eq_some_iff.1 hi').1
  exact (List.getElem?_inj hlt hl).1 (by rw [hi', hj', hab])

/-- A table that repeats an opcode or a mnemonic, or holds an opcode above 255 or a mnemonic that is not case-normalized,
is not well-formed (10_state.md R33 (a), (b), (d), R34). -/
theorem ArchTable.not_wellFormed {t : ArchTable} {i j : Nat} {a b : InstructionSpec} (hi : t[i]? = some a)
    (hj : t[j]? = some b)
    (h : (i ≠ j ∧ a.opcode = b.opcode) ∨ (i ≠ j ∧ a.key = b.key) ∨ 255 < a.opcode ∨ a.mnemonic.toList ≠ a.key) :
    ¬ t.wellFormed = true := by
  have ha : a ∈ t := List.mem_of_getElem? hi
  rw [ArchTable.wellFormed_iff]
  rintro ⟨hopcodes, hkeys, hnormalized, -, hrange⟩
  obtain ⟨hij, hop⟩ | ⟨hij, hkey⟩ | hbig | hmixed := h
  · exact hij (index_eq_of_nodup_map hopcodes hi hj hop)
  · exact hij (index_eq_of_nodup_map hkeys hi hj hkey)
  · exact absurd (hrange a ha) (Nat.not_le.2 hbig)
  · exact hmixed (hnormalized a ha)

/-! ### Definition sources -/

/-- A source record with a field missing is no record (10_state.md R33 (c), log entry 18). -/
theorem SourceRecord.complete?_of_missing {r : SourceRecord}
    (h : r.mnemonic = none ∨ r.opcode = none ∨ r.name = none ∨ r.kinds = none ∨ r.description = none ∨ r.sem = none) :
    r.complete? = none := by
  cases hr : r.complete? with
  | none => rfl
  | some s =>
    simp only [SourceRecord.complete?, Option.bind_eq_bind, Option.bind_eq_some_iff] at hr
    obtain ⟨m, hm, o, ho, n, hn, k, hk, d, hd, x, hx, -⟩ := hr
    simp [hm, ho, hn, hk, hd, hx] at h

/-- The records that a source gives are those of its records, one for one. -/
theorem mapM_complete?_forall₂ {src : List SourceRecord} {t : List InstructionSpec}
    (h : src.mapM SourceRecord.complete? = some t) : List.Forall₂ (fun r s => r.complete? = some s) src t := by
  induction src generalizing t with
  | nil =>
    obtain rfl : [] = t := by simpa using h
    exact .nil
  | cons r src ih =>
    simp only [List.mapM_cons, Option.bind_eq_bind, Option.bind_eq_some_iff] at h
    obtain ⟨s, hs, t', ht', heq⟩ := h
    obtain rfl : s :: t' = t := by simpa using heq
    exact .cons hs (ih ht')

/-- A source that gives a table gives a well-formed one, a record for each of its own. -/
theorem ArchTable.ofSource_eq_some {src : List SourceRecord} {t : ArchTable} (h : ArchTable.ofSource src = some t) :
    t.wellFormed = true ∧ List.Forall₂ (fun r s => r.complete? = some s) src t := by
  simp only [ArchTable.ofSource, Option.bind_eq_bind, Option.bind_eq_some_iff, Option.ite_none_right_eq_some] at h
  obtain ⟨t', hrecords, hwf, ⟨⟩⟩ := h
  exact ⟨hwf, mapM_complete?_forall₂ hrecords⟩

theorem ArchTable.ofSource_of_incomplete {src : List SourceRecord} {r : SourceRecord} (hr : r ∈ src)
    (h : r.complete? = none) : ArchTable.ofSource src = none := by
  cases ht : ArchTable.ofSource src with
  | none => rfl
  | some t =>
    obtain ⟨-, hrecords⟩ := ArchTable.ofSource_eq_some ht
    have hcomplete : ∀ r ∈ src, r.complete? ≠ none :=
      ((List.forall₂_and_left src t).1 (hrecords.imp fun r s hs => ⟨by simp [hs], hs⟩)).1
    exact absurd h (hcomplete r hr)

end Sys2Proof
end

section
/-! Construction (10_state.md R33, R34, R40): the values a constructed engine holds, and the tables that give no engine. -/

namespace Sys2Proof.Machine

variable {w : Nat}

/-! ### What a constructed engine holds -/

@[simp] theorem Engine.fresh_x (cfg : Config w) (r : RegIndex) : (Engine.fresh cfg).core.x r = 0#w := by
  simp [MachineState.x, Engine.fresh]

theorem Engine.fresh_input (cfg : Config w) :
    (Engine.fresh cfg).input = if cfg.hasInput then some ⟨[], true⟩ else none := rfl

theorem Engine.fresh_output (cfg : Config w) :
    (Engine.fresh cfg).output = if cfg.hasOutput then some ⟨[], true, false, []⟩ else none := rfl

theorem Engine.fresh_input_open (cfg : Config w) (ch : InChannel w) (h : (Engine.fresh cfg).input = some ch) :
    ch.queue = [] ∧ ch.isOpen = true := by
  rw [Engine.fresh_input, Option.ite_none_right_eq_some] at h
  obtain ⟨-, ⟨⟩⟩ := h
  exact ⟨rfl, rfl⟩

theorem Engine.fresh_output_open (cfg : Config w) (ch : OutChannel w) (h : (Engine.fresh cfg).output = some ch) :
    ch.queue = [] ∧ ch.isOpen = true := by
  rw [Engine.fresh_output, Option.ite_none_right_eq_some] at h
  obtain ⟨-, ⟨⟩⟩ := h
  exact ⟨rfl, rfl⟩

/-- Settles O51: with checks that pass, construction gives the fresh engine, whose fields are the values of R40. -/
theorem resetValues : Obligations.ResetValues := by
  intro w cfg ht hp
  have hconstruct : State.construct cfg = .next ⟨w, Engine.fresh cfg⟩ :=
    (State.construct_eq_next_iff cfg _).2 ⟨ht, hp, rfl⟩
  refine ⟨Engine.fresh cfg, hconstruct, Engine.fresh_x cfg, rfl, rfl, rfl, rfl, rfl, rfl, rfl, ?_, ?_,
    Engine.fresh_input_open cfg, Engine.fresh_output_open cfg⟩
  · cases hin : cfg.hasInput <;> simp [Engine.fresh_input, hin]
  · cases hout : cfg.hasOutput <;> simp [Engine.fresh_output, hout]

/-! ### Tables that give no engine -/

theorem State.construct_malformed {cfg : Config w} (h : ¬ cfg.archTable.wellFormed = true) :
    State.construct cfg = .fault .malformedTable := by
  simp [State.construct, h]

/-- Settles O53: each broken condition fails one check of the table, and a missing field leaves the source without a
record. -/
theorem illFormedTableHasNoEngine : Obligations.IllFormedTableHasNoEngine := by
  refine ⟨?table, ?missing, ?loaded⟩
  case table =>
    intro w cfg i j a b hi hj hbroken
    exact State.construct_malformed (ArchTable.not_wellFormed hi hj hbroken)
  case missing =>
    intro src r hr hmissing
    exact ArchTable.ofSource_of_incomplete hr (SourceRecord.complete?_of_missing hmissing)
  case loaded =>
    intro src t ht
    obtain ⟨hwf, hrecords⟩ := ArchTable.ofSource_eq_some ht
    exact ⟨hwf, hrecords.length_eq.symm⟩

end Sys2Proof.Machine
end

section
/-! The binary image (20_memory.md R57): bytes and words are each other's inverse, so an image gives the Program `p` exactly
where it is the image of `p`. -/

namespace Sys2Proof

/-! ### The bytes of a word -/

/-- A word as a number, its four bytes the digits, the first one lowest (20_memory.md R57). -/
theorem word_toNat_eq_bytes (word : CodeWord) :
    word.toNat = (word.extractLsb' 0 8).toNat + (word.extractLsb' 8 8).toNat * 2 ^ 8 +
      (word.extractLsb' 16 8).toNat * 2 ^ 16 + (word.extractLsb' 24 8).toNat * 2 ^ 24 := by
  simp only [BitVec.extractLsb'_toNat, Nat.shiftRight_eq_div_pow]
  omega

theorem wordOfBytes_bytesOfWord (word : CodeWord) :
    wordOfBytes (word.extractLsb' 0 8) (word.extractLsb' 8 8) (word.extractLsb' 16 8) (word.extractLsb' 24 8) = word := by
  ext i hi
  simp only [wordOfBytes, BitVec.getElem_or, BitVec.getElem_shiftLeft, BitVec.getElem_setWidth]
  grind

theorem bytesOfWord_wordOfBytes (b0 b1 b2 b3 : Byte) : bytesOfWord (wordOfBytes b0 b1 b2 b3) = [b0, b1, b2, b3] := by
  simp only [bytesOfWord, List.cons.injEq, and_true]
  refine ⟨?_, ?_, ?_, ?_⟩
  all_goals
    ext i hi
    simp only [wordOfBytes, BitVec.getElem_extractLsb', BitVec.getLsbD_or, BitVec.getLsbD_shiftLeft,
      BitVec.getLsbD_setWidth]
    grind

/-! ### The image of a Program -/

theorem imageOfProgram_cons (word : CodeWord) (p : Program) :
    imageOfProgram (word :: p) = bytesOfWord word ++ imageOfProgram p :=
  List.flatMap_cons

theorem programOfImage_imageOfProgram (p : Program) : programOfImage (imageOfProgram p) = some p := by
  induction p with
  | nil => rfl
  | cons word p ih =>
    rw [imageOfProgram_cons]
    simp [bytesOfWord, programOfImage, ih, wordOfBytes_bytesOfWord]

theorem imageOfProgram_of_programOfImage (bytes : List Byte) (p : Program) (h : programOfImage bytes = some p) :
    imageOfProgram p = bytes := by
  induction bytes using programOfImage.induct generalizing p with
  | case1 => cases h; rfl
  | case2 b0 b1 b2 b3 rest ih =>
    obtain ⟨q, hq, rfl⟩ := Option.map_eq_some_iff.1 h
    rw [imageOfProgram_cons, bytesOfWord_wordOfBytes, ih q hq]
    rfl
  | case3 => cases h
  | case4 => cases h
  | case5 => cases h

theorem imageOfProgram_length (p : Program) : (imageOfProgram p).length = 4 * p.length := by
  induction p with
  | nil => rfl
  | cons word p ih =>
    rw [imageOfProgram_cons, List.length_append, ih, List.length_cons]
    simp [bytesOfWord]
    omega

/-- Bytes `4i` to `4i + 3` of an image are those of word `i`. -/
theorem imageOfProgram_getElem? (p : Program) (i k : Nat) (word : CodeWord) (hk : k < 4) (h : p[i]? = some word) :
    (imageOfProgram p)[4 * i + k]? = (bytesOfWord word)[k]? := by
  induction p generalizing i with
  | nil => simp at h
  | cons first p ih =>
    have hlen : (bytesOfWord first).length = 4 := rfl
    rw [imageOfProgram_cons]
    cases i with
    | zero =>
      obtain rfl : first = word := by simpa using h
      rw [List.getElem?_append_left (by omega)]
      simp
    | succ i =>
      rw [List.getElem?_append_right (by omega), hlen, ← ih i (by simpa using h)]
      congr 1
      omega

/-- Only a truncated trailing word leaves an image without a Program (20_memory.md R57). -/
theorem programOfImage_eq_none_iff (bytes : List Byte) : programOfImage bytes = none ↔ bytes.length % 4 ≠ 0 := by
  induction bytes using programOfImage.induct with
  | case1 => simp [programOfImage]
  | case2 b0 b1 b2 b3 rest ih => simpa [programOfImage, Nat.add_assoc] using ih
  | case3 => simp [programOfImage]
  | case4 => simp [programOfImage]
  | case5 => simp [programOfImage]

/-- Settles O8: each word of the image is made of its own four bytes. -/
theorem imageOfProgramLoads : Obligations.ImageOfProgramLoads :=
  programOfImage_imageOfProgram

end Sys2Proof

namespace Sys2Proof.Machine

theorem Engine.loadImage_truncated {w : Nat} (e : Engine w) (bytes : List Byte) (ha : e.acceptsControl = true)
    (h : programOfImage bytes = none) : e.loadImage bytes = e.failBoot .loadError := by
  simp only [Engine.loadImage, ha, h, if_true]

/-- Settles O7: an image with a Program is the image of it, so its bytes are those of the Program's words. -/
theorem imageIsLittleEndianWords : Obligations.ImageIsLittleEndianWords := by
  refine ⟨?words, programOfImage_eq_none_iff, ?truncated⟩
  case words =>
    intro bytes p hp
    obtain rfl := imageOfProgram_of_programOfImage bytes p hp
    refine ⟨imageOfProgram_length p, fun i word hi => ?_⟩
    have hbyte (k : Nat) (hk : k < 4) := imageOfProgram_getElem? p i k word hk hi
    refine ⟨_, _, _, _, hbyte 0 (by decide), hbyte 1 (by decide), hbyte 2 (by decide), hbyte 3 (by decide),
      word_toNat_eq_bytes word⟩
  case truncated =>
    intro w e bytes hlen ha
    exact e.loadImage_truncated bytes ha ((programOfImage_eq_none_iff bytes).2 hlen)

end Sys2Proof.Machine
end

section
/-! A load after a store (20_memory.md R61): what LD and ST on cells that exist leave, then the read after the write. -/

namespace Sys2Proof.Machine

variable {w : Nat}

/-- ST on a cell that exists writes that cell and advances (42_memory_io.md R182). -/
theorem exec_st_of_exists (e : Engine w) (rd rs : RegIndex) (imm : Imm)
    (h : effectiveAddress (e.core.x rd) imm < e.cfg.memWords) :
    exec (.st rd rs imm) ⟨w, e⟩ =
      .next ⟨w, (e.commit [.cell (effectiveAddress (e.core.x rd) imm) (e.core.x rs)]).setPc (e.core.pc + 1)⟩ := by
  have hok := (e.memWritable_ok (effectiveAddress (e.core.x rd) imm) ()).2 h
  simp only [exec, execSt, hok]
  rfl

/-- LD of a cell that exists writes the cell's value to its dest register and advances (42_memory_io.md R181). -/
theorem exec_ld_of_exists (e : Engine w) (rd rs : RegIndex) (imm : Imm)
    (h : effectiveAddress (e.core.x rs) imm < e.cfg.memWords) :
    exec (.ld rd rs imm) ⟨w, e⟩ =
      .next ⟨w, e.conclude (registerResult rd (Memory.read e.core.mem (effectiveAddress (e.core.x rs) imm)))⟩ := by
  have hok := (e.memRead_ok (effectiveAddress (e.core.x rs) imm) _).2 ⟨h, rfl⟩
  simp only [exec, execLd, hok]
  rfl

/-- Settles O27: the store leaves the registers, so the load reads at the address it had before it. -/
theorem loadAfterStoreReadsIt : Obligations.LoadAfterStoreReadsIt := by
  intro w e sd ss ld ls simm limm hmem hst hld
  refine ⟨_, exec_st_of_exists e sd ss simm hst, _, exec_ld_of_exists _ ld ls limm hld, ?_⟩
  exact (Engine.conclude_registerResult_x _ ld _).trans (Memory.read_write e.core.mem hmem _ (e.core.x ss) _)

end Sys2Proof.Machine
end

section
/-! Noninterference of a cycle with its observers (20_memory.md R62): a cycle commutes with forgetting everything but the
parameters, MachineState, the Program and the input channel, so these four alone decide what it does to them. -/

namespace Sys2Proof.Machine

variable {w : Nat}

/-- The engine with its parameters, MachineState, Program and input channel, and all else as in a fresh engine. -/
def Engine.unobserved (e : Engine w) : Engine w :=
  { Engine.fresh e.cfg with core := e.core, prog := e.prog, input := e.input }

theorem Engine.unobserved_congr {a b : Engine w} (hcfg : a.cfg = b.cfg) (hcore : a.core = b.core)
    (hprog : a.prog = b.prog) (hinput : a.input = b.input) : a.unobserved = b.unobserved := by
  simp only [Engine.unobserved, hcfg, hcore, hprog, hinput]

/-! ### What a cycle reads -/

@[simp] theorem Engine.unobserved_cfg (e : Engine w) : e.unobserved.cfg = e.cfg := rfl
@[simp] theorem Engine.unobserved_core (e : Engine w) : e.unobserved.core = e.core := rfl
@[simp] theorem Engine.unobserved_input (e : Engine w) : e.unobserved.input = e.input := rfl
@[simp] theorem Engine.unobserved_fetch (e : Engine w) : e.unobserved.fetch = e.fetch := rfl
@[simp] theorem Engine.unobserved_memRead (e : Engine w) (a : Nat) : e.unobserved.memRead a = e.memRead a := rfl
@[simp] theorem Engine.unobserved_memWritable (e : Engine w) (a : Nat) :
    e.unobserved.memWritable a = e.memWritable a := rfl
@[simp] theorem Engine.unobserved_inputStatus (e : Engine w) : e.unobserved.inputStatus = e.inputStatus := rfl

@[simp] theorem Engine.unobserved_value (e : Engine w) (f : Fields) (event : Nat) (x : Expr) :
    e.unobserved.value f event x = e.value f event x := by
  induction x with
  | const n => rfl
  | field k => rfl
  | xlen => rfl
  | memWords => rfl
  | pc => rfl
  | event => rfl
  | register index ih => simp only [Engine.value, ih, Engine.unobserved_core]
  | cell address ih => simp only [Engine.value, ih, Engine.unobserved_memRead]
  | binary g a b iha ihb => simp only [Engine.value, iha, ihb]
  | choose c a b ihc iha ihb => simp only [Engine.value, ihc, iha, ihb]

@[simp] theorem Engine.unobserved_checkRaises (e : Engine w) (f : Fields) (event : Nat)
    (rs : List (Expr × OperationFault)) : e.unobserved.checkRaises f event rs = e.checkRaises f event rs := by
  induction rs with
  | nil => rfl
  | cons r rs ih => simp only [Engine.checkRaises, Engine.unobserved_value, ih]

@[simp] theorem Engine.unobserved_writeTo (e : Engine w) (f : Fields) (event : Nat) (d : Destination) (v : Word w) :
    e.unobserved.writeTo f event d v = e.writeTo f event d v := by
  cases d with
  | register index => simp only [Engine.writeTo, Engine.unobserved_value]
  | cell address => simp only [Engine.writeTo, Engine.unobserved_value, Engine.unobserved_memWritable]

@[simp] theorem Engine.unobserved_writesOf (e : Engine w) (f : Fields) (event : Nat) (os : List OperationWrite) :
    e.unobserved.writesOf f event os = e.writesOf f event os := by
  induction os with
  | nil => rfl
  | cons o os ih => simp only [Engine.writesOf, Engine.unobserved_value, Engine.unobserved_writeTo, ih]

@[simp] theorem Engine.unobserved_transferOf (e : Engine w) (f : Fields) (event : Nat) (t : Transfer) :
    e.unobserved.transferOf f event t = e.transferOf f event t := by
  induction t with
  | next => rfl
  | jump target => simp only [Engine.transferOf, Engine.unobserved_value]
  | halt => rfl
  | choose c a b iha ihb => simp only [Engine.transferOf, Engine.unobserved_value, iha, ihb]

@[simp] theorem Engine.unobserved_operate (e : Engine w) (p : Operation) (f : Fields) (event : Nat) :
    e.unobserved.operate p f event = e.operate p f event := by
  simp only [Engine.operate, Engine.unobserved_checkRaises, Engine.unobserved_writesOf, Engine.unobserved_transferOf]

/-! ### What a cycle does -/

/-- `run` answers a next state, and forgetting before it is forgetting after it. -/
def IgnoresObservers (run : State → Host.Outcome State Fault Refusal) (e : Engine w) : Prop :=
  ∃ e', run ⟨w, e⟩ = .next ⟨w, e'⟩ ∧ run ⟨w, e.unobserved⟩ = .next ⟨w, e'.unobserved⟩

theorem Engine.unobserved_conclude (e : Engine w) (r : ExecResult w) :
    e.unobserved.conclude r = (e.conclude r).unobserved := by
  cases r with
  | ok ws nx => cases nx <;> rfl
  | fault c => rfl
  | wait => rfl

theorem Engine.unobserved_concludeTaking (e : Engine w) (r : ExecResult w) :
    e.unobserved.concludeTaking r = (e.concludeTaking r).unobserved := by
  cases r with
  | ok ws nx => exact e.recvInput.unobserved_conclude (.ok ws nx)
  | fault c => rfl
  | wait => rfl

/-- The end of a cycle with one and the same answer: the answer has been computed from what observers do not hold. -/
theorem State.conclude_ignoresObservers (e : Engine w) (r : ExecResult w) :
    ∃ e', State.conclude ⟨w, e⟩ r = .next ⟨w, e'⟩ ∧
      State.conclude ⟨w, e.unobserved⟩ r = .next ⟨w, e'.unobserved⟩ :=
  ⟨_, rfl, by rw [State.conclude_mk, Engine.unobserved_conclude]⟩

theorem exec_ignoresObservers (i : Instr) (e : Engine w) : IgnoresObservers (exec i) e := by
  cases i with
  | halt => exact State.conclude_ignoresObservers e _
  | nop => exact State.conclude_ignoresObservers e _
  | ldi rd imm => exact State.conclude_ignoresObservers e _
  | mov rd rs => exact State.conclude_ignoresObservers e _
  | add rd rs => exact State.conclude_ignoresObservers e _
  | sub rd rs => exact State.conclude_ignoresObservers e _
  | and rd rs => exact State.conclude_ignoresObservers e _
  | or rd rs => exact State.conclude_ignoresObservers e _
  | xor rd rs => exact State.conclude_ignoresObservers e _
  | shl rd rs => exact State.conclude_ignoresObservers e _
  | shr rd rs => exact State.conclude_ignoresObservers e _
  | addi rd imm => exact State.conclude_ignoresObservers e _
  | jmp imm => exact State.conclude_ignoresObservers e _
  | jz rs imm => exact State.conclude_ignoresObservers e _
  | jnz rs imm => exact State.conclude_ignoresObservers e _
  | ld rd rs imm =>
    simp only [IgnoresObservers, exec, execLd, Engine.unobserved_core, Engine.unobserved_memRead]
    split <;> exact State.conclude_ignoresObservers e _
  | st rd rs imm =>
    simp only [IgnoresObservers, exec, execSt, Engine.unobserved_core, Engine.unobserved_memWritable]
    split <;> exact State.conclude_ignoresObservers e _
  | inp rd =>
    simp only [IgnoresObservers, exec, execIn, Engine.unobserved_inputStatus]
    split
    · exact State.conclude_ignoresObservers e _
    · exact State.conclude_ignoresObservers e _
    · exact State.conclude_ignoresObservers e.recvInput _

theorem execOperation_ignoresObservers (p : Operation) (f : Fields) (e : Engine w) :
    IgnoresObservers (execOperation p f) e := by
  simp only [IgnoresObservers, execOperation, Engine.unobserved_inputStatus, Engine.unobserved_operate]
  split
  · split
    · exact State.conclude_ignoresObservers e _
    · exact State.conclude_ignoresObservers e _
    · exact ⟨_, rfl, by rw [State.nextWith_mk, Engine.unobserved_concludeTaking]⟩
  · exact State.conclude_ignoresObservers e _

theorem cycle_ignoresObservers (e : Engine w) : IgnoresObservers State.cycle e := by
  simp only [IgnoresObservers, State.cycle, Engine.unobserved_fetch, Engine.unobserved_cfg]
  split
  · exact ⟨_, rfl, rfl⟩
  · split
    · exact ⟨_, rfl, rfl⟩
    · next d _ =>
      cases d with
      | instr i => exact exec_ignoresObservers i e
      | operation p f => exact execOperation_ignoresObservers p f e

/-- Settles O32: engines that agree on the four are the same engine once the rest is forgotten, so their cycles end in the
same engine once the rest is forgotten. -/
theorem cycleIgnoresItsObservers : Obligations.CycleIgnoresItsObservers := by
  intro w a b a' b' hcfg hcore hprog hinput ha hb
  obtain ⟨a1, ha1, haf⟩ := cycle_ignoresObservers a
  obtain ⟨b1, hb1, hbf⟩ := cycle_ignoresObservers b
  obtain rfl : a1 = a' := by simpa [ha1] using ha
  obtain rfl : b1 = b' := by simpa [hb1] using hb
  have hsame : a1.unobserved = b1.unobserved := by
    rw [Engine.unobserved_congr hcfg hcore hprog hinput] at haf
    simpa [hbf] using haf.symm
  exact ⟨by simpa using congrArg Engine.core hsame, by simpa using congrArg Engine.input hsame⟩

end Sys2Proof.Machine
end

section
/-! The channels are first in, first out (20_memory.md R66): what each kind of turn does to the queue of events and to the
snapshots ever sent. -/

namespace Sys2Proof.Machine

variable {w : Nat}

/-! ### Which turns touch the channels -/

/-- A boundary leaves both channels, or closes both (60_exceptions.md R242). -/
theorem Engine.boundary_channels (e : Engine w) :
    e.boundary.input = e.input ∧ e.boundary.output = e.output ∨
      e.boundary.input = e.input.map InChannel.close ∧ e.boundary.output = e.output.map OutChannel.close := by
  simp only [Engine.boundary]
  split
  · exact .inr ⟨rfl, rfl⟩
  · exact .inl ⟨rfl, rfl⟩

theorem HostCalls.channels {e e' : Engine w} (h : HostCalls e e') : e'.input = e.input ∧ e'.output = e.output := by
  cases h <;> exact ⟨rfl, rfl⟩

@[simp] theorem Engine.trySend_input (e : Engine w) : e.trySend.input = e.input := by
  obtain ⟨o, d, h⟩ := e.trySend_frame
  rw [h]

/-! ### Events -/

/-- From `e` to `e'` the input channel keeps its events, or loses the oldest one. -/
def Engine.TakesAtMostOne (e e' : Engine w) : Prop :=
  ∀ ch, e.input = some ch → ∃ ch', e'.input = some ch' ∧ (ch'.queue = ch.queue ∨ ∃ v, ch.queue = v :: ch'.queue)

theorem Engine.TakesAtMostOne.of_input_eq {e e' : Engine w} (h : e'.input = e.input) : e.TakesAtMostOne e' :=
  fun ch hch => ⟨ch, h.trans hch, .inl rfl⟩

/-- A cycle receives an event only where one is queued (42_memory_io.md R183). -/
theorem Operates.takesAtMostOne {e e' : Engine w} (h : Operates e e') : e.TakesAtMostOne e' := by
  cases h with
  | completes ws nx _ => exact .of_input_eq (by cases nx <;> rfl)
  | takes v ws nx hv _ =>
    intro ch hch
    obtain ⟨ch1, rest, hch1, hqueue⟩ := (e.inputStatus_event v).1 hv
    obtain rfl : ch1 = ch := by simpa [hch1] using hch
    have hinput : ((e.recvInput.commit ws).advance nx).input = some { ch1 with queue := rest } := by
      cases nx <;> simp [hch1, hqueue]
    exact ⟨_, hinput, .inr ⟨v, hqueue⟩⟩
  | fault c _ => exact .of_input_eq rfl
  | wait => exact .of_input_eq rfl

theorem Cycles.takesAtMostOne {e e' : Engine w} (h : Cycles e e') : e.TakesAtMostOne e' := by
  obtain hop | rfl := h.operates_or_unknownOpcode
  · exact hop.takesAtMostOne
  · exact .of_input_eq rfl

/-- A close leaves the queued events (42_memory_io.md R183). -/
theorem Engine.TakesAtMostOne.boundary {e e' : Engine w} (h : e.TakesAtMostOne e') : e.TakesAtMostOne e'.boundary := by
  intro ch hch
  obtain ⟨ch', hch', hqueue⟩ := h ch hch
  obtain ⟨hin, -⟩ | ⟨hin, -⟩ := e'.boundary_channels
  · exact ⟨ch', hin.trans hch', hqueue⟩
  · exact ⟨ch'.close, by simp [hin, hch'], hqueue⟩

theorem EngineTurns.takesAtMostOne {e e' : Engine w} (h : EngineTurns e e') : e.TakesAtMostOne e' := by
  cases h with
  | idle _ => exact .of_input_eq rfl
  | send _ _ _ => exact .of_input_eq e.trySend_input
  | cycle e1 _ _ _ hc => exact hc.takesAtMostOne.boundary

/-- The renderer sends an event or leaves the events (60_exceptions.md R245). -/
theorem Engine.rendererAct_queue (e : Engine w) (a : RendererAct w) (ch : InChannel w) (hch : e.input = some ch) :
    ∃ ch', (e.rendererAct a).input = some ch' ∧
      (ch'.queue = ch.queue ∨ ∃ v q, a = .sendEvent v q ∧ ch'.queue = ch.queue ++ [v]) := by
  cases a with
  | sendEvent v q =>
    refine ⟨ch.send v q, by simp [Engine.rendererAct, hch], ?_⟩
    unfold InChannel.send
    split
    · exact .inr ⟨v, q, rfl, rfl⟩
    · exact .inl rfl
  | closeInput => exact ⟨ch.close, by simp [Engine.rendererAct, hch], .inl rfl⟩
  | receiveSnapshot => exact ⟨ch, hch, .inl rfl⟩

/-- A send on an open channel queues its event, whatever the draw (42_memory_io.md R186). -/
theorem InChannel.send_of_isOpen (ch : InChannel w) (v : Word w) (q : Bool) (h : ch.isOpen = true) :
    ch.send v q = { ch with queue := ch.queue ++ [v] } := by
  simp [InChannel.send, h]

/-- Settles O50: only the renderer's send adds an event, at the end, and only a cycle takes one, the oldest. -/
theorem eventsArriveInSendOrder : Obligations.EventsArriveInSendOrder := by
  refine ⟨?step, ?send⟩
  case step =>
    intro w e e' ch hstep hch
    obtain ⟨e1, heq, hsteps⟩ := step_inversion e _ hstep
    obtain rfl : e' = e1 := by simpa using heq
    cases hsteps with
    | alone _ _ h => exact (h.takesAtMostOne ch hch).imp fun _ => And.imp_right (Or.imp_right .inr)
    | engine _ _ _ h => exact (h.takesAtMostOne ch hch).imp fun _ => And.imp_right (Or.imp_right .inr)
    | host c _ _ h => exact ⟨ch, h.channels.1.trans hch, .inl rfl⟩
    | renderer a rest ha =>
      obtain ⟨ch', hch', hkept | ⟨v, q, rfl, hsent⟩⟩ := e.popTurn.rendererAct_queue a ch hch
      · exact ⟨ch', hch', .inl hkept⟩
      · exact ⟨ch', hch', .inr (.inl ⟨v, q, rest, ha, hsent⟩)⟩
  case send =>
    intro w e ch v q rest ha hch hopen
    rw [step_renderer e _ rest ha]
    simp [Engine.rendererAct, hch, ch.send_of_isOpen v q hopen]

/-! ### Snapshots -/

/-- From `e` to `e'` the output channel keeps the snapshots ever sent, or sends one copy of the MachineState of `e`. -/
def Engine.SendsAtMostOne (e e' : Engine w) : Prop :=
  ∀ ch, e.output = some ch →
    ∃ ch', e'.output = some ch' ∧ (ch'.stream = ch.stream ∨ ch'.stream = ch.stream ++ [e.core])

theorem Engine.SendsAtMostOne.of_output_eq {e e' : Engine w} (h : e'.output = e.output) : e.SendsAtMostOne e' :=
  fun ch hch => ⟨ch, h.trans hch, .inl rfl⟩

/-- Where the output channel goes through an operation that keeps the snapshots ever sent. -/
theorem Engine.SendsAtMostOne.of_output_map {e e' : Engine w} {g : OutChannel w → OutChannel w}
    (h : e'.output = e.output.map g) (hg : ∀ ch, (g ch).stream = ch.stream) : e.SendsAtMostOne e' :=
  fun ch hch => ⟨g ch, by simp [h, hch], .inl (hg ch)⟩

/-- A send puts its snapshot behind all others; the handover to a waiting renderer does so because nothing is queued
(60_exceptions.md R241, log entry 11). -/
theorem OutChannel.Sound.stream_send {cap : Option Nat} {ch ch' : OutChannel w} (h : ch.Sound cap)
    {m : MachineState w} (hs : ch.send? cap m = some ch') : ch'.stream = ch.stream ++ [m] := by
  obtain ⟨hw, rfl⟩ | ⟨-, -, rfl⟩ := OutChannel.send?_some ch ch' cap m hs
  · obtain ⟨hempty, -⟩ := h.waiting_empty hw
    simp [OutChannel.stream, hempty, RendererMessage.snapshot?]
  · simp [OutChannel.stream]

/-- A receive moves the oldest queued snapshot behind those received. -/
@[simp] theorem OutChannel.stream_receive (ch : OutChannel w) : ch.receive.stream = ch.stream := by
  obtain ⟨-, h⟩ | ⟨-, m, rest, hq, h⟩ | ⟨-, -, -, h⟩ | ⟨-, -, -, h⟩ := ch.receive_cases <;> rw [h]
  · simp [OutChannel.stream, hq, RendererMessage.snapshot?]
  · rfl
  · simp [OutChannel.stream, RendererMessage.snapshot?]

/-- An end-of-stream is no snapshot, and a close leaves the queue (60_exceptions.md R242, log entry 11). -/
@[simp] theorem OutChannel.stream_close (ch : OutChannel w) : ch.close.stream = ch.stream := by
  unfold OutChannel.close
  split
  · simp [OutChannel.stream, RendererMessage.snapshot?]
  · rfl

theorem Engine.Inv.trySend_sendsAtMostOne {e : Engine w} (h : e.Inv) : e.SendsAtMostOne e.trySend := by
  obtain ⟨-, hs⟩ | ⟨ch, ch', hch, hsend, hs⟩ | ⟨-, -, -, hs⟩ := e.trySend_cases <;> rw [hs]
  · exact .of_output_eq rfl
  · intro ch1 hch1
    obtain rfl : ch = ch1 := by simpa [hch] using hch1
    exact ⟨ch', rfl, .inr ((h.output_sound ch hch).stream_send hsend)⟩
  · exact .of_output_eq rfl

theorem EngineTurns.sendsAtMostOne {e e' : Engine w} (h : EngineTurns e e') (hinv : e.Inv) : e.SendsAtMostOne e' := by
  cases h with
  | idle _ => exact .of_output_eq rfl
  | send _ _ _ => exact hinv.trySend_sendsAtMostOne
  | cycle e1 _ _ _ hc =>
    have hsame := hc.outsideSame.output
    obtain ⟨-, hout⟩ | ⟨-, hout⟩ := e1.boundary_channels
    · exact .of_output_eq (hout.trans hsame)
    · exact .of_output_map (hsame ▸ hout) OutChannel.stream_close

theorem Engine.rendererAct_sendsAtMostOne (e : Engine w) (a : RendererAct w) : e.SendsAtMostOne (e.rendererAct a) := by
  cases a with
  | sendEvent v q => exact .of_output_eq rfl
  | closeInput => exact .of_output_eq rfl
  | receiveSnapshot => exact .of_output_map rfl OutChannel.stream_receive

/-- Settles O49: only the engine's send adds a snapshot, and every other turn leaves those sent in their order. -/
theorem snapshotsArriveInSendOrder : Obligations.SnapshotsArriveInSendOrder := by
  intro w e e' ch hinv hstep hch
  obtain ⟨e1, heq, hsteps⟩ := step_inversion e _ hstep
  obtain rfl : e' = e1 := by simpa using heq
  cases hsteps with
  | alone _ _ h => exact h.sendsAtMostOne hinv ch hch
  | engine _ _ _ h => exact h.sendsAtMostOne hinv.popTurn ch hch
  | host c _ _ h => exact ⟨ch, h.channels.2.trans hch, .inl rfl⟩
  | renderer a _ _ => exact e.popTurn.rendererAct_sendsAtMostOne a ch hch

end Sys2Proof.Machine
end

section
/-! The fields of an instruction word (30_encoding.md R81, R82): the layout as numbers, and that `pack` and `unpack` undo each
other. -/

namespace Sys2Proof

theorem unpack_toNat (word : CodeWord) :
    (unpack word).op.toNat = word.toNat % 2 ^ 8 ∧ (unpack word).rd.toNat = word.toNat / 2 ^ 8 % 2 ^ 4 ∧
      (unpack word).rs.toNat = word.toNat / 2 ^ 12 % 2 ^ 4 ∧ (unpack word).imm.toNat = word.toNat / 2 ^ 16 := by
  simp only [unpack, BitVec.extractLsb'_toNat, Nat.shiftRight_eq_div_pow, true_and]
  omega

@[simp] theorem unpack_pack (f : Fields) : unpack (pack f) = f := by
  obtain ⟨op, rd, rs, imm⟩ := f
  simp only [unpack, Fields.mk.injEq]
  refine ⟨?_, ?_, ?_, ?_⟩
  all_goals
    ext i hi
    simp only [pack, BitVec.getElem_extractLsb', BitVec.getLsbD_or, BitVec.getLsbD_shiftLeft, BitVec.getLsbD_setWidth]
    grind

theorem unpack_injective : Function.Injective unpack := by
  intro a b hab
  obtain ⟨hop, hrd, hrs, himm⟩ := unpack_toNat a
  obtain ⟨hop', hrd', hrs', himm'⟩ := unpack_toNat b
  rw [hab] at hop hrd hrs himm
  refine BitVec.eq_of_toNat_eq ?_
  omega

theorem pack_unpack (word : CodeWord) : pack (unpack word) = word :=
  unpack_injective (unpack_pack (unpack word))

/-- The layout of `pack`: each field is the digit that `unpack` reads back. -/
theorem pack_toNat (f : Fields) :
    (pack f).toNat = f.op.toNat + f.rd.toNat * 2 ^ 8 + f.rs.toNat * 2 ^ 12 + f.imm.toNat * 2 ^ 16 := by
  obtain ⟨hop, hrd, hrs, himm⟩ := unpack_toNat (pack f)
  rw [unpack_pack] at hop hrd hrs himm
  omega

/-- Settles O1: the layout follows from reading back, since a word is determined by its fields. -/
theorem packAndUnpackAreInverse : Obligations.PackAndUnpackAreInverse :=
  ⟨pack_toNat, unpack_toNat, unpack_pack, pack_unpack⟩

end Sys2Proof
end

section
/-! Decoding and encoding (30_encoding.md R85, R86, R88, R95, 40_execution_loop.md R131, R135): what `lookup` finds, what decoding
does with each field, and that it undoes encoding. -/

namespace Sys2Proof

/-! ### Lookup -/

theorem ArchTable.lookup_eq_some {t : ArchTable} {op : Opcode} {r : InstructionSpec} (h : t.lookup op = some r) :
    r ∈ t ∧ r.opcode = op.toNat :=
  ⟨List.mem_of_find?_eq_some h, of_decide_eq_true (List.find?_some h :)⟩

theorem ArchTable.lookup_eq_none_iff {t : ArchTable} {op : Opcode} :
    t.lookup op = none ↔ ∀ r ∈ t, r.opcode ≠ op.toNat := by
  simp [ArchTable.lookup]

/-- In a well-formed table no other record has the opcode (10_state.md R33 (a)). -/
theorem ArchTable.lookup_of_mem {t : ArchTable} (ht : t.wellFormed = true) {r : InstructionSpec} (hr : r ∈ t)
    {op : Opcode} (hop : r.opcode = op.toNat) : t.lookup op = some r := by
  obtain ⟨hopcodes, -⟩ := t.wellFormed_iff.1 ht
  cases h : t.lookup op with
  | none => exact absurd hop (ArchTable.lookup_eq_none_iff.1 h r hr)
  | some s =>
    obtain ⟨hs, hsop⟩ := ArchTable.lookup_eq_some h
    rw [List.inj_on_of_nodup_map hopcodes hs hr (hsop.trans hop.symm)]

/-- In a well-formed table no other record has the mnemonic, which is case-normalized (10_state.md R33 (b), R34). -/
theorem ArchTable.lookupMnemonic_key {t : ArchTable} (ht : t.wellFormed = true) {r : InstructionSpec} (hr : r ∈ t) :
    t.lookupMnemonic r.key = some r := by
  obtain ⟨-, hkeys, hnormalized, -⟩ := t.wellFormed_iff.1 ht
  have hkey : normalizeMnemonic r.key = r.key := congrArg normalizeMnemonic (hnormalized r hr).symm
  cases h : t.lookupMnemonic r.key with
  | none => simpa [hkey] using List.find?_eq_none.1 h r hr
  | some s =>
    have hs : s.key = r.key := (of_decide_eq_true (List.find?_some h :)).trans hkey
    rw [List.inj_on_of_nodup_map hkeys (List.mem_of_find?_eq_some h) hr hs]

/-! ### Decoding a word, field by field -/

theorem decodeWith_of_lookup {t : ArchTable} {word : CodeWord} {r : InstructionSpec}
    (h : t.lookup (unpack word).op = some r) : decodeWith t word = .ok (r.sem.decode ((unpack word).named r.kinds)) := by
  simp only [decodeWith, h]

theorem decodeWith_of_lookup_none {t : ArchTable} {word : CodeWord} (h : t.lookup (unpack word).op = none) :
    decodeWith t word = .error (.unknownOpcode (unpack word).op) := by
  simp only [decodeWith, h]

/-- What is read of a word's fields are the opcode and the fields that the kinds name. -/
theorem Fields.named_congr {ks : List Kind} {f g : Fields} (hop : f.op = g.op) (hrd : Kind.D ∈ ks → f.rd = g.rd)
    (hrs : Kind.S ∈ ks → f.rs = g.rs) (himm : Kind.I ∈ ks → f.imm = g.imm) : f.named ks = g.named ks := by
  simp only [Fields.named, Fields.mk.injEq]
  exact ⟨hop, if_ctx_congr .rfl hrd fun _ => rfl, if_ctx_congr .rfl hrs fun _ => rfl, if_ctx_congr .rfl himm fun _ => rfl⟩

theorem Fields.named_eq_self {ks : List Kind} {f : Fields} (hrd : fieldNamed ks .D f.rd = true)
    (hrs : fieldNamed ks .S f.rs = true) (himm : fieldNamed ks .I f.imm = true) : f.named ks = f := by
  simp only [fieldNamed, Bool.or_eq_true, decide_eq_true_eq] at hrd hrs himm
  simp only [Fields.named]
  grind [Fields]

theorem decodeWith_congr {t : ArchTable} {a b : CodeWord} (hop : (unpack a).op = (unpack b).op)
    (hnamed : ∀ r, t.lookup (unpack a).op = some r →
      (Kind.D ∈ r.kinds → (unpack a).rd = (unpack b).rd) ∧ (Kind.S ∈ r.kinds → (unpack a).rs = (unpack b).rs) ∧
      (Kind.I ∈ r.kinds → (unpack a).imm = (unpack b).imm)) :
    decodeWith t a = decodeWith t b := by
  cases h : t.lookup (unpack a).op with
  | none => rw [decodeWith_of_lookup_none h, decodeWith_of_lookup_none (hop ▸ h), hop]
  | some r =>
    obtain ⟨hrd, hrs, himm⟩ := hnamed r h
    rw [decodeWith_of_lookup h, decodeWith_of_lookup (hop ▸ h), Fields.named_congr hop hrd hrs himm]

/-! ### Decoding undoes encoding -/

@[simp] theorem Instr.fields_op (i : Instr) (op : Opcode) : (i.fields op).op = op := by
  cases i <;> rfl

/-- The operation of an instruction reads the instruction back from its fields. -/
@[simp] theorem Instr.build_fields (i : Instr) (op : Opcode) : i.op.build (i.fields op) = i := by
  cases i <;> rfl

theorem fieldNamed_zero {n : Nat} (ks : List Kind) (k : Kind) : fieldNamed ks k 0#n = true := by
  simp [fieldNamed]

theorem Instr.named_fields {i : Instr} {ks : List Kind} (h : i.operandsNamed ks = true) (op : Opcode) :
    (i.fields op).named ks = i.fields op := by
  refine Fields.named_eq_self ?_ ?_ ?_
  all_goals cases i <;> simp_all [Instr.fields, Instr.operandsNamed, fieldNamed_zero]

theorem InstructionSpec.canEncode_iff (r : InstructionSpec) (i : Instr) :
    r.canEncode i = true ↔ r.sem = .reference i.op ∧ i.operandsNamed r.kinds = true := by
  simp [InstructionSpec.canEncode]

/-- A word made with the opcode of a record that can stand for the instruction decodes to the instruction. -/
theorem decodeWith_pack_fields {t : ArchTable} (ht : t.wellFormed = true) {r : InstructionSpec} (hr : r ∈ t) {i : Instr}
    (hcan : r.canEncode i = true) : decodeWith t (pack (i.fields (BitVec.ofNat 8 r.opcode))) = .ok (.instr i) := by
  obtain ⟨hsem, hnamed⟩ := (r.canEncode_iff i).1 hcan
  obtain ⟨-, -, -, -, hrange⟩ := t.wellFormed_iff.1 ht
  have hop : r.opcode = (BitVec.ofNat 8 r.opcode).toNat := by
    have := hrange r hr
    simp only [BitVec.toNat_ofNat]
    omega
  have hlookup : t.lookup (unpack (pack (i.fields (BitVec.ofNat 8 r.opcode)))).op = some r := by
    simpa using ArchTable.lookup_of_mem ht hr hop
  rw [decodeWith_of_lookup hlookup, unpack_pack, Instr.named_fields hnamed, hsem, Sem.decode, Instr.build_fields]

/-- Encoding takes the opcode of some record of the table that can stand for the instruction (30_encoding.md R86). -/
theorem encodeWith_of_wellFormedIn {t : ArchTable} {i : Instr} (hi : i.wellFormedIn t = true) :
    ∃ r ∈ t, r.canEncode i = true ∧ encodeWith t i = some (pack (i.fields (BitVec.ofNat 8 r.opcode))) := by
  obtain ⟨s, hs, hcan⟩ := List.any_eq_true.1 hi
  cases h : t.find? fun r => r.canEncode i with
  | none => exact absurd hcan (List.find?_eq_none.1 h s hs)
  | some r => exact ⟨r, List.mem_of_find?_eq_some h, (List.find?_some h :), by rw [encodeWith, h, Option.map_some]⟩

/-- Settles O2: the opcode of the encoding record finds that record again, and it reads back every operand. -/
theorem decodeUndoesEncodeInEveryTable : Obligations.DecodeUndoesEncodeInEveryTable := by
  intro t i ht hi
  obtain ⟨r, hr, hcan, henc⟩ := encodeWith_of_wellFormedIn hi
  exact ⟨_, henc, decodeWith_pack_fields ht hr hcan⟩

/-! ### The reference table -/

theorem reference_wellFormed : ArchTable.reference.wellFormed = true :=
  Machine.reference_archTable_wellFormed

/-- Each row of the reference table holds one of the 18 operations with its opcode and its kinds. -/
theorem reference_row {r : InstructionSpec} (hr : r ∈ ArchTable.reference) :
    ∃ o : Op, r.sem = .reference o ∧ r.opcode = o.opcode.toNat ∧ r.kinds = o.kinds := by
  simp only [ArchTable.reference, List.mem_cons, List.not_mem_nil, or_false] at hr
  rcases hr with rfl | rfl | rfl | rfl | rfl | rfl | rfl | rfl | rfl | rfl | rfl | rfl | rfl | rfl | rfl | rfl | rfl | rfl
  all_goals exact ⟨_, rfl, rfl, rfl⟩

/-- Each of the 18 operations has a row in the reference table. -/
theorem exists_reference_row (o : Op) :
    ∃ r ∈ ArchTable.reference, r.sem = .reference o ∧ r.opcode = o.opcode.toNat ∧ r.kinds = o.kinds := by
  cases o
  all_goals simp [ArchTable.reference, Op.kinds, Op.opcode]

theorem Instr.operandsNamed_kinds (i : Instr) : i.operandsNamed i.op.kinds = true := by
  cases i
  all_goals simp [Instr.operandsNamed, Instr.op, Op.kinds, fieldNamed]

theorem Instr.wellFormedIn_reference (i : Instr) : i.wellFormedIn ArchTable.reference = true := by
  obtain ⟨r, hr, hsem, -, hkinds⟩ := exists_reference_row i.op
  exact List.any_eq_true.2 ⟨r, hr, (r.canEncode_iff i).2 ⟨hsem, hkinds ▸ i.operandsNamed_kinds⟩⟩

theorem encodeWith_reference (i : Instr) : encodeWith ArchTable.reference i = some (encode i) := by
  obtain ⟨r, hr, hcan, henc⟩ := encodeWith_of_wellFormedIn i.wellFormedIn_reference
  obtain ⟨o, hsem, hop, -⟩ := reference_row hr
  obtain rfl : o = i.op := by simpa [hsem] using ((r.canEncode_iff i).1 hcan).1
  rw [henc, hop, BitVec.ofNat_toNat, BitVec.setWidth_eq, encode]

theorem decodeWith_reference_encode (i : Instr) : decodeWith ArchTable.reference (encode i) = .ok (.instr i) := by
  obtain ⟨word, henc, hdec⟩ :=
    decodeUndoesEncodeInEveryTable ArchTable.reference i reference_wellFormed i.wellFormedIn_reference
  rwa [Option.some.inj ((encodeWith_reference i).symm.trans henc)]

theorem decode_encode (i : Instr) : decode (encode i) = .ok i := by
  simp only [decode, decodeWith_reference_encode]

/-- Settles O3: the reference table is well-formed and has a row for each instruction, so O2 applies. -/
theorem decodeUndoesEncodeInReferenceTable : Obligations.DecodeUndoesEncodeInReferenceTable :=
  fun i => ⟨i.wellFormedIn_reference, encodeWith_reference i, decode_encode i⟩

/-- Under the reference table a word whose opcode has a row decodes to an instruction of the row's operation. -/
theorem decode_of_lookup {word : CodeWord} {r : InstructionSpec}
    (h : ArchTable.reference.lookup (unpack word).op = some r) : ∃ i, decode word = .ok i := by
  obtain ⟨hr, -⟩ := ArchTable.lookup_eq_some h
  obtain ⟨o, hsem, -⟩ := reference_row hr
  exact ⟨o.build ((unpack word).named r.kinds), by simp only [decode, decodeWith_of_lookup h, hsem, Sem.decode]⟩

theorem decode_of_lookup_none {word : CodeWord} (h : ArchTable.reference.lookup (unpack word).op = none) :
    decode word = .error (.unknownOpcode (unpack word).op) := by
  simp only [decode, decodeWith_of_lookup_none h]

/-- The opcode column of the reference table (30_encoding.md R88). -/
theorem reference_lookup_eq_none_iff (op : Opcode) :
    ArchTable.reference.lookup op = none ↔
      ¬ (op.toNat ≤ 0x0B ∨ (0x10 ≤ op.toNat ∧ op.toNat ≤ 0x12) ∨ op.toNat = 0x20 ∨ op.toNat = 0x21 ∨ op.toNat = 0x30) := by
  simp only [ArchTable.lookup_eq_none_iff, ArchTable.reference, List.forall_mem_cons, List.not_mem_nil,
    false_imp_iff, implies_true, and_true]
  omega

/-- Settles O5: a word decodes exactly where `lookup` finds a row for its opcode. -/
theorem referenceOpcodesLegal : Obligations.ReferenceOpcodesLegal := by
  intro word
  have hlegal := reference_lookup_eq_none_iff (unpack word).op
  cases h : ArchTable.reference.lookup (unpack word).op with
  | none =>
    have herror := decode_of_lookup_none h
    exact ⟨iff_of_false (by simp [herror]) (hlegal.1 h), fun _ => herror⟩
  | some r =>
    have hok := decode_of_lookup h
    exact ⟨iff_of_true hok (not_not.1 fun hbad => by simp [hlegal.2 hbad] at h), fun hno => absurd hok hno⟩

/-- Settles O6: each word is what its instruction encodes to. -/
theorem writtenOutWordsDecode : Obligations.WrittenOutWordsDecode :=
  ⟨decode_encode (.ldi 1 0x1234), decode_encode (.sub 1 2), decode_encode (.jz 2 5), decode_encode (.st 5 6 0xFF),
    decode_encode (.inp 4), decode_encode .halt⟩

end Sys2Proof
end

section
/-! The Assembler's passes (30_encoding.md R106 to R109): what each can answer, and the fields of the words it makes. -/

namespace Sys2Proof.Machine

/-! ### Pass 1 -/

theorem SymbolTable.address_cons (s : SymbolTable) (a : Text) (n : Nat) (name : Text) :
    SymbolTable.address ((a, n) :: s) name = if a = name then some n else s.address name := by
  simp only [SymbolTable.address, List.find?_cons]
  split <;> simp_all

/-- Where pass 1 answers a symbol table, no label is defined twice, nor one that the table before it held. -/
theorem pass1_ok {count : Nat} {syms syms' : SymbolTable} {ls : List SourceLine} (h : pass1 count syms ls = .ok syms') :
    (ls.filterMap SourceLine.label).Nodup ∧ ∀ name ∈ ls.filterMap SourceLine.label, syms.address name = none := by
  induction ls generalizing count syms with
  | nil => simp
  | cons l ls ih =>
    cases hlabel : l.label with
    | none =>
      simp only [pass1, hlabel] at h
      simpa [hlabel] using ih h
    | some name =>
      cases haddress : syms.address name with
      | some a => simp [pass1, hlabel, haddress] at h
      | none =>
        simp only [pass1, hlabel, haddress] at h
        obtain ⟨hnodup, hnew⟩ := ih h
        simp only [List.filterMap_cons, hlabel, List.nodup_cons, List.forall_mem_cons]
        grind [SymbolTable.address_cons]

/-- Pass 1 has no other error than that of a duplicate label (30_encoding.md R106). -/
theorem pass1_error {count : Nat} {syms : SymbolTable} {ls : List SourceLine} {e : AssemblyError}
    (h : pass1 count syms ls = .error e) : ∃ line name, e = ⟨line, .duplicateLabel name⟩ := by
  induction ls generalizing count syms with
  | nil => cases h
  | cons l ls ih =>
    cases hlabel : l.label with
    | none =>
      simp only [pass1, hlabel] at h
      exact ih h
    | some name =>
      cases haddress : syms.address name with
      | some a =>
        simp only [pass1, hlabel, haddress, Except.error.injEq] at h
        exact ⟨l.number, name, h.symm⟩
      | none =>
        simp only [pass1, hlabel, haddress] at h
        exact ih h

theorem assemble_of_pass1_ok {t : ArchTable} {source : Text} {syms : SymbolTable}
    (h : pass1 0 [] (sourceLines source) = .ok syms) : assemble t source = pass2 t syms (sourceLines source) := by
  simp only [assemble, h]

theorem assemble_of_pass1_error {t : ArchTable} {source : Text} {e : AssemblyError}
    (h : pass1 0 [] (sourceLines source) = .error e) : assemble t source = .error e := by
  simp only [assemble, h]

/-- Settles O60: with a label defined twice pass 1 answers no symbol table, and its only error is a duplicate label. -/
theorem duplicateLabelIsRefused : Obligations.DuplicateLabelIsRefused := by
  intro t source hdup
  cases h : pass1 0 [] (sourceLines source) with
  | ok syms => exact absurd (pass1_ok h).1 hdup
  | error e =>
    obtain ⟨line, name, rfl⟩ := pass1_error h
    exact ⟨line, name, assemble_of_pass1_error h⟩

/-! ### Pass 2 -/

theorem Except.map_ok_iff {ε α β : Type} (f : α → β) (x : Except ε α) (b : β) :
    x.map f = .ok b ↔ ∃ a, x = .ok a ∧ f a = b := by
  cases x <;> simp [Except.map]

/-- Each instruction line gives one word, any other line none. -/
theorem pass2_length {t : ArchTable} {syms : SymbolTable} {ls : List SourceLine} {p : Program}
    (h : pass2 t syms ls = .ok p) : p.length = (ls.filter fun l => l.instr.isSome).length := by
  induction ls generalizing p with
  | nil =>
    cases h
    rfl
  | cons l ls ih =>
    cases hinstr : l.instr with
    | none =>
      simp only [pass2, hinstr] at h
      simpa [hinstr] using ih h
    | some i =>
      cases hword : encodeInstr t syms i with
      | error r => simp [pass2, hinstr, hword] at h
      | ok word =>
        simp only [pass2, hinstr, hword] at h
        obtain ⟨q, hrest, rfl⟩ := (Except.map_ok_iff ..).1 h
        simp [hinstr, ih hrest]

/-- Settles O59: a Program comes of pass 2, which adds a word at each instruction line. -/
theorem oneWordPerInstructionLine : Obligations.OneWordPerInstructionLine := by
  intro t source p hp
  cases h : pass1 0 [] (sourceLines source) with
  | error e => simp [assemble_of_pass1_error h] at hp
  | ok syms => exact pass2_length (assemble_of_pass1_ok h ▸ hp)

/-! ### The fields of an instruction line's word -/

/-- An operand of one kind leaves the fields of the other kinds as they are. -/
theorem placeOperand_frame (f : Fields) (k : Kind) (v : Nat) :
    (placeOperand f k v).op = f.op ∧ (k ≠ .D → (placeOperand f k v).rd = f.rd) ∧
      (k ≠ .S → (placeOperand f k v).rs = f.rs) ∧ (k ≠ .I → (placeOperand f k v).imm = f.imm) := by
  cases k <;> simp [placeOperand]

theorem placeOperands_frame {syms : SymbolTable} {f f' : Fields} {ops : List (Kind × Token)}
    (h : placeOperands syms f ops = .ok f') :
    f'.op = f.op ∧ (Kind.D ∉ ops.map Prod.fst → f'.rd = f.rd) ∧ (Kind.S ∉ ops.map Prod.fst → f'.rs = f.rs) ∧
      (Kind.I ∉ ops.map Prod.fst → f'.imm = f.imm) := by
  induction ops generalizing f with
  | nil =>
    cases h
    simp
  | cons o ops ih =>
    obtain ⟨k, tok⟩ := o
    cases hv : operandValue syms tok with
    | error r => simp [placeOperands, hv] at h
    | ok v =>
      simp only [placeOperands, hv] at h
      have hfirst := placeOperand_frame f k v
      have hrest := ih h
      simp only [List.map_cons, List.mem_cons, not_or]
      grind

/-- An instruction line with a word has as many operands as its record has kinds, and the word packs their values. -/
theorem encodeInstr_ok {t : ArchTable} {syms : SymbolTable} {i : SourceInstr} {r : InstructionSpec} {word : CodeWord}
    (hr : t.lookupMnemonic i.mnemonic = some r) (h : encodeInstr t syms i = .ok word) :
    i.operands.length = r.kinds.length ∧
      ∃ f, placeOperands syms ⟨BitVec.ofNat 8 r.opcode, 0, 0, 0⟩ (r.kinds.zip (i.operands.map classify)) = .ok f ∧
        word = pack f := by
  simp only [encodeInstr, hr] at h
  split at h
  next => cases h
  next hlen =>
    split at h
    next => cases h
    next =>
      split at h
      next => cases h
      next =>
        obtain ⟨f, hf, rfl⟩ := (Except.map_ok_iff ..).1 h
        exact ⟨by simpa using hlen, f, hf, rfl⟩

/-- The Assembler writes 0 in a field that no kind names (30_encoding.md R107 (f)). -/
theorem encodeInstr_unnamed {t : ArchTable} {syms : SymbolTable} {i : SourceInstr} {r : InstructionSpec}
    {word : CodeWord} (hr : t.lookupMnemonic i.mnemonic = some r) (h : encodeInstr t syms i = .ok word) :
    (Kind.D ∉ r.kinds → (unpack word).rd = 0) ∧ (Kind.S ∉ r.kinds → (unpack word).rs = 0) ∧
      (Kind.I ∉ r.kinds → (unpack word).imm = 0) := by
  obtain ⟨hlen, f, hf, rfl⟩ := encodeInstr_ok hr h
  have hkinds : (r.kinds.zip (i.operands.map classify)).map Prod.fst = r.kinds :=
    List.map_fst_zip (by simp [hlen])
  obtain ⟨-, hnamed⟩ := placeOperands_frame hf
  rw [hkinds] at hnamed
  rwa [unpack_pack]

/-- Settles O4: decoding reads the named fields alone, and only a kind's operand leaves its field other than 0. -/
theorem unnamedFieldsAreIgnored : Obligations.UnnamedFieldsAreIgnored :=
  ⟨fun _ _ _ hop hnamed => decodeWith_congr hop hnamed, fun _ _ _ _ _ hr h => encodeInstr_unnamed hr h⟩

end Sys2Proof.Machine
end

section
/-! The debug string read back by the Assembler (30_encoding.md R111, R112): its numbers and operands, its line, and the word
that the line assembles to. -/

namespace Sys2Proof.Machine

/-! ### Decimal numbers -/

theorem digitChar_isDigit {d : Nat} (h : d < 10) : (digitChar d).isDigit = true := by
  interval_cases d <;> rfl

theorem decimalDigit?_digitChar {d : Nat} (h : d < 10) : decimalDigit? (digitChar d) = some d := by
  interval_cases d <;> rfl

theorem digitsValue_append (base : Nat) (digit? : Char → Option Nat) (acc : Nat) (a b : Text) :
    digitsValue base digit? acc (a ++ b) = (digitsValue base digit? acc a).bind fun n => digitsValue base digit? n b := by
  induction a generalizing acc with
  | nil => rfl
  | cons c a ih =>
    simp only [List.cons_append, digitsValue]
    cases digit? c with
    | none => rfl
    | some d => exact ih _

theorem decimalDigits_isDigit (fuel n : Nat) : ∀ c ∈ decimalDigits fuel n, c.isDigit = true := by
  induction fuel generalizing n with
  | zero => simp [decimalDigits]
  | succ fuel ih =>
    simp only [decimalDigits]
    split
    next h => simpa using digitChar_isDigit h
    next => simpa [or_imp, forall_and] using ⟨ih (n / 10), digitChar_isDigit (Nat.mod_lt n (by decide))⟩

theorem decimalDigits_succ_ne_nil (fuel n : Nat) : decimalDigits (fuel + 1) n ≠ [] := by
  simp only [decimalDigits]
  split <;> simp

theorem digitsValue_decimalDigits {fuel n : Nat} (h : n < fuel) :
    digitsValue 10 decimalDigit? 0 (decimalDigits fuel n) = some n := by
  induction fuel generalizing n with
  | zero => omega
  | succ fuel ih =>
    simp only [decimalDigits]
    split
    next hn => simp [digitsValue, decimalDigit?_digitChar hn]
    next hn =>
      have hlast := decimalDigit?_digitChar (Nat.mod_lt n (by decide : 10 > 0))
      rw [digitsValue_append, ih (by omega), Option.bind_some]
      simp only [digitsValue, hlast, Option.some.injEq]
      omega

theorem decimalText_isDigit (n : Nat) : ∀ c ∈ decimalText n, c.isDigit = true :=
  decimalDigits_isDigit (n + 1) n

theorem decimalText_ne_nil (n : Nat) : decimalText n ≠ [] :=
  decimalDigits_succ_ne_nil n n

theorem decimalValue_decimalText (n : Nat) : decimalValue (decimalText n) = some n := by
  have hvalue : digitsValue 10 decimalDigit? 0 (decimalText n) = some n := digitsValue_decimalDigits n.lt_succ_self
  cases h : decimalText n with
  | nil => exact absurd h (decimalText_ne_nil n)
  | cons c cs => rwa [h] at hvalue

/-! ### Operands -/

/-- Digits alone do not start with `0x`. -/
theorem unsignedValue_of_digits {t : Text} (h : ∀ c ∈ t, c.isDigit = true) : unsignedValue t = decimalValue t := by
  unfold unsignedValue
  split
  next => exact absurd (h 'x' (by simp)) (by decide)
  next => exact absurd (h 'X' (by simp)) (by decide)
  next => rfl

theorem numberToken_decimalText (n : Nat) : numberToken (decimalText n) = .number n := by
  have hvalue := (unsignedValue_of_digits (decimalText_isDigit n)).trans (decimalValue_decimalText n)
  unfold numberToken
  split
  next ds h => exact absurd (decimalText_isDigit n '-' (by simp [h])) (by decide)
  next => simp only [hvalue]

theorem classify_decimalText (n : Nat) : classify (decimalText n) = .number n := by
  have hnumber := numberToken_decimalText n
  cases h : decimalText n with
  | nil => exact absurd h (decimalText_ne_nil n)
  | cons c cs =>
    have hdigit : c.isDigit = true := decimalText_isDigit n c (by simp [h])
    simpa [classify, hdigit, h] using hnumber

theorem classify_register (n : Nat) : classify ('r' :: decimalText n) = .register n := by
  simp [classify, decimalValue_decimalText, Char.isDigit]

/-- The token of an operand as it prints. -/
def operandToken (f : Fields) : Kind → Token
  | .D => .register f.rd.toNat
  | .S => .register f.rs.toNat
  | .I => .number f.imm.toNat

@[simp] theorem operandToken_dest (f : Fields) : operandToken f .D = .register f.rd.toNat := rfl
@[simp] theorem operandToken_src (f : Fields) : operandToken f .S = .register f.rs.toNat := rfl
@[simp] theorem operandToken_imm (f : Fields) : operandToken f .I = .number f.imm.toNat := rfl

theorem classify_operandText (f : Fields) (k : Kind) : classify (operandText f k) = operandToken f k := by
  cases k with
  | D => exact classify_register _
  | S => exact classify_register _
  | I => exact classify_decimalText _

theorem kindAccepts_operandToken (f : Fields) (k : Kind) : kindAccepts k (operandToken f k) = true := by
  cases k <;> rfl

theorem rangeError_operandToken (f : Fields) (k : Kind) : rangeError (operandToken f k) = none := by
  cases k with
  | D => exact if_pos (Nat.le_of_lt_succ f.rd.isLt)
  | S => exact if_pos (Nat.le_of_lt_succ f.rs.isLt)
  | I => exact if_pos ⟨Int.natCast_nonneg _, Int.ofNat_le.2 (Nat.le_of_lt_succ f.imm.isLt)⟩

/-- The printed operands put back the fields that their kinds name. -/
theorem placeOperands_operandToken (syms : SymbolTable) (f : Fields) (rd rs : RegIndex) (imm : Imm) (ks : List Kind) :
    placeOperands syms ⟨f.op, rd, rs, imm⟩ (ks.map fun k => (k, operandToken f k)) =
      .ok ⟨f.op, if Kind.D ∈ ks then f.rd else rd, if Kind.S ∈ ks then f.rs else rs, if Kind.I ∈ ks then f.imm else imm⟩ := by
  induction ks generalizing rd rs imm with
  | nil => rfl
  | cons k ks ih =>
    cases k
    all_goals simp [placeOperands, operandValue, placeOperand, ih]

/-- The line of a word's operands gives back the word, but for the fields that no kind names. -/
theorem encodeInstr_operandText {t : ArchTable} {m : Text} {r : InstructionSpec} (hr : t.lookupMnemonic m = some r)
    (syms : SymbolTable) {f : Fields} (hop : r.opcode = f.op.toNat) :
    encodeInstr t syms ⟨m, r.kinds.map (operandText f)⟩ = .ok (pack (f.named r.kinds)) := by
  have htokens : (r.kinds.map (operandText f)).map classify = r.kinds.map (operandToken f) := by
    simp [classify_operandText]
  have hzip : r.kinds.zip (r.kinds.map (operandToken f)) = r.kinds.map fun k => (k, operandToken f k) := by
    simpa using List.zip_map' (l := r.kinds) (f := id) (g := operandToken f)
  have hkinds : ((r.kinds.map fun k => (k, operandToken f k)).any fun p => !kindAccepts p.1 p.2) = false := by
    simp [kindAccepts_operandToken]
  have hrange : (r.kinds.map (operandToken f)).findSome? rangeError = none := by
    simp [rangeError_operandToken]
  simp [encodeInstr, hr, htokens, hzip, hkinds, hrange, hop, placeOperands_operandToken, Fields.named, Except.map]

/-! ### Pieces of a text -/

/-- A character of an identifier is none of those that the Assembler cuts a source at. -/
theorem isIdentChar_separates {c : Char} (h : isIdentChar c = true) :
    isBlankChar c = false ∧ c ≠ ',' ∧ c ≠ ';' ∧ c ≠ '\n' := by
  refine ⟨?_, ?_, ?_, ?_⟩
  · by_contra hblank
    simp only [isBlankChar, Bool.not_eq_false, Bool.or_eq_true, decide_eq_true_eq] at hblank
    obtain (rfl | rfl) | rfl := hblank
    all_goals exact absurd h (by decide)
  all_goals
    rintro rfl
    exact absurd h (by decide)

theorem isIdentChar_of_isDigit {c : Char} (h : c.isDigit = true) : isIdentChar c = true := by
  simp [isIdentChar, h]

theorem splitText_of_not_mem {c : Char} {a : Text} (h : c ∉ a) : splitText c a = [a] := by
  induction a with
  | nil => rfl
  | cons x a ih =>
    simp only [List.mem_cons, not_or] at h
    simp [splitText, Ne.symm h.1, ih h.2]

theorem splitText_append_cons {c : Char} {a : Text} (b : Text) (h : c ∉ a) :
    splitText c (a ++ c :: b) = a :: splitText c b := by
  induction a with
  | nil => simp [splitText]
  | cons x a ih =>
    simp only [List.mem_cons, not_or] at h
    simp [splitText, Ne.symm h.1, ih h.2]

theorem takeWhile_append_stop {p : Char → Bool} {a b : Text} (ha : ∀ c ∈ a, p c = true)
    (hb : ∀ c ∈ b.head?, p c = false) : (a ++ b).takeWhile p = a := by
  rw [List.takeWhile_append_of_pos ha]
  cases b with
  | nil => simp
  | cons c b => simp [hb c rfl]

/-- A text that is not empty and has no white space at either end. -/
structure Trimmed (t : Text) : Prop where
  nonempty : t ≠ []
  head : ∀ c ∈ t.head?, isBlankChar c = false
  last : ∀ c ∈ t.getLast?, isBlankChar c = false

theorem Trimmed.of_nonblank {t : Text} (h0 : t ≠ []) (h : ∀ c ∈ t, isBlankChar c = false) : Trimmed t :=
  ⟨h0, fun c hc => h c (List.mem_of_mem_head? hc), fun c hc => h c (List.mem_of_mem_getLast? hc)⟩

theorem Trimmed.append {a b : Text} (ha : Trimmed a) (mid : Text) (hb : Trimmed b) : Trimmed (a ++ mid ++ b) where
  nonempty := by simp [ha.nonempty]
  head := by
    have := ha.head
    simpa [List.head?_append, List.head?_eq_some_head ha.nonempty] using this
  last := by
    have := hb.last
    simpa [List.getLast?_append, List.getLast?_eq_some_getLast hb.nonempty] using this

theorem dropWhile_of_head {p : Char → Bool} {t : Text} (h : ∀ c ∈ t.head?, p c = false) : t.dropWhile p = t := by
  cases t with
  | nil => rfl
  | cons c t => simp [h c rfl]

theorem Trimmed.trimText_append {t : Text} (h : Trimmed t) {pre : Text} (hpre : ∀ c ∈ pre, isBlankChar c = true) :
    trimText (pre ++ t) = t := by
  have hlast : ∀ c ∈ t.reverse.head?, isBlankChar c = false := by simpa using h.last
  rw [trimText, List.dropWhile_append_of_pos hpre, dropWhile_of_head h.head, dropWhile_of_head hlast, List.reverse_reverse]

theorem Trimmed.trimText_eq {t : Text} (h : Trimmed t) : trimText t = t :=
  h.trimText_append (pre := []) (by simp)

/-! ### The operands of a debug string -/

theorem operandText_isIdentChar (f : Fields) (k : Kind) : ∀ c ∈ operandText f k, isIdentChar c = true := by
  have hdigits (n : Nat) : ∀ c ∈ decimalText n, isIdentChar c = true :=
    fun c hc => isIdentChar_of_isDigit (decimalText_isDigit n c hc)
  cases k with
  | D => exact List.forall_mem_cons.2 ⟨rfl, hdigits _⟩
  | S => exact List.forall_mem_cons.2 ⟨rfl, hdigits _⟩
  | I => exact hdigits _

theorem operandText_ne_nil (f : Fields) (k : Kind) : operandText f k ≠ [] := by
  cases k with
  | D => exact List.cons_ne_nil _ _
  | S => exact List.cons_ne_nil _ _
  | I => exact decimalText_ne_nil _

theorem Trimmed.of_isIdentChar {t : Text} (h0 : t ≠ []) (h : ∀ c ∈ t, isIdentChar c = true) : Trimmed t :=
  .of_nonblank h0 fun c hc => (isIdentChar_separates (h c hc)).1

theorem operandText_trimmed (f : Fields) (k : Kind) : Trimmed (operandText f k) :=
  .of_isIdentChar (operandText_ne_nil f k) (operandText_isIdentChar f k)

theorem operandsText_trimmed (f : Fields) (k : Kind) (ks : List Kind) : Trimmed (operandsText f (k :: ks)) := by
  induction ks generalizing k with
  | nil => exact operandText_trimmed f k
  | cons k' ks ih => exact (operandText_trimmed f k).append [',', ' '] (ih k')

/-- Cut at its commas and trimmed, the list of operands is the operands again. -/
theorem splitText_operandsText (f : Fields) {pre : Text} (hpre : ∀ c ∈ pre, isBlankChar c = true) (k : Kind)
    (ks : List Kind) :
    (splitText ',' (pre ++ operandsText f (k :: ks))).map trimText = (k :: ks).map (operandText f) := by
  have hcomma {pre : Text} (hpre : ∀ c ∈ pre, isBlankChar c = true) (k : Kind) : ',' ∉ pre ++ operandText f k := by
    rw [List.mem_append]
    rintro (h | h)
    · exact absurd (hpre _ h) (by decide)
    · exact (isIdentChar_separates (operandText_isIdentChar f k _ h)).2.1 rfl
  induction ks generalizing pre k with
  | nil =>
    simp only [operandsText, splitText_of_not_mem (hcomma hpre k), List.map_cons, List.map_nil,
      (operandText_trimmed f k).trimText_append hpre]
  | cons k' ks ih =>
    have hsplit : pre ++ operandsText f (k :: k' :: ks) =
        (pre ++ operandText f k) ++ ',' :: ([' '] ++ operandsText f (k' :: ks)) := by
      simp [operandsText]
    rw [hsplit, splitText_append_cons _ (hcomma hpre k), List.map_cons, (operandText_trimmed f k).trimText_append hpre,
      ih (by simp [isBlankChar]) k', List.map_cons (l := k' :: ks)]

/-- What a debug string holds after the mnemonic. -/
def operandsTail (f : Fields) : List Kind → Text
  | [] => []
  | k :: ks => [' '] ++ operandsText f (k :: ks)

theorem disassemble_of_lookup {t : ArchTable} {word : CodeWord} {r : InstructionSpec}
    (h : t.lookup (unpack word).op = some r) : disassemble t word = r.key ++ operandsTail (unpack word) r.kinds := by
  simp only [disassemble, h]
  cases r.kinds with
  | nil => simp [operandsTail]
  | cons k ks => simp [operandsTail]

theorem splitOperands_operandsTail (f : Fields) (ks : List Kind) :
    splitOperands (operandsTail f ks) = ks.map (operandText f) := by
  cases ks with
  | nil => rfl
  | cons k ks =>
    have htrim : trimText (operandsTail f (k :: ks)) = operandsText f (k :: ks) :=
      (operandsText_trimmed f k ks).trimText_append (by simp [isBlankChar])
    have hsplit := splitText_operandsText f (pre := []) (by simp) k ks
    rw [List.nil_append] at hsplit
    unfold splitOperands
    rw [htrim]
    split
    next h => exact absurd h (operandsText_trimmed f k ks).nonempty
    next c cs h => rwa [← h]

theorem operandsText_chars (f : Fields) (ks : List Kind) :
    ∀ c ∈ operandsText f ks, isIdentChar c = true ∨ c = ',' ∨ c = ' ' := by
  induction ks using operandsText.induct with
  | case1 => simp [operandsText]
  | case2 k => exact fun c hc => .inl (operandText_isIdentChar f k c hc)
  | case3 k k' ks ih =>
    intro c hc
    simp only [operandsText, List.mem_append, List.mem_cons, List.not_mem_nil, or_false] at hc
    obtain (hc | hc) | hc := hc
    · exact .inl (operandText_isIdentChar f k c hc)
    · exact .inr hc
    · exact ih c hc

theorem operandsTail_chars (f : Fields) (ks : List Kind) :
    ∀ c ∈ operandsTail f ks, isIdentChar c = true ∨ c = ',' ∨ c = ' ' := by
  cases ks with
  | nil => simp [operandsTail]
  | cons k ks => exact List.forall_mem_cons.2 ⟨.inr (.inr rfl), operandsText_chars f (k :: ks)⟩

theorem operandsTail_head (f : Fields) (ks : List Kind) : ∀ c ∈ (operandsTail f ks).head?, c = ' ' := by
  cases ks <;> simp [operandsTail]

/-! ### The line of a debug string -/

/-- An identifier with no colon after it is no label (30_encoding.md R102). -/
theorem splitLabel_of_no_colon {name rest : Text} (hname : ∀ c ∈ name, isIdentChar c = true)
    (hrest : ∀ c ∈ rest.head?, c = ' ') : splitLabel (name ++ rest) = (none, name ++ rest) := by
  have htake : (name ++ rest).takeWhile isIdentChar = name :=
    takeWhile_append_stop hname fun c hc => by rw [hrest c hc]; rfl
  simp only [splitLabel, htake, List.drop_left]
  split
  next => exact absurd (hrest ':' rfl) (by decide)
  next => rfl

theorem parseInstr_append {m rest : Text} (h0 : m ≠ []) (hm : ∀ c ∈ m, isBlankChar c = false)
    (hrest : ∀ c ∈ rest.head?, c = ' ') : parseInstr (m ++ rest) = some ⟨m, splitOperands rest⟩ := by
  have htake : (m ++ rest).takeWhile (fun x => !isBlankChar x) = m :=
    takeWhile_append_stop (fun c hc => by rw [hm c hc]; rfl) fun c hc => by rw [hrest c hc]; rfl
  have hparse {t : Text} (ht : t ≠ []) :
      parseInstr t = some ⟨t.takeWhile (fun x => !isBlankChar x),
        splitOperands (t.drop (t.takeWhile fun x => !isBlankChar x).length)⟩ := by
    cases t with
    | nil => exact absurd rfl ht
    | cons c cs => rfl
  rw [hparse (by simp [h0]), htake, List.drop_left]

/-- A mnemonic and printed operands are one line with no label and that instruction. -/
theorem sourceLines_operandsTail {m : Text} (h0 : m ≠ []) (hm : ∀ c ∈ m, isIdentChar c = true) (f : Fields)
    (ks : List Kind) : sourceLines (m ++ operandsTail f ks) = [⟨1, none, some ⟨m, ks.map (operandText f)⟩⟩] := by
  have hchars : ∀ c ∈ m ++ operandsTail f ks, c ≠ ';' ∧ c ≠ '\n' := by
    intro c hc
    have hkind : isIdentChar c = true ∨ c = ',' ∨ c = ' ' :=
      (List.mem_append.1 hc).elim (fun h => .inl (hm c h)) (operandsTail_chars f ks c)
    obtain hident | rfl | rfl := hkind
    · exact (isIdentChar_separates hident).2.2
    all_goals decide
  have hcomment : stripComment (m ++ operandsTail f ks) = m ++ operandsTail f ks :=
    List.takeWhile_eq_self_iff.2 fun c hc => decide_eq_true (hchars c hc).1
  have htrimmed : Trimmed (m ++ operandsTail f ks) := by
    have hmnemonic := Trimmed.of_isIdentChar h0 hm
    cases ks with
    | nil => simpa [operandsTail] using hmnemonic
    | cons k ks => simpa [operandsTail] using hmnemonic.append [' '] (operandsText_trimmed f k ks)
  have hinstr := parseInstr_append h0 (fun c hc => (isIdentChar_separates (hm c hc)).1) (operandsTail_head f ks)
  rw [sourceLines, splitText_of_not_mem fun h => (hchars _ h).2 rfl]
  simp only [numberLines, parseLine, hcomment, htrimmed.trimText_eq, splitLabel_of_no_colon hm (operandsTail_head f ks),
    hinstr, splitOperands_operandsTail]

/-! ### The word of a debug string -/

/-- A source of one instruction line and no label assembles to the line's word. -/
theorem assemble_single {t : ArchTable} {source : Text} {n : Nat} {i : SourceInstr} {word : CodeWord}
    (hlines : sourceLines source = [⟨n, none, some i⟩]) (hword : encodeInstr t [] i = .ok word) :
    assemble t source = .ok [word] := by
  simp [assemble, hlines, pass1, pass2, hword, Except.map]

/-- Under every well-formed table, where the mnemonic is made of the characters of identifiers, the debug string assembles
to the word with 0 in the fields that no kind names (30_encoding.md R112). -/
theorem assemble_disassemble {t : ArchTable} (ht : t.wellFormed = true) {word : CodeWord} {r : InstructionSpec}
    (hr : t.lookup (unpack word).op = some r) (h0 : r.key ≠ []) (hkey : ∀ c ∈ r.key, isIdentChar c = true) :
    assemble t (disassemble t word) = .ok [pack ((unpack word).named r.kinds)] := by
  obtain ⟨hmem, hop⟩ := ArchTable.lookup_eq_some hr
  rw [disassemble_of_lookup hr]
  exact assemble_single (sourceLines_operandsTail h0 hkey _ _)
    (encodeInstr_operandText (ArchTable.lookupMnemonic_key ht hmem) [] hop)

theorem reference_key : ∀ r ∈ ArchTable.reference, r.key ≠ [] ∧ ∀ c ∈ r.key, isIdentChar c = true := by
  have hall : List.all ArchTable.reference (fun r => !r.key.isEmpty && r.key.all isIdentChar) = true := by decide
  simpa using hall

/-- Settles O58: an instruction's word has 0 in every field that its row's kinds do not name. -/
theorem disassemblyAssemblesBack : Obligations.DisassemblyAssemblesBack := by
  intro i
  obtain ⟨r, hr, -, hop, hkinds⟩ := exists_reference_row i.op
  obtain ⟨h0, hkey⟩ := reference_key r hr
  have hlookup : ArchTable.reference.lookup (unpack (encode i)).op = some r := by
    simpa [encode] using ArchTable.lookup_of_mem reference_wellFormed hr hop
  rw [assemble_disassemble reference_wellFormed hlookup h0 hkey, hkinds, encode, unpack_pack,
    Instr.named_fields i.operandsNamed_kinds]

end Sys2Proof.Machine
end

section
/-! No cycle and no `load` or `run` to come (40_execution_loop.md R140 to R143, 60_exceptions.md R230, R227): after the end of
a run, a termination or a failed boot, nothing writes MachineState or the Program. -/

namespace Sys2Proof.Machine

variable {w : Nat}

/-! ### Any number of steps -/

/-- What every step keeps holds after any number of steps, which all answer next states of the same width. -/
theorem runsTo_of_steps {P : Engine w → Prop} (hP : ∀ e e', P e → Steps e e' → P e') (k : Nat) {e : Engine w}
    (he : P e) : RunsTo k e P := by
  induction k generalizing e with
  | zero => exact ⟨e, rfl, he⟩
  | succ k ih =>
    obtain ⟨e1, hstep, hs⟩ := step_steps e
    obtain ⟨e2, hrun, he2⟩ := ih (hP e e1 he hs)
    exact ⟨e2, (core_run_succ k hstep).trans hrun, he2⟩

theorem RunsTo.imp {k : Nat} {e : Engine w} {P Q : Engine w → Prop} (h : RunsTo k e P) (hPQ : ∀ e', P e' → Q e') :
    RunsTo k e Q := by
  obtain ⟨e', hrun, he'⟩ := h
  exact ⟨e', hrun, hPQ e' he'⟩

/-- A run of one step more. -/
theorem RunsTo.cons {k : Nat} {e e1 : Engine w} {P : Engine w → Prop} (hstep : step ⟨w, e⟩ = .next ⟨w, e1⟩)
    (h : RunsTo k e1 P) : RunsTo (k + 1) e P := by
  obtain ⟨e', hrun, he'⟩ := h
  exact ⟨e', (core_run_succ k hstep).trans hrun, he'⟩

/-! ### An engine that does nothing more -/

/-- The engine executes no cycle, and accepts no `load` and no `run`. -/
structure Engine.Dormant (e : Engine w) : Prop where
  noCycle : e.core.runState ≠ .running ∨ e.terminated = true
  noControl : e.acceptsControl = false

/-- From `e` to `e'` MachineState and the Program stay, and the marks of a termination and of a failed boot are not taken
back. -/
structure Engine.KeepsRun (e e' : Engine w) : Prop where
  core : e'.core = e.core
  prog : e'.prog = e.prog
  terminated : e.terminated = true → e'.terminated = true
  bootFailed : e.bootFailed = true → e'.bootFailed = true

theorem Engine.KeepsRun.refl (e : Engine w) : e.KeepsRun e :=
  ⟨rfl, rfl, id, id⟩

theorem Engine.KeepsRun.trans {e1 e2 e3 : Engine w} (h12 : e1.KeepsRun e2) (h23 : e2.KeepsRun e3) : e1.KeepsRun e3 where
  core := h23.core.trans h12.core
  prog := h23.prog.trans h12.prog
  terminated := h23.terminated ∘ h12.terminated
  bootFailed := h23.bootFailed ∘ h12.bootFailed

theorem Engine.acceptsControl_eq_false_iff (e : Engine w) :
    e.acceptsControl = false ↔ e.core.runState ≠ .ready ∨ e.terminated = true ∨ e.bootFailed = true := by
  rw [← Bool.not_eq_true, e.acceptsControl_iff]
  grind

theorem Engine.KeepsRun.dormant {e e' : Engine w} (h : e.KeepsRun e') (hd : e.Dormant) : e'.Dormant where
  noCycle := by
    rw [h.core]
    exact hd.noCycle.imp_right h.terminated
  noControl := by
    rw [Engine.acceptsControl_eq_false_iff, h.core]
    exact (e.acceptsControl_eq_false_iff.1 hd.noControl).imp_right (Or.imp h.terminated h.bootFailed)

/-- The calls that write MachineState or the Program need `load` and `run` to be accepted. -/
theorem HostCalls.keepsRun {e e' : Engine w} (h : HostCalls e e') (hd : e.Dormant) : e.KeepsRun e' := by
  have hrefused : e.acceptsControl ≠ true := by simp [hd.noControl]
  cases h with
  | refused => exact .refl e
  | answer m => exact ⟨rfl, rfl, id, id⟩
  | load p ha => exact absurd ha hrefused
  | run ha => exact absurd ha hrefused
  | bootFails m ha => exact absurd ha hrefused
  | terminate ms _ => exact ⟨rfl, rfl, fun _ => rfl, id⟩

/-- The engine's own turn does nothing where no cycle executes: it sends no snapshot either (log entry 10). -/
theorem EngineTurns.eq_of_dormant {e e' : Engine w} (h : EngineTurns e e') (hd : e.Dormant) : e' = e := by
  have hnone : ¬ (e.core.runState = .running ∧ e.terminated = false) := by
    obtain hr | ht := hd.noCycle
    · simp [hr]
    · simp [ht]
  cases h with
  | idle _ => rfl
  | send hr ht _ => exact absurd ⟨hr, ht⟩ hnone
  | cycle _ hr ht _ _ => exact absurd ⟨hr, ht⟩ hnone

theorem Engine.popTurn_keepsRun (e : Engine w) : e.KeepsRun e.popTurn :=
  ⟨rfl, rfl, id, id⟩

theorem Engine.rendererAct_keepsRun (e : Engine w) (a : RendererAct w) : e.KeepsRun (e.rendererAct a) := by
  obtain ⟨i, o, hact, -, -⟩ := e.rendererAct_frame a
  rw [hact]
  exact ⟨rfl, rfl, id, id⟩

theorem Steps.keepsRun {e e' : Engine w} (h : Steps e e') (hd : e.Dormant) : e.KeepsRun e' := by
  have hpop := e.popTurn_keepsRun
  have hdpop := hpop.dormant hd
  cases h with
  | alone _ _ ht => rw [ht.eq_of_dormant hd]; exact .refl e
  | engine _ _ _ ht => rw [ht.eq_of_dormant hdpop]; exact hpop
  | host c _ _ hc => exact hpop.trans (hc.keepsRun hdpop)
  | renderer a _ _ => exact hpop.trans (e.popTurn.rendererAct_keepsRun a)

theorem Engine.Dormant.runsTo {e : Engine w} (hd : e.Dormant) (k : Nat) : RunsTo k e fun e' => e.KeepsRun e' :=
  runsTo_of_steps (fun _ _ h hs => h.trans (hs.keepsRun (h.dormant hd))) k (.refl e)

/-! ### The end of a run, and a termination -/

theorem Engine.Stopped.dormant {e : Engine w} (h : e.Stopped) : e.Dormant := by
  obtain (hhalted | hfaulted) | hterminated := h
  · exact ⟨.inl (by simp [hhalted]), by simp [Engine.acceptsControl, hhalted]⟩
  · exact ⟨.inl (by simp [hfaulted]), by simp [Engine.acceptsControl, hfaulted]⟩
  · exact ⟨.inr hterminated, by simp [Engine.acceptsControl, hterminated]⟩

theorem Engine.KeepsRun.stopped {e e' : Engine w} (h : e.KeepsRun e') (hs : e.Stopped) : e'.Stopped :=
  hs.imp (fun hended => by rwa [h.core]) h.terminated

/-- Settles O37: a stopped engine executes no cycle and accepts no `load` and no `run`. -/
theorem nothingHappensAfterTheEnd : Obligations.NothingHappensAfterTheEnd :=
  fun _ _ k hs => (hs.dormant.runsTo k).imp fun _ h => ⟨h.core, h.prog, h.stopped hs⟩

end Sys2Proof.Machine
end

section
/-! The host's `load` and `run` (40_execution_loop.md R142, R143) and the failed production of a Program
(70_reset_and_hazards.md R262 step 3, 60_exceptions.md R227). -/

namespace Sys2Proof.Machine

variable {w : Nat}

/-- The step where the host's turn is put first. -/
theorem step_hostFirst (e : Engine w) (c : HostCall) (rest : List (Turn w)) :
    step ⟨w, { e with agenda := .host c :: rest }⟩ = .next ⟨w, ({ e with agenda := rest } : Engine w).hostCall c⟩ :=
  step_host _ c rest rfl

theorem Engine.load_of_accepts {e : Engine w} (p : Program) (h : e.acceptsControl = true) :
    e.load p = { e with prog := p, core := { e.core with pc := 0 } } :=
  if_pos h

theorem Engine.load_of_refuses {e : Engine w} (p : Program) (h : e.acceptsControl = false) : e.load p = e :=
  if_neg (by simp [h])

theorem Engine.run_of_accepts {e : Engine w} (h : e.acceptsControl = true) :
    e.run = { e with core := { e.core with runState := .running } } :=
  if_pos h

theorem Engine.run_of_refuses {e : Engine w} (h : e.acceptsControl = false) : e.run = e :=
  if_neg (by simp [h])

/-- Settles O40: `load` is accepted exactly in Ready, before a termination and before a failed boot. -/
theorem loadIsAcceptedInReadyOnly : Obligations.LoadIsAcceptedInReadyOnly := by
  intro w e p rest hagenda
  rw [step_host e _ rest hagenda]
  refine ⟨fun hready hterm hboot => ?accepted, fun hready => ?refused⟩
  case accepted =>
    have haccepts : ({ e with agenda := rest } : Engine w).acceptsControl = true :=
      (Engine.acceptsControl_iff _).2 ⟨hready, hterm, hboot⟩
    rw [Engine.hostCall, Engine.load_of_accepts p haccepts]
  case refused =>
    have hrefuses : ({ e with agenda := rest } : Engine w).acceptsControl = false :=
      (Engine.acceptsControl_eq_false_iff _).2 (.inl hready)
    rw [Engine.hostCall, Engine.load_of_refuses p hrefuses]

/-- Settles O42: `run` is accepted exactly in Ready, before a termination and before a failed boot. -/
theorem runIsAcceptedInReadyOnly : Obligations.RunIsAcceptedInReadyOnly := by
  intro w e rest hagenda
  rw [step_host e _ rest hagenda]
  refine ⟨fun hready hterm hboot => ?accepted, fun hrefused => ?refused⟩
  case accepted =>
    have haccepts : ({ e with agenda := rest } : Engine w).acceptsControl = true :=
      (Engine.acceptsControl_iff _).2 ⟨hready, hterm, hboot⟩
    rw [Engine.hostCall, Engine.run_of_accepts haccepts]
  case refused =>
    have hrefuses : ({ e with agenda := rest } : Engine w).acceptsControl = false :=
      (Engine.acceptsControl_eq_false_iff _).2 (hrefused.imp_right .inr)
    rw [Engine.hostCall, Engine.run_of_refuses hrefuses]

/-! ### Images and sources -/

theorem Engine.loadImage_of_program (e : Engine w) {bytes : List Byte} {p : Program}
    (hp : programOfImage bytes = some p) : e.loadImage bytes = e.load p := by
  cases ha : e.acceptsControl with
  | true => simp [Engine.loadImage, ha, hp]
  | false => simp [Engine.loadImage, ha, e.load_of_refuses]

theorem Engine.loadSource_of_program (e : Engine w) {source : Text} {p : Program}
    (hp : assemble e.cfg.archTable source = .ok p) : e.loadSource source = e.load p := by
  cases ha : e.acceptsControl with
  | true => simp [Engine.loadSource, ha, hp]
  | false => simp [Engine.loadSource, ha, e.load_of_refuses]

theorem Engine.loadSource_error {e : Engine w} {source : Text} {err : AssemblyError} (ha : e.acceptsControl = true)
    (herr : assemble e.cfg.archTable source = .error err) : e.loadSource source = e.failBoot (.assemblyError err) := by
  simp only [Engine.loadSource, ha, herr, if_true]

/-- A failed boot leaves the engine in Ready, where no cycle executes, with no run to come. -/
theorem Engine.failBoot_dormant {e : Engine w} (hready : e.core.runState = .ready) (m : HostMessage w) :
    (e.failBoot m).Dormant where
  noCycle := .inl (by simp [hready])
  noControl := (Engine.acceptsControl_eq_false_iff _).2 (.inr (.inr rfl))

/-- Settles O41: the Program is loaded as it is made, and where it is not made the engine is left with no run to come. -/
theorem imagesAndSourcesLoadTheirPrograms : Obligations.ImagesAndSourcesLoadTheirPrograms := by
  intro w e rest
  refine ⟨fun bytes p hp => ?image, fun source p hp => ?source, fun c m hready hterm hboot hfails => ?failure⟩
  case image =>
    have hcall : ({ e with agenda := rest } : Engine w).hostCall (.loadImage bytes) =
        ({ e with agenda := rest } : Engine w).hostCall (.load p) := Engine.loadImage_of_program _ hp
    rw [step_hostFirst, step_hostFirst, hcall]
  case source =>
    have hcall : ({ e with agenda := rest } : Engine w).hostCall (.loadSource source) =
        ({ e with agenda := rest } : Engine w).hostCall (.load p) := Engine.loadSource_of_program _ hp
    rw [step_hostFirst, step_hostFirst, hcall]
  case failure =>
    have haccepts : ({ e with agenda := rest } : Engine w).acceptsControl = true :=
      (Engine.acceptsControl_iff _).2 ⟨hready, hterm, hboot⟩
    have hcall : ({ e with agenda := rest } : Engine w).hostCall c = ({ e with agenda := rest } : Engine w).failBoot m := by
      obtain ⟨bytes, rfl, hnone, rfl⟩ | ⟨source, err, rfl, herr, rfl⟩ := hfails
      · exact Engine.loadImage_truncated _ bytes haccepts hnone
      · exact Engine.loadSource_error haccepts herr
    have hstep : step ⟨w, { e with agenda := .host c :: rest }⟩ =
        .next ⟨w, ({ e with agenda := rest } : Engine w).failBoot m⟩ := by
      rw [step_hostFirst, hcall]
    have hdormant := Engine.failBoot_dormant (e := { e with agenda := rest }) hready m
    exact ⟨hstep, fun k => .cons hstep ((hdormant.runsTo k).imp fun _ h => ⟨h.core, h.prog⟩)⟩

end Sys2Proof.Machine
end

section
/-! The step around a cycle (40_execution_loop.md R132 to R136): what the engine's own move runs, at the end of the Program, for
an opcode that no record has, and for a word that decodes. -/

namespace Sys2Proof.Machine

variable {w : Nat}

/-! ### The engine's move -/

/-- Where the engine moves next, the step is its turn, the agenda left with the turns after it. -/
theorem step_of_movesNext {e : Engine w} {rest : List (Turn w)} (h : e.MovesNext rest) :
    step ⟨w, e⟩ = State.engineTurn ⟨w, { e with agenda := rest }⟩ := by
  obtain ⟨hnil, rfl⟩ | hcons := h
  · rw [step_alone e hnil, ← hnil]
  · exact step_engine e rest hcons

theorem engineTurn_of_canCycle {e : Engine w} (h : e.CanCycle) :
    State.engineTurn ⟨w, e⟩ = atBoundary (State.cycle ⟨w, e⟩) := by
  simp [State.engineTurn, h.running, h.notTerminated, h.noSendOwed]

theorem Engine.CanCycle.withAgenda {e : Engine w} (h : e.CanCycle) (rest : List (Turn w)) :
    Engine.CanCycle { e with agenda := rest } :=
  ⟨h.running, h.notTerminated, h.noSendOwed⟩

/-- Where the engine can cycle and moves next, the step is the cycle and the boundary after it. -/
theorem step_of_cycle {e e1 : Engine w} {rest : List (Turn w)} (hcan : e.CanCycle) (hmoves : e.MovesNext rest)
    (hcycle : State.cycle ⟨w, { e with agenda := rest }⟩ = .next ⟨w, e1⟩) :
    step ⟨w, e⟩ = .next ⟨w, e1.boundary⟩ := by
  rw [step_of_movesNext hmoves, engineTurn_of_canCycle (hcan.withAgenda rest), hcycle, atBoundary_next]

/-! ### The cycle -/

theorem cycle_of_endOfProgram {e : Engine w} (h : e.prog.length ≤ e.core.pc) :
    State.cycle ⟨w, e⟩ = .next ⟨w, e.enterHalted⟩ := by
  simp [State.cycle, e.fetch_none.2 h]

theorem cycle_of_decode_error {e : Engine w} {word : CodeWord} {d : DecodeError} (hfetch : e.fetch = some word)
    (hdecode : decodeWith e.cfg.archTable word = .error d) :
    State.cycle ⟨w, e⟩ = .next ⟨w, e.raiseFault .unknownOpcode⟩ := by
  simp [State.cycle, hfetch, hdecode]

theorem cycle_of_decode_ok {e : Engine w} {word : CodeWord} {d : Decoded} (hfetch : e.fetch = some word)
    (hdecode : decodeWith e.cfg.archTable word = .ok d) : State.cycle ⟨w, e⟩ = execDecoded d ⟨w, e⟩ := by
  simp [State.cycle, hfetch, hdecode]

/-- The boundary counts the cycle; where the run goes on it notes a snapshot that is asked for, and else leaves all as it is
(60_exceptions.md R241). -/
theorem Engine.boundary_afterCycle (e : Engine w) : Engine.AfterCycle e e.boundary where
  core := e.boundary_core
  cfg := e.boundary_cfg
  prog := e.boundary_prog
  terminated := e.boundary_terminated
  agenda := e.boundary_agenda
  cycles := e.boundary_cycles
  running hr := by simp [e.boundary_running hr]

/-! ### The step -/

/-- Settles O33: the step is the cycle, which runs what the word decodes to, and the boundary after it. -/
theorem stepRunsTheDecodedInstruction : Obligations.StepRunsTheDecodedInstruction := by
  intro w e word rest hcan hfetch hmoves
  have hstep {d : Decoded} {e1 : Engine w} (hdecode : decodeWith e.cfg.archTable word = .ok d)
      (hexec : execDecoded d ⟨w, { e with agenda := rest }⟩ = .next ⟨w, e1⟩) :
      StepsTo e fun e2 => Engine.AfterCycle e1 e2 := by
    have hcycle := cycle_of_decode_ok (e := { e with agenda := rest }) hfetch hdecode
    exact ⟨e1.boundary, step_of_cycle hcan hmoves (hcycle.trans hexec), e1.boundary_afterCycle⟩
  refine ⟨fun i hdecode => ?instruction, fun p f hdecode => ?operation⟩
  case instruction =>
    obtain ⟨e1, hexec, -⟩ := exec_executes i { e with agenda := rest }
    exact ⟨e1, hexec, hstep hdecode hexec⟩
  case operation =>
    obtain ⟨e1, hexec, -⟩ := execOperation_operates p f { e with agenda := rest }
    exact ⟨e1, hexec, hstep hdecode hexec⟩

/-- Settles O34: the cycle at the end of the Program fetches nothing and enters Halted. -/
theorem endOfProgramHalts : Obligations.EndOfProgramHalts := by
  intro w e rest hcan hmoves hend
  refine ⟨_, step_of_cycle hcan hmoves (cycle_of_endOfProgram hend), ?_⟩
  simp only [Engine.RegistersSame, Engine.CellsSame, Engine.boundary_core, Engine.boundary_prog]
  exact ⟨rfl, rfl, rfl, rfl, fun _ => rfl, fun _ => rfl, rfl⟩

/-- Settles O35: lookup finds no record, so decoding fails, whatever the word's other fields. -/
theorem unknownOpcodeFaults : Obligations.UnknownOpcodeFaults := by
  intro w e word rest hcan hmoves hfetch hunknown
  have hdecode : decodeWith e.cfg.archTable word = .error (.unknownOpcode (unpack word).op) :=
    decodeWith_of_lookup_none (ArchTable.lookup_eq_none_iff.2 hunknown)
  refine ⟨_, step_of_cycle hcan hmoves (cycle_of_decode_error hfetch hdecode), ?_⟩
  simp only [Engine.RegistersSame, Engine.CellsSame, Engine.boundary_core, Engine.boundary_prog]
  exact ⟨rfl, rfl, rfl, rfl, fun _ => rfl, fun _ => rfl, rfl⟩

end Sys2Proof.Machine
end

section
/-! The two lookups of a well-formed table (40_execution_loop.md R131, 10_state.md R33). -/

namespace Sys2Proof

theorem ArchTable.lookup_eq_some_iff {t : ArchTable} (ht : t.wellFormed = true) {op : Opcode} {r : InstructionSpec} :
    t.lookup op = some r ↔ r ∈ t ∧ r.opcode = op.toNat :=
  ⟨ArchTable.lookup_eq_some, fun ⟨hr, hop⟩ => ArchTable.lookup_of_mem ht hr hop⟩

theorem ArchTable.lookupMnemonic_eq_some {t : ArchTable} {m : Text} {r : InstructionSpec}
    (h : t.lookupMnemonic m = some r) : r ∈ t ∧ r.key = normalizeMnemonic m :=
  ⟨List.mem_of_find?_eq_some h, of_decide_eq_true (List.find?_some h :)⟩

/-- The case of a mnemonic does not matter (30_encoding.md R103). -/
theorem ArchTable.lookupMnemonic_congr (t : ArchTable) {m m' : Text} (h : normalizeMnemonic m = normalizeMnemonic m') :
    t.lookupMnemonic m = t.lookupMnemonic m' := by
  simp only [ArchTable.lookupMnemonic, h]

theorem ArchTable.normalizeMnemonic_key {t : ArchTable} (ht : t.wellFormed = true) {r : InstructionSpec} (hr : r ∈ t) :
    normalizeMnemonic r.key = r.key := by
  obtain ⟨-, -, hnormalized, -⟩ := t.wellFormed_iff.1 ht
  exact congrArg normalizeMnemonic (hnormalized r hr).symm

theorem ArchTable.lookupMnemonic_eq_some_iff {t : ArchTable} (ht : t.wellFormed = true) {m : Text}
    {r : InstructionSpec} : t.lookupMnemonic m = some r ↔ r ∈ t ∧ r.key = normalizeMnemonic m := by
  refine ⟨ArchTable.lookupMnemonic_eq_some, fun ⟨hr, hkey⟩ => ?_⟩
  have hsame : normalizeMnemonic m = normalizeMnemonic r.key :=
    hkey.symm.trans (ArchTable.normalizeMnemonic_key ht hr).symm
  exact (t.lookupMnemonic_congr hsame).trans (ArchTable.lookupMnemonic_key ht hr)

/-- Settles O9: no two records of a well-formed table have the same opcode, or the same mnemonic. -/
theorem lookupFindsTheRecord : Obligations.LookupFindsTheRecord :=
  fun _ ht => ⟨fun _ _ => ArchTable.lookup_eq_some_iff ht, fun _ => ArchTable.lookup_eq_none_iff,
    fun _ _ => ArchTable.lookupMnemonic_eq_some_iff ht⟩

end Sys2Proof
end

section
/-! RegOutOfRange (40_execution_loop.md R146, 60_exceptions.md R220): where an operation of another table comes to a register
index above 15 before any other fault, or raises the fault itself. Each part of an operation: the cases of its fault, then the
equivalence. -/

namespace Sys2Proof.Machine

variable {w : Nat}

/-! ### Expressions -/

section
variable (e : Engine w) (f : Fields) (event : Nat) (c : FaultCause)

theorem Engine.value_register_error (x : Expr) :
    e.value f event (.register x) = .error c ↔
      e.value f event x = .error c ∨ ∃ n, e.value f event x = .ok n ∧ 15 < n ∧ c = .regOutOfRange := by
  cases h : e.value f event x with
  | ok n => simp [Engine.value, h, Except.map_error_iff, MachineState.xComputed_error]
  | error d => simp [Engine.value, h]

theorem Engine.value_cell_error (x : Expr) :
    e.value f event (.cell x) = .error c ↔
      e.value f event x = .error c ∨ ∃ a, e.value f event x = .ok a ∧ e.cfg.memWords ≤ a ∧ c = .memOutOfRange := by
  cases h : e.value f event x with
  | ok a => simp [Engine.value, h, Except.map_error_iff, Engine.memRead_error]
  | error d => simp [Engine.value, h]

theorem Engine.value_binary_error (g : BinaryOp) (a b : Expr) :
    e.value f event (.binary g a b) = .error c ↔
      e.value f event a = .error c ∨ ∃ n, e.value f event a = .ok n ∧ e.value f event b = .error c := by
  cases ha : e.value f event a with
  | ok m => cases hb : e.value f event b <;> simp [Engine.value, ha, hb]
  | error d => simp [Engine.value, ha]

theorem Engine.value_choose_error (k a b : Expr) :
    e.value f event (.choose k a b) = .error c ↔
      e.value f event k = .error c ∨ (∃ n, e.value f event k = .ok n ∧ n ≠ 0 ∧ e.value f event a = .error c) ∨
        e.value f event k = .ok 0 ∧ e.value f event b = .error c := by
  cases hk : e.value f event k with
  | ok n => by_cases hn : n = 0 <;> simp [Engine.value, hk, hn]
  | error d => simp [Engine.value, hk]

end

section
variable {e : Engine w} {f : Fields} {event : Nat}

theorem Engine.MeetsBadIndex.value_error {x : Expr} (h : e.MeetsBadIndex f event x) :
    e.value f event x = .error .regOutOfRange := by
  induction h with
  | index x n hv hn => exact (e.value_register_error f event _ x).2 (.inr ⟨n, hv, hn, rfl⟩)
  | inIndex x _ ih => exact (e.value_register_error f event _ x).2 (.inl ih)
  | inAddress x _ ih => exact (e.value_cell_error f event _ x).2 (.inl ih)
  | inFirst g a b _ ih => exact (e.value_binary_error f event _ g a b).2 (.inl ih)
  | inSecond g a b n hv _ ih => exact (e.value_binary_error f event _ g a b).2 (.inr ⟨n, hv, ih⟩)
  | inCondition k a b _ ih => exact (e.value_choose_error f event _ k a b).2 (.inl ih)
  | inThen k a b n hv hn _ ih => exact (e.value_choose_error f event _ k a b).2 (.inr (.inl ⟨n, hv, hn, ih⟩))
  | inElse k a b hv _ ih => exact (e.value_choose_error f event _ k a b).2 (.inr (.inr ⟨hv, ih⟩))

theorem Engine.meetsBadIndex_of_value_error {x : Expr} (h : e.value f event x = .error .regOutOfRange) :
    e.MeetsBadIndex f event x := by
  induction x with
  | const n => cases h
  | field k => cases h
  | xlen => cases h
  | memWords => cases h
  | pc => cases h
  | event => cases h
  | register x ih =>
    obtain hx | ⟨n, hv, hn, -⟩ := (e.value_register_error f event _ x).1 h
    · exact .inIndex x (ih hx)
    · exact .index x n hv hn
  | cell x ih =>
    obtain hx | ⟨_, _, _, hc⟩ := (e.value_cell_error f event _ x).1 h
    · exact .inAddress x (ih hx)
    · cases hc
  | binary g a b iha ihb =>
    obtain ha | ⟨n, hv, hb⟩ := (e.value_binary_error f event _ g a b).1 h
    · exact .inFirst g a b (iha ha)
    · exact .inSecond g a b n hv (ihb hb)
  | choose k a b ihk iha ihb =>
    obtain hk | ⟨n, hv, hn, ha⟩ | ⟨hv, hb⟩ := (e.value_choose_error f event _ k a b).1 h
    · exact .inCondition k a b (ihk hk)
    · exact .inThen k a b n hv hn (iha ha)
    · exact .inElse k a b hv (ihb hb)

theorem Engine.value_eq_regOutOfRange_iff {x : Expr} :
    e.value f event x = .error .regOutOfRange ↔ e.MeetsBadIndex f event x :=
  ⟨Engine.meetsBadIndex_of_value_error, Engine.MeetsBadIndex.value_error⟩

/-! ### The faults of its own -/

/-- Among the faults `rs` the first whose condition is not 0 is `q`, and no condition up to it faults. -/
def Engine.FirstRaised (e : Engine w) (f : Fields) (event : Nat) (q : OperationFault)
    (rs : List (Expr × OperationFault)) : Prop :=
  ∃ before x n after, rs = before ++ (x, q) :: after ∧
    (∀ r ∈ before, e.value f event r.1 = .ok 0) ∧ e.value f event x = .ok n ∧ n ≠ 0

theorem Engine.raisesRegOutOfRange_iff {p : Operation} :
    e.RaisesRegOutOfRange f event p ↔ e.FirstRaised f event .regOutOfRange p.raises :=
  .rfl

theorem Engine.FirstRaised.here {x : Expr} {n : Nat} (q : OperationFault) (rs : List (Expr × OperationFault))
    (hv : e.value f event x = .ok n) (hn : n ≠ 0) : e.FirstRaised f event q ((x, q) :: rs) :=
  ⟨[], x, n, rs, rfl, by simp, hv, hn⟩

theorem Engine.FirstRaised.later {x : Expr} {q : OperationFault} {rs : List (Expr × OperationFault)}
    (r : OperationFault) (hv : e.value f event x = .ok 0) (h : e.FirstRaised f event q rs) :
    e.FirstRaised f event q ((x, r) :: rs) := by
  obtain ⟨before, y, n, after, rfl, hbefore, hy, hn⟩ := h
  exact ⟨(x, r) :: before, y, n, after, rfl, List.forall_mem_cons.2 ⟨hv, hbefore⟩, hy, hn⟩

theorem Engine.checkRaises_cons_error (x : Expr) (r : OperationFault) (rs : List (Expr × OperationFault))
    (c : FaultCause) :
    e.checkRaises f event ((x, r) :: rs) = .error c ↔
      e.value f event x = .error c ∨ (∃ n, e.value f event x = .ok n ∧ n ≠ 0 ∧ raisedCause r = c) ∨
        e.value f event x = .ok 0 ∧ e.checkRaises f event rs = .error c := by
  cases hx : e.value f event x with
  | ok n => by_cases hn : n = 0 <;> simp [Engine.checkRaises, hx, hn]
  | error d => simp [Engine.checkRaises, hx]

theorem raisedCause_eq_regOutOfRange {r : OperationFault} (h : raisedCause r = .regOutOfRange) : r = .regOutOfRange := by
  cases r with
  | memOutOfRange => cases h
  | regOutOfRange => rfl
  | inputUnavailable => cases h

theorem Engine.RaisesMeetBadIndex.checkRaises_error {rs : List (Expr × OperationFault)}
    (h : e.RaisesMeetBadIndex f event rs) : e.checkRaises f event rs = .error .regOutOfRange := by
  induction h with
  | here x r rs hx => exact (Engine.checkRaises_cons_error x r rs _).2 (.inl hx.value_error)
  | later x r rs hv _ ih => exact (Engine.checkRaises_cons_error x r rs _).2 (.inr (.inr ⟨hv, ih⟩))

theorem Engine.FirstRaised.checkRaises_error {q : OperationFault} {rs : List (Expr × OperationFault)}
    (h : e.FirstRaised f event q rs) : e.checkRaises f event rs = .error (raisedCause q) := by
  obtain ⟨before, x, n, after, rfl, hbefore, hx, hn⟩ := h
  induction before with
  | nil => exact (Engine.checkRaises_cons_error x q after _).2 (.inr (.inl ⟨n, hx, hn, rfl⟩))
  | cons r before ih =>
    obtain ⟨hr, hrest⟩ := List.forall_mem_cons.1 hbefore
    exact (Engine.checkRaises_cons_error r.1 r.2 _ _).2 (.inr (.inr ⟨hr, ih hrest⟩))

theorem Engine.checkRaises_eq_regOutOfRange_iff {rs : List (Expr × OperationFault)} :
    e.checkRaises f event rs = .error .regOutOfRange ↔
      e.RaisesMeetBadIndex f event rs ∨ e.FirstRaised f event .regOutOfRange rs := by
  refine ⟨fun h => ?_, fun h => h.elim (·.checkRaises_error) (·.checkRaises_error)⟩
  induction rs with
  | nil => cases h
  | cons r rs ih =>
    obtain ⟨x, r⟩ := r
    obtain hx | ⟨n, hv, hn, hr⟩ | ⟨hv, hrest⟩ := (Engine.checkRaises_cons_error x r rs _).1 h
    · exact .inl (.here x r rs (Engine.meetsBadIndex_of_value_error hx))
    · obtain rfl := raisedCause_eq_regOutOfRange hr
      exact .inr (.here _ rs hv hn)
    · exact (ih hrest).imp (.later x r rs hv) (.later r hv)

/-! ### The writes -/

theorem Engine.writeTo_register_error (x : Expr) (v : Word w) (c : FaultCause) :
    e.writeTo f event (.register x) v = .error c ↔
      e.value f event x = .error c ∨ ∃ n, e.value f event x = .ok n ∧ 15 < n ∧ c = .regOutOfRange := by
  cases h : e.value f event x with
  | ok n => simp [Engine.writeTo, h, Except.map_error_iff, computedRegister_error]
  | error d => simp [Engine.writeTo, h]

theorem Engine.writeTo_cell_error (x : Expr) (v : Word w) (c : FaultCause) :
    e.writeTo f event (.cell x) v = .error c ↔
      e.value f event x = .error c ∨ ∃ a, e.value f event x = .ok a ∧ e.cfg.memWords ≤ a ∧ c = .memOutOfRange := by
  cases h : e.value f event x with
  | ok a => simp [Engine.writeTo, h, Except.map_error_iff, Engine.memWritable_error]
  | error d => simp [Engine.writeTo, h]

theorem Engine.writeTo_eq_regOutOfRange_iff {d : Destination} {v : Word w} :
    e.writeTo f event d v = .error .regOutOfRange ↔ e.PlaceMeetsBadIndex f event d := by
  cases d with
  | register x =>
    rw [Engine.writeTo_register_error]
    constructor
    · rintro (hx | ⟨n, hv, hn, -⟩)
      · exact .inIndex x (Engine.meetsBadIndex_of_value_error hx)
      · exact .index x n hv hn
    · intro h
      cases h with
      | index _ n hv hn => exact .inr ⟨n, hv, hn, rfl⟩
      | inIndex _ hx => exact .inl hx.value_error
  | cell x =>
    rw [Engine.writeTo_cell_error]
    constructor
    · rintro (hx | ⟨_, _, _, hc⟩)
      · exact .inAddress x (Engine.meetsBadIndex_of_value_error hx)
      · cases hc
    · intro h
      cases h with
      | inAddress _ hx => exact .inl hx.value_error

theorem Engine.writesOf_cons_error (o : OperationWrite) (os : List OperationWrite) (c : FaultCause) :
    e.writesOf f event (o :: os) = .error c ↔
      e.value f event o.value = .error c ∨ ∃ n, e.value f event o.value = .ok n ∧
        (e.writeTo f event o.dest (trunc w n) = .error c ∨
          ∃ x, e.writeTo f event o.dest (trunc w n) = .ok x ∧ e.writesOf f event os = .error c) := by
  cases hv : e.value f event o.value with
  | error d => simp [Engine.writesOf, hv]
  | ok n => cases hx : e.writeTo f event o.dest (trunc w n) <;> simp [Engine.writesOf, hv, hx, Except.map_error_iff]

theorem Engine.writesOf_eq_regOutOfRange_iff {os : List OperationWrite} :
    e.writesOf f event os = .error .regOutOfRange ↔ e.WritesMeetBadIndex f event os := by
  constructor
  · intro h
    induction os with
    | nil => cases h
    | cons o os ih =>
      obtain hvalue | ⟨n, hv, hplace | ⟨x, hx, hrest⟩⟩ := (Engine.writesOf_cons_error o os _).1 h
      · exact .value o os (Engine.meetsBadIndex_of_value_error hvalue)
      · exact .place o os n hv (Engine.writeTo_eq_regOutOfRange_iff.1 hplace)
      · exact .later o os n x hv hx (ih hrest)
  · intro h
    induction h with
    | value o os hvalue => exact (Engine.writesOf_cons_error o os _).2 (.inl hvalue.value_error)
    | place o os n hv hplace =>
      have hto : e.writeTo f event o.dest (trunc w n) = .error .regOutOfRange :=
        Engine.writeTo_eq_regOutOfRange_iff.2 hplace
      exact (Engine.writesOf_cons_error o os _).2 (.inr ⟨n, hv, .inl hto⟩)
    | later o os n x hv hx _ ih => exact (Engine.writesOf_cons_error o os _).2 (.inr ⟨n, hv, .inr ⟨x, hx, ih⟩⟩)

/-! ### The next-pc action -/

theorem Engine.transferOf_choose_error (k : Expr) (a b : Transfer) (c : FaultCause) :
    e.transferOf f event (.choose k a b) = .error c ↔
      e.value f event k = .error c ∨ (∃ n, e.value f event k = .ok n ∧ n ≠ 0 ∧ e.transferOf f event a = .error c) ∨
        e.value f event k = .ok 0 ∧ e.transferOf f event b = .error c := by
  cases hk : e.value f event k with
  | ok n => by_cases hn : n = 0 <;> simp [Engine.transferOf, hk, hn]
  | error d => simp [Engine.transferOf, hk]

theorem Engine.transferOf_eq_regOutOfRange_iff {t : Transfer} :
    e.transferOf f event t = .error .regOutOfRange ↔ e.TransferMeetsBadIndex f event t := by
  constructor
  · intro h
    induction t with
    | next => cases h
    | jump x => exact .target x (Engine.meetsBadIndex_of_value_error ((Except.map_error_iff _ _ _).1 h))
    | halt => cases h
    | choose k a b iha ihb =>
      obtain hk | ⟨n, hv, hn, ha⟩ | ⟨hv, hb⟩ := (Engine.transferOf_choose_error k a b _).1 h
      · exact .inCondition k a b (Engine.meetsBadIndex_of_value_error hk)
      · exact .inThen k a b n hv hn (iha ha)
      · exact .inElse k a b hv (ihb hb)
  · intro h
    induction h with
    | target x hx => exact (Except.map_error_iff _ _ _).2 hx.value_error
    | inCondition k a b hk => exact (Engine.transferOf_choose_error k a b _).2 (.inl hk.value_error)
    | inThen k a b n hv hn _ ih => exact (Engine.transferOf_choose_error k a b _).2 (.inr (.inl ⟨n, hv, hn, ih⟩))
    | inElse k a b hv _ ih => exact (Engine.transferOf_choose_error k a b _).2 (.inr (.inr ⟨hv, ih⟩))

/-! ### A whole operation -/

/-- An operation answers a fault of its own, else one of its writes, else one of its next-pc action. -/
theorem Engine.operate_fault_iff (p : Operation) (c : FaultCause) :
    e.operate p f event = .fault c ↔
      e.checkRaises f event p.raises = .error c ∨
        e.checkRaises f event p.raises = .ok () ∧
          (e.writesOf f event p.writes = .error c ∨
            ∃ ws, e.writesOf f event p.writes = .ok ws ∧ e.transferOf f event p.transfer = .error c) := by
  cases hr : e.checkRaises f event p.raises with
  | error d => simp [Engine.operate, hr]
  | ok u =>
    cases hw : e.writesOf f event p.writes with
    | error d => simp [Engine.operate, hr, hw]
    | ok ws => cases ht : e.transferOf f event p.transfer <;> simp [Engine.operate, hr, hw, ht]

theorem Engine.operate_eq_regOutOfRange_iff {p : Operation} :
    e.operate p f event = .fault .regOutOfRange ↔
      e.OperationMeetsBadIndex f event p ∨ e.RaisesRegOutOfRange f event p := by
  rw [Engine.operate_fault_iff, Engine.checkRaises_eq_regOutOfRange_iff, Engine.writesOf_eq_regOutOfRange_iff,
    Engine.transferOf_eq_regOutOfRange_iff, Engine.raisesRegOutOfRange_iff]
  constructor
  · rintro ((h | h) | ⟨hr, h | ⟨ws, hw, h⟩⟩)
    · exact .inl (.raises h)
    · exact .inr h
    · exact .inl (.writes hr h)
    · exact .inl (.transfer hr ws hw h)
  · rintro ((h | ⟨hr, h⟩ | ⟨hr, ws, hw, h⟩) | h)
    · exact .inl (.inl h)
    · exact .inr ⟨hr, .inl h⟩
    · exact .inr ⟨hr, .inr ⟨ws, hw, h⟩⟩
    · exact .inl (.inr h)

/-! ### The fault taken -/

theorem Engine.operationEvent_of_takes {p : Operation} {v : Word w} (hp : p.takesEvent = true)
    (hv : e.inputStatus = .event v) : e.OperationEvent p v.toNat := by
  obtain ⟨ch, rest, hch, hqueue⟩ := (e.inputStatus_event v).1 hv
  exact .inr ⟨hp, ch, v, rest, hch, hqueue, rfl⟩

/-- An operation that faults with its event takes the fault, and leaves the event (60_exceptions.md R222). -/
theorem execOperation_of_fault {p : Operation} {c : FaultCause} (hevent : e.OperationEvent p event)
    (hfault : e.operate p f event = .fault c) : execOperation p f ⟨w, e⟩ = .next ⟨w, e.raiseFault c⟩ := by
  obtain ⟨hp, rfl⟩ | ⟨hp, ch, v, rest, hch, hqueue, rfl⟩ := hevent
  · simp [execOperation, hp, hfault]
  · have hstatus : e.inputStatus = .event v := (e.inputStatus_event v).2 ⟨ch, rest, hch, hqueue⟩
    simp [execOperation, hp, hstatus, hfault]

@[simp] theorem Engine.advance_core_faultCause (e : Engine w) (nx : NextPc) :
    (e.advance nx).core.faultCause = e.core.faultCause := by
  cases nx <;> rfl

/-- The end of a cycle records no cause but that of the fault it ends in. -/
theorem Engine.conclude_faultCause {r : ExecResult w} {c : FaultCause} (h : (e.conclude r).core.faultCause = c)
    (hne : e.core.faultCause ≠ c) : r = .fault c := by
  cases r with
  | ok ws nx => exact absurd (by simpa using h) hne
  | fault d => exact congrArg ExecResult.fault h
  | wait => exact absurd h hne

theorem Engine.concludeTaking_faultCause {r : ExecResult w} {c : FaultCause}
    (h : (e.concludeTaking r).core.faultCause = c) (hne : e.core.faultCause ≠ c) : r = .fault c := by
  cases r with
  | ok ws nx => exact absurd (by simpa using h) hne
  | fault d => exact congrArg ExecResult.fault h
  | wait => exact absurd h hne

/-- An operation records RegOutOfRange only as the fault that it computes with its event: a peripheral read without an event
waits, or faults with another cause (42_memory_io.md R183). -/
theorem execOperation_regOutOfRange {e' : Engine w} {p : Operation}
    (hexec : execOperation p f ⟨w, e⟩ = .next ⟨w, e'⟩) (hbefore : e.core.faultCause ≠ .regOutOfRange)
    (hafter : e'.core.faultCause = .regOutOfRange) :
    ∃ event, e.OperationEvent p event ∧ e.operate p f event = .fault .regOutOfRange := by
  unfold execOperation at hexec
  split at hexec
  next hp =>
    split at hexec
    next =>
      obtain rfl : e.raiseFault .inputUnavailable = e' := by simpa using hexec
      cases hafter
    next =>
      obtain rfl : e = e' := by simpa using hexec
      exact absurd hafter hbefore
    next v hv =>
      obtain rfl : e.concludeTaking (e.operate p f v.toNat) = e' := by simpa using hexec
      exact ⟨_, Engine.operationEvent_of_takes hp hv, Engine.concludeTaking_faultCause hafter hbefore⟩
  next hp =>
    obtain rfl : e.conclude (e.operate p f 0) = e' := by simpa using hexec
    exact ⟨0, .inl ⟨by simpa using hp, rfl⟩, Engine.conclude_faultCause hafter hbefore⟩

/-- No instruction of the reference table computes a register index: none records RegOutOfRange (40_execution_loop.md R146). -/
theorem Executes.regOutOfRange {e' : Engine w} (h : Executes e e') (hafter : e'.core.faultCause = .regOutOfRange) :
    e.core.faultCause = .regOutOfRange := by
  cases h with
  | register rd v => exact hafter
  | cell a v _ => exact hafter
  | next => exact hafter
  | jump t _ => exact hafter
  | halt => exact hafter
  | fault c hc =>
    obtain rfl : c = .regOutOfRange := hafter
    exact absurd hc (by decide)
  | wait => exact hafter
  | receive rd v _ => exact hafter

end

theorem MachineState.xComputed_field (m : MachineState w) (r : RegIndex) : m.xComputed r.toNat = .ok (m.x r) := by
  simp [MachineState.xComputed, computedRegister_field, Except.map]

/-- Settles O30: each part of an operation answers RegOutOfRange exactly where it comes to an index above 15, and the fault of an
operation is that of its first part to fault. -/
theorem regOutOfRangeIsBadIndexOrOwnFault : Obligations.RegOutOfRangeIsBadIndexOrOwnFault := by
  refine ⟨rfl, fun w m n hn => (m.xComputed_error n _).2 ⟨hn, rfl⟩, fun w m r => m.xComputed_field r,
    fun w e f event x => Engine.value_eq_regOutOfRange_iff, ?taken, ?only, ?instruction⟩
  case taken =>
    intro w e f p event hevent h
    exact ⟨_, execOperation_of_fault hevent (Engine.operate_eq_regOutOfRange_iff.2 h), e.raiseFault_frame _⟩
  case only =>
    intro w e e' f p hexec hbefore hafter
    obtain ⟨event, hevent, hfault⟩ := execOperation_regOutOfRange hexec hbefore hafter
    exact ⟨event, hevent, Engine.operate_eq_regOutOfRange_iff.1 hfault⟩
  case instruction =>
    intro w e e' i hexec hafter
    obtain ⟨e1, h1, hexecutes⟩ := exec_executes i e
    obtain rfl : e1 = e' := by simpa [h1] using hexec
    exact hexecutes.regOutOfRange hafter

end Sys2Proof.Machine
end

section
/-! Decoding a word of the reference table with any values in its ignored fields (30_encoding.md R85, R95). -/

namespace Sys2Proof

/-- What an operation makes of a word does not depend on the fields its kinds do not name. -/
theorem Op.build_named (o : Op) (f : Fields) : o.build (f.named o.kinds) = o.build f := by
  cases o <;> rfl

/-- Only the opcode selects the operation, and the operands are the fields as they stand. -/
theorem decode_pack (o : Op) (rd rs : RegIndex) (imm : Imm) :
    decode (pack ⟨o.opcode, rd, rs, imm⟩) = .ok (o.build ⟨o.opcode, rd, rs, imm⟩) := by
  obtain ⟨r, hr, hsem, hop, hkinds⟩ := exists_reference_row o
  have hlookup : ArchTable.reference.lookup (unpack (pack ⟨o.opcode, rd, rs, imm⟩)).op = some r :=
    ArchTable.lookup_of_mem reference_wellFormed hr (by rw [unpack_pack, hop])
  simp only [decode, decodeWith_of_lookup hlookup, unpack_pack, hsem, hkinds, Sem.decode, Op.build_named]

end Sys2Proof
end

section
/-! ALU and register-transfer instructions (41_alu.md R160 to R169): each value as a number or bit by bit, and that every
instruction of the family writes its value to its dest register, advances and completes. -/

namespace Sys2Proof.Machine

variable {w : Nat}

/-! ### Values -/

/-- A width of at least 16 holds every immediate (00_scope.md R6, 30_encoding.md R84). -/
theorem immediateValue_toNat (hw : 16 ≤ w) (imm : Imm) : (immediateValue w imm).toNat = imm.toNat :=
  BitVec.toNat_setWidth_of_le hw

theorem trunc_toNat (n : Nat) : (trunc w n).toNat = n % 2 ^ w :=
  BitVec.toNat_ofNat n w

theorem aluAdd_toNat (a b : Word w) : (aluAdd a b).toNat = (a.toNat + b.toNat) % 2 ^ w :=
  trunc_toNat _

theorem aluSub_toNat (a b : Word w) : (aluSub a b).toNat = (a.toNat + 2 ^ w - b.toNat) % 2 ^ w :=
  trunc_toNat _

theorem aluAnd_getLsbD (a b : Word w) (k : Nat) : (aluAnd a b).getLsbD k = (a.getLsbD k && b.getLsbD k) :=
  BitVec.getLsbD_and

theorem aluOr_getLsbD (a b : Word w) (k : Nat) : (aluOr a b).getLsbD k = (a.getLsbD k || b.getLsbD k) :=
  BitVec.getLsbD_or

theorem aluXor_getLsbD (a b : Word w) (k : Nat) : (aluXor a b).getLsbD k = (a.getLsbD k ^^ b.getLsbD k) :=
  BitVec.getLsbD_xor

theorem aluShl_toNat (a b : Word w) :
    (aluShl a b).toNat = if b.toNat ≥ w then 0 else a.toNat * 2 ^ b.toNat % 2 ^ w := by
  unfold aluShl
  split
  · exact BitVec.toNat_zero
  · exact trunc_toNat _

/-- A quotient of a word is a word: the truncation in R168 drops nothing. -/
theorem aluShr_toNat (a b : Word w) :
    (aluShr a b).toNat = if b.toNat ≥ w then 0 else a.toNat / 2 ^ b.toNat := by
  have hlt : a.toNat / 2 ^ b.toNat < 2 ^ w := (Nat.div_le_self _ _).trans_lt a.isLt
  unfold aluShr
  split
  · exact BitVec.toNat_zero
  · rw [trunc_toNat, Nat.mod_eq_of_lt hlt]

/-! ### Meanings -/

/-- An instruction that concludes with one register write completes, writes its value there, advances and changes nothing
else; `P` is what is to be shown of the value. -/
theorem completes_of_registerResult {i : Instr} {e : Engine w} {rd : RegIndex} {v : Word w} {P : Engine w → Prop}
    (hexec : exec i ⟨w, e⟩ = State.conclude ⟨w, e⟩ (registerResult rd v)) (hvalue : ∀ e', e'.core.x rd = v → P e') :
    Completes i e fun e' => P e' ∧ e'.core.pc = e.core.pc + 1 ∧ Engine.OnlyRegister rd e e' :=
  ⟨_, hexec.trans (State.conclude_mk e _), hvalue _ (e.conclude_registerResult_x rd v), e.conclude_registerResult_pc rd v,
    e.conclude_registerResult_frame rd v⟩

/-- Settles O10: the width holds the immediate, so its zero-extension is the same number. -/
theorem ldiLoadsZeroExtendedImmediate : Obligations.LdiLoadsZeroExtendedImmediate :=
  fun _ _ rd rs imm hw => ⟨decode_pack .ldi rd rs imm,
    completes_of_registerResult rfl fun _ hx => by rw [hx, immediateValue_toNat hw]⟩

/-- Settles O11: the value written is the register read. -/
theorem movCopiesRegister : Obligations.MovCopiesRegister :=
  fun _ _ rd rs imm => ⟨decode_pack .mov rd rs imm, completes_of_registerResult rfl fun _ hx => hx⟩

/-- Settles O12: the exact sum is truncated to the width. -/
theorem addWrapsAtXlen : Obligations.AddWrapsAtXlen :=
  fun _ _ rd rs imm => ⟨decode_pack .add rd rs imm,
    completes_of_registerResult rfl fun _ hx => by rw [hx, aluAdd_toNat]⟩

/-- Settles O13: the exact difference, made natural by 2^XLEN, is truncated to the width. -/
theorem subWrapsAtXlen : Obligations.SubWrapsAtXlen :=
  fun _ _ rd rs imm => ⟨decode_pack .sub rd rs imm,
    completes_of_registerResult rfl fun _ hx => by rw [hx, aluSub_toNat]⟩

/-- Settles O14: each of the three values is made bit by bit. -/
theorem logicIsBitByBit : Obligations.LogicIsBitByBit := by
  refine fun _ _ rd rs imm => ⟨⟨decode_pack .and rd rs imm, ?and⟩, ⟨decode_pack .or rd rs imm, ?or⟩,
    ⟨decode_pack .xor rd rs imm, ?xor⟩⟩
  case and => exact completes_of_registerResult rfl fun _ hx k => by rw [hx, aluAnd_getLsbD]
  case or => exact completes_of_registerResult rfl fun _ hx k => by rw [hx, aluOr_getLsbD]
  case xor => exact completes_of_registerResult rfl fun _ hx k => by rw [hx, aluXor_getLsbD]

/-- Settles O15: the amount is compared with the width before anything is shifted. -/
theorem shlShiftsByWholeRegister : Obligations.ShlShiftsByWholeRegister :=
  fun _ _ rd rs imm => ⟨decode_pack .shl rd rs imm,
    completes_of_registerResult rfl fun _ hx => by rw [hx, aluShl_toNat]⟩

/-- Settles O16: below the width the shifted word is the quotient, which no truncation changes. -/
theorem shrShiftsInZeros : Obligations.ShrShiftsInZeros :=
  fun _ _ rd rs imm => ⟨decode_pack .shr rd rs imm,
    completes_of_registerResult rfl fun _ hx => by rw [hx, aluShr_toNat]⟩

/-- Settles O17: the width holds the immediate, so the sum truncated is that with the immediate as a number. -/
theorem addiAddsZeroExtendedImmediate : Obligations.AddiAddsZeroExtendedImmediate :=
  fun _ _ rd rs imm hw => ⟨decode_pack .addi rd rs imm,
    completes_of_registerResult rfl fun _ hx => by rw [hx, aluAdd_toNat, immediateValue_toNat hw]⟩

end Sys2Proof.Machine
end

section
/-! Memory access and peripheral input (42_memory_io.md R180 to R183, R186): LD and ST on cells that do not exist, the three
things IN can find, and the run in which an event lifts the wait of an IN. -/

namespace Sys2Proof.Machine

variable {w : Nat}

/-! ### LD and ST -/

/-- Settles O23: the model adds natural numbers, so nothing wraps. -/
theorem effectiveAddressIsExact : Obligations.EffectiveAddressIsExact :=
  fun _ _ _ => rfl

/-- LD of a cell that does not exist faults (42_memory_io.md R181). -/
theorem exec_ld_of_missing (e : Engine w) (rd rs : RegIndex) (imm : Imm)
    (h : e.cfg.memWords ≤ effectiveAddress (e.core.x rs) imm) :
    exec (.ld rd rs imm) ⟨w, e⟩ = .next ⟨w, e.raiseFault .memOutOfRange⟩ := by
  have herror := (e.memRead_error (effectiveAddress (e.core.x rs) imm) _).2 ⟨h, rfl⟩
  simp only [exec, execLd, herror, State.conclude_mk, Engine.conclude_fault]

/-- ST on a cell that does not exist faults (42_memory_io.md R182). -/
theorem exec_st_of_missing (e : Engine w) (rd rs : RegIndex) (imm : Imm)
    (h : e.cfg.memWords ≤ effectiveAddress (e.core.x rd) imm) :
    exec (.st rd rs imm) ⟨w, e⟩ = .next ⟨w, e.raiseFault .memOutOfRange⟩ := by
  have herror := (e.memWritable_error (effectiveAddress (e.core.x rd) imm) _).2 ⟨h, rfl⟩
  simp only [exec, execSt, herror, State.conclude_mk, Engine.conclude_fault]

/-- An instruction that raises a fault completes, and does nothing else (60_exceptions.md R222). -/
theorem completes_of_raiseFault {i : Instr} {e : Engine w} {c : FaultCause}
    (hexec : exec i ⟨w, e⟩ = .next ⟨w, e.raiseFault c⟩) : Completes i e fun e' => Engine.TookFault c e e' :=
  ⟨_, hexec, e.raiseFault_frame c⟩

/-- Settles O24: LD writes the cell it reads to its dest register, or raises the fault of the read. -/
theorem ldLoadsCellOrFaults : Obligations.LdLoadsCellOrFaults :=
  fun _ e rd rs imm => ⟨decode_pack .ld rd rs imm,
    fun hexists => completes_of_registerResult (exec_ld_of_exists e rd rs imm hexists) fun _ hx => hx,
    fun hmissing => completes_of_raiseFault (exec_ld_of_missing e rd rs imm hmissing)⟩

/-- Settles O25: ST writes the one cell, which the read after the write finds, or raises the fault of the write. -/
theorem stStoresCellOrFaults : Obligations.StStoresCellOrFaults := by
  refine fun _ e rd rs imm hmem => ⟨decode_pack .st rd rs imm, effectiveAddressIsExact _ _ imm, ?stores, ?faults⟩
  case stores =>
    intro hexists
    have hread := Memory.read_write e.core.mem hmem (effectiveAddress (e.core.x rd) imm) (e.core.x rs)
    exact ⟨_, exec_st_of_exists e rd rs imm hexists, (hread _).trans (if_pos rfl), fun b hb => (hread b).trans (if_neg hb),
      rfl, fun _ => rfl, ⟨rfl, rfl, rfl⟩, rfl, ⟨rfl, rfl, rfl, rfl, rfl, rfl, rfl, rfl, rfl⟩⟩
  case faults => exact fun hmissing => completes_of_raiseFault (exec_st_of_missing e rd rs imm hmissing)

/-! ### IN -/

/-- IN with an event queued takes the oldest one and writes it to its dest register (42_memory_io.md R183). -/
theorem exec_in_of_event {e : Engine w} (rd : RegIndex) {ch : InChannel w} {v : Word w} {rest : List (Word w)}
    (hch : e.input = some ch) (hqueue : ch.queue = v :: rest) :
    exec (.inp rd) ⟨w, e⟩ = .next ⟨w, e.recvInput.conclude (registerResult rd v)⟩ := by
  have hstatus := (e.inputStatus_event v).2 ⟨ch, rest, hch, hqueue⟩
  simp only [exec, execIn, hstatus]
  rfl

/-- IN on an empty open channel waits: nothing is written (42_memory_io.md R183). -/
theorem exec_in_of_pending {e : Engine w} (rd : RegIndex) {ch : InChannel w} (hch : e.input = some ch)
    (hqueue : ch.queue = []) (hopen : ch.isOpen = true) : exec (.inp rd) ⟨w, e⟩ = .next ⟨w, e⟩ := by
  have hstatus := e.inputStatus_pending.2 ⟨ch, hch, hqueue, hopen⟩
  simp only [exec, execIn, hstatus, State.conclude_mk, Engine.conclude_wait]

/-- IN faults without a channel, and at the end of the stream (42_memory_io.md R183). -/
theorem exec_in_of_unavailable {e : Engine w} (rd : RegIndex)
    (h : e.input = none ∨ ∃ ch, e.input = some ch ∧ ch.queue = [] ∧ ch.isOpen = false) :
    exec (.inp rd) ⟨w, e⟩ = .next ⟨w, e.raiseFault .inputUnavailable⟩ := by
  have hstatus := e.inputStatus_unavailable.2 h
  simp only [exec, execIn, hstatus, State.conclude_mk, Engine.conclude_fault]

/-- To receive an event takes the oldest one off the queue (42_memory_io.md R186). -/
theorem Engine.recvInput_input_of_event {e : Engine w} {ch : InChannel w} {v : Word w} {rest : List (Word w)}
    (hch : e.input = some ch) (hqueue : ch.queue = v :: rest) :
    e.recvInput.input = some { ch with queue := rest } := by
  simp [hch, hqueue]

/-- Settles O26: the three things the input channel can hold give the three outcomes. -/
theorem inReceivesWaitsOrFaults : Obligations.InReceivesWaitsOrFaults := by
  refine fun _ e rd rs imm => ⟨decode_pack .inp rd rs imm, ?receives, ?waits, ?faults⟩
  case receives =>
    intro ch v rest hch hqueue
    have hframe := e.recvInput.conclude_registerResult_frame rd v
    exact ⟨_, exec_in_of_event rd hch hqueue, Engine.conclude_registerResult_x _ rd v,
      hframe.input.trans (Engine.recvInput_input_of_event hch hqueue), rfl, hframe.registers, hframe.cells,
      ⟨rfl, rfl, rfl⟩, ⟨rfl, rfl, rfl, rfl, rfl, rfl, rfl, rfl, rfl⟩⟩
  case waits => exact fun ch hch hqueue hopen => exec_in_of_pending rd hch hqueue hopen
  case faults => exact fun h => completes_of_raiseFault (exec_in_of_unavailable rd h)

/-! ### An event lifts the wait -/

/-- Where an engine without an output channel runs an instruction and goes on, the step is the instruction and one cycle
more: no snapshot is ever owed (60_exceptions.md R241). -/
theorem step_of_instr_headless {e e1 : Engine w} {rest : List (Turn w)} {word : CodeWord} {i : Instr} (hcan : e.CanCycle)
    (hmoves : e.MovesNext rest) (hfetch : e.fetch = some word)
    (hdecode : decodeWith e.cfg.archTable word = .ok (.instr i))
    (hexec : exec i ⟨w, { e with agenda := rest }⟩ = .next ⟨w, e1⟩) (hrunning : e1.core.runState = .running)
    (houtput : e1.output = none) :
    step ⟨w, e⟩ = .next ⟨w, { e1 with cycles := e1.cycles + 1, snapshotDue := false }⟩ := by
  have hcycle := cycle_of_decode_ok (e := { e with agenda := rest }) hfetch hdecode
  rw [step_of_cycle hcan hmoves (hcycle.trans hexec), e1.boundary_running hrunning]
  simp [houtput]

/-- Settles O48: the first cycle waits, the event is queued alone, and the second cycle takes it. -/
theorem eventLiftsInputWait : Obligations.EventLiftsInputWait := by
  intro w e word rd ch v q hcan hfetch hdecode hch hqueue hopen houtput hagenda
  have hwait := step_of_instr_headless hcan (.inr hagenda) hfetch hdecode
    (exec_in_of_pending (e := { e with agenda := [.renderer (.sendEvent v q)] }) rd hch hqueue hopen) hcan.running houtput
  refine .cons hwait (.cons (eventsArriveInSendOrder.2 _ _ ch v q [] rfl hch hopen) ?_)
  have hsent : ch.queue ++ [v] = [v] := by simp [hqueue]
  have hdrained : some { ch with queue := (ch.queue ++ [v]).tail } = some ch := by rw [hsent, List.tail_cons, ← hqueue]
  exact .cons (step_of_instr_headless ⟨hcan.running, hcan.notTerminated, rfl⟩ (.inl ⟨rfl, rfl⟩) hfetch hdecode
    (exec_in_of_event rd rfl hsent) hcan.running houtput) ⟨_, rfl, rfl, hdrained, rfl⟩

end Sys2Proof.Machine
end

section
/-! Control transfer and halt (43_control.md R200 to R206): where each transfer sets `pc`, that it writes nothing else, and
that HALT ends the run. -/

namespace Sys2Proof.Machine

variable {w : Nat}

/-! ### NOP and the jumps -/

/-- A branch answers the state with `pc` set, to its target or to the next instruction (40_execution_loop.md R139). -/
theorem State.conclude_branch (e : Engine w) (c : Prop) [Decidable c] (t : Nat) :
    State.conclude ⟨w, e⟩ (.ok [] (if c then .jump t else .next)) =
      .next ⟨w, e.setPc (if c then t else e.core.pc + 1)⟩ := by
  split <;> rfl

theorem toNat_eq_zero_iff (v : Word w) : v.toNat = 0 ↔ v = 0#w := by
  rw [← BitVec.toNat_inj, BitVec.toNat_zero]

/-- JZ tests the register's value as a number (43_control.md R205). -/
theorem exec_jz (e : Engine w) (rs : RegIndex) (imm : Imm) :
    exec (.jz rs imm) ⟨w, e⟩ =
      .next ⟨w, e.setPc (if (e.core.x rs).toNat = 0 then imm.toNat else e.core.pc + 1)⟩ := by
  simp only [toNat_eq_zero_iff]
  exact State.conclude_branch e _ (branchTarget imm)

/-- JNZ makes the same test and takes the branch in the other case (43_control.md R206). -/
theorem exec_jnz (e : Engine w) (rs : RegIndex) (imm : Imm) :
    exec (.jnz rs imm) ⟨w, e⟩ =
      .next ⟨w, e.setPc (if (e.core.x rs).toNat ≠ 0 then imm.toNat else e.core.pc + 1)⟩ := by
  simp only [ne_eq, toNat_eq_zero_iff]
  exact State.conclude_branch e _ (branchTarget imm)

/-- An instruction that only sets `pc` completes, and changes nothing else. -/
theorem completes_of_setPc {i : Instr} {e : Engine w} {t : Nat} (hexec : exec i ⟨w, e⟩ = .next ⟨w, e.setPc t⟩) :
    Completes i e fun e' => e'.core.pc = t ∧ Engine.OnlyPc e e' :=
  ⟨_, hexec, rfl, e.setPc_frame t⟩

/-- Settles O19: NOP has no writes, so only the advance is left. -/
theorem nopOnlyAdvances : Obligations.NopOnlyAdvances :=
  fun _ _ rd rs imm => ⟨decode_pack .nop rd rs imm, completes_of_setPc rfl⟩

/-- Settles O20: the target is the immediate, used without extension, scaling or adding `pc` (43_control.md R203). -/
theorem jmpSetsPcToImmediate : Obligations.JmpSetsPcToImmediate :=
  fun _ _ rd rs imm => ⟨decode_pack .jmp rd rs imm, completes_of_setPc rfl⟩

/-- Settles O21: whichever way the test goes, JZ only sets `pc`. -/
theorem jzJumpsOnZero : Obligations.JzJumpsOnZero :=
  fun _ e rd rs imm => ⟨decode_pack .jz rd rs imm, completes_of_setPc (exec_jz e rs imm)⟩

/-- Settles O22: whichever way the test goes, JNZ only sets `pc`. -/
theorem jnzJumpsOnNonZero : Obligations.JnzJumpsOnNonZero :=
  fun _ e rd rs imm => ⟨decode_pack .jnz rd rs imm, completes_of_setPc (exec_jnz e rs imm)⟩

/-! ### HALT -/

/-- HALT is the entry to Halted and nothing more (43_control.md R201). -/
theorem exec_halt (e : Engine w) : exec .halt ⟨w, e⟩ = .next ⟨w, e.enterHalted⟩ :=
  rfl

/-- Entry to Halted leaves everything outside MachineState (40_execution_loop.md R140). -/
theorem Engine.enterHalted_outside (e : Engine w) : Engine.OutsideSame e e.enterHalted :=
  ⟨rfl, rfl, rfl, rfl, rfl, rfl, rfl, rfl, rfl⟩

/-- An engine that has entered Halted executes no further cycle (40_execution_loop.md R140). -/
theorem Engine.enterHalted_stopped (e : Engine w) : e.enterHalted.Stopped :=
  .inl (.inl e.enterHalted_core_runState)

/-- Settles O18: HALT enters Halted, and a stopped engine keeps its MachineState for any number of steps. -/
theorem haltEntersHalted : Obligations.HaltEntersHalted := by
  refine fun w e rd rs imm => ⟨decode_pack .halt rd rs imm, e.enterHalted, exec_halt e, e.enterHalted_core_runState, ?flags,
    e.enterHalted_core_pc, e.enterHalted_core_faultCause, ?registers, ?cells, e.enterHalted_input, e.enterHalted_outside,
    ?nothingAfter⟩
  case flags => rw [e.enterHalted_core_flags, Flags.value, if_pos rfl]
  case registers => exact MachineState.x_congr e.enterHalted_core_regs
  case cells => exact fun a => by rw [e.enterHalted_core_mem]
  case nothingAfter =>
    exact fun k => (nothingHappensAfterTheEnd w e.enterHalted k e.enterHalted_stopped).imp fun _ ⟨hcore, _, _⟩ => hcore

end Sys2Proof.Machine
end

section
/-! Faults and the end of a run (60_exceptions.md R222, R230, R242, 40_execution_loop.md R148): what a cycle that faults
leaves, what the step that ends a run does to the channels and tells the host, and a termination. -/

namespace Sys2Proof.Machine

variable {w : Nat}

/-! ### Fault entry -/

/-- A cycle that answers a next state is one of the cases of `Cycles`. -/
theorem Cycles.of_cycle {e e' : Engine w} (h : State.cycle ⟨w, e⟩ = .next ⟨w, e'⟩) : Cycles e e' := by
  obtain ⟨e1, hcycle, hc⟩ := cycle_cycles e
  obtain rfl : e1 = e' := by simpa [hcycle] using h
  exact hc

/-- The next-pc action never enters Faulted: only a fault does (40_execution_loop.md R139, R141). -/
theorem Engine.advance_ne_faulted {e : Engine w} (hr : e.core.runState = .running) (nx : NextPc) :
    (e.advance nx).core.runState ≠ .faulted := by
  cases nx with
  | next => simp [hr]
  | jump t => simp [hr]
  | halt => simp

/-- The one way from a run into Faulted is fault entry, from the state before the cycle: no write is committed and no event
is taken (60_exceptions.md R222). -/
theorem Cycles.eq_raiseFault {e e' : Engine w} (h : Cycles e e') (hr : e.core.runState = .running)
    (hf : e'.core.runState = .faulted) : ∃ c, c ≠ .none ∧ e' = e.raiseFault c := by
  obtain hop | rfl := h.operates_or_unknownOpcode
  · cases hop with
    | completes ws nx _ => exact absurd hf (Engine.advance_ne_faulted (by simpa using hr) nx)
    | takes v ws nx _ _ => exact absurd hf (Engine.advance_ne_faulted (by simpa using hr) nx)
    | fault c hc => exact ⟨c, hc.ne_none, rfl⟩
    | wait => simp [hr] at hf
  · exact ⟨.unknownOpcode, by decide, rfl⟩

/-- Settles O28: fault entry writes the two registers of the state before the cycle. -/
theorem faultsArePrecise : Obligations.FaultsArePrecise :=
  fun _ _ _ hr hcycle hf => (Cycles.of_cycle hcycle).eq_raiseFault hr hf

/-! ### The end of a run -/

/-- A run that has ended is reported by its run state, with the cause of a fault (40_execution_loop.md R148). -/
theorem MachineState.report_eq_of_ended {m : MachineState w} (h : m.Ended) :
    m.report = some (if m.runState = .halted then .halted else .faulted m.faultCause) := by
  obtain h | h := h <;> simp [MachineState.report, h]

@[simp] theorem Engine.trySend_core (e : Engine w) : e.trySend.core = e.core := by
  obtain ⟨o, d, h⟩ := e.trySend_frame
  rw [h]

theorem MachineState.not_ended_of_running {m : MachineState w} (h : m.runState = .running) : ¬ m.Ended := by
  simp [MachineState.Ended, h]

/-- A running engine's turn ends the run only by a cycle: a send, or nothing, leaves it running. -/
theorem EngineTurns.cycle_of_ended {e e' : Engine w} (h : EngineTurns e e') (hr : e.core.runState = .running)
    (hended : e'.core.Ended) : ∃ e1, Cycles e e1 ∧ e1.core.Ended ∧ e' = e1.boundary := by
  cases h with
  | idle _ => exact absurd hended (MachineState.not_ended_of_running hr)
  | send _ _ _ => exact absurd hended (MachineState.not_ended_of_running (by simpa using hr))
  | cycle e1 _ _ _ hc => exact ⟨e1, hc, by simpa using hended, rfl⟩

/-- From `e` to `e'` the run has ended: each channel that is present is closed, and the host is told the outcome
(60_exceptions.md R242, 40_execution_loop.md R148). -/
structure Engine.ShutsDown (e e' : Engine w) : Prop where
  input_closed : ∀ ch, e'.input = some ch → ch.isOpen = false
  input_isSome : e'.input.isSome = e.input.isSome
  output : e'.output = e.output.map OutChannel.close
  hostInbox : e'.hostInbox = e.hostInbox ++
    [.outcome (if e'.core.runState = .halted then .halted else .faulted e'.core.faultCause)]

/-- The boundary shuts down a run that the cycle has ended; the cycle itself leaves the output channel and the host's
messages. -/
theorem Cycles.shutsDown {e e' : Engine w} (h : Cycles e e') (hended : e'.core.Ended) : e.ShutsDown e'.boundary := by
  have hsame := h.outsideSame
  have hboundary := e'.boundary_ended _ (MachineState.report_eq_of_ended hended)
  refine ⟨fun ch hch => ?closed, ?present, ?output, ?told⟩
  case closed =>
    obtain ⟨ch0, -, rfl⟩ : ∃ ch0, e'.input = some ch0 ∧ ch0.close = ch := by simpa [hboundary] using hch
    exact ch0.close_isOpen
  case present => simpa [hboundary] using h.input_isSome
  case output => simp [hboundary, hsame.output]
  case told => simp [hboundary, hsame.hostInbox]

/-- Settles O36: the run ends in a cycle, whose boundary closes the channels and reports. -/
theorem endOfRunClosesChannelsAndReports : Obligations.EndOfRunClosesChannelsAndReports := by
  intro w e e' rest hr hmoves hstep hended
  obtain ⟨e2, hturn, ht⟩ := engineTurn_turns { e with agenda := rest }
  obtain rfl : e2 = e' := by simpa [step_of_movesNext hmoves, hturn] using hstep
  obtain ⟨e1, hc, hended1, rfl⟩ := ht.cycle_of_ended hr hended
  obtain ⟨hclosed, hin, hout, htold⟩ := hc.shutsDown hended1
  refine ⟨hclosed, hin, by simp [hout], fun ch ch' hch hch' => ?_, htold⟩
  obtain rfl : ch.close = ch' := by simpa [hout, hch] using hch'
  exact ⟨ch.close_isOpen, ch.close_waiting, ch.close_queue, ch.close_delivered⟩

/-! ### A termination -/

theorem HostCalls.cycles {e e' : Engine w} (h : HostCalls e e') : e'.cycles = e.cycles := by
  cases h <;> rfl

@[simp] theorem Engine.rendererAct_cycles (e : Engine w) (a : RendererAct w) : (e.rendererAct a).cycles = e.cycles := by
  cases a <;> rfl

/-- A step counts no cycle where none executes. -/
theorem Steps.cycles_of_dormant {e e' : Engine w} (h : Steps e e') (hd : e.Dormant) : e'.cycles = e.cycles := by
  cases h with
  | alone _ _ ht => rw [ht.eq_of_dormant hd]
  | engine _ _ _ ht => rw [ht.eq_of_dormant (e.popTurn_keepsRun.dormant hd), e.popTurn_cycles]
  | host c _ _ hc => exact hc.cycles
  | renderer a _ _ => exact e.popTurn.rendererAct_cycles a

theorem Engine.Dormant.runsTo_cycles {e : Engine w} (hd : e.Dormant) (k : Nat) :
    RunsTo k e fun e' => e.KeepsRun e' ∧ e'.cycles = e.cycles :=
  runsTo_of_steps (fun _ _ ⟨hkeeps, hcycles⟩ hs =>
    have hd' := hkeeps.dormant hd
    ⟨hkeeps.trans (hs.keepsRun hd'), (hs.cycles_of_dormant hd').trans hcycles⟩) k ⟨.refl e, rfl⟩

/-- The first termination request: the dump where it is produced, the report, and the mark, nothing else
(60_exceptions.md R230). -/
theorem Engine.terminate_eq {e : Engine w} (h : e.terminated = false) (dump : Bool) :
    e.terminate dump =
      { e with terminated := true,
               hostInbox := e.hostInbox ++ (if dump then [.dump e.core] else []) ++ [.outcome .terminated] } := by
  cases dump <;> simp [Engine.terminate, h, Engine.tellHost, Engine.dumpCore]

theorem step_of_termination {e : Engine w} {dump : Bool} {rest : List (Turn w)} (hterm : e.terminated = false)
    (hagenda : e.agenda = .host (.terminate dump) :: rest) :
    step ⟨w, e⟩ = .next ⟨w, { e with
      agenda := rest, terminated := true,
      hostInbox := e.hostInbox ++ (if dump then [.dump e.core] else []) ++ [.outcome .terminated] }⟩ := by
  rw [step_host e _ rest hagenda, Engine.hostCall,
    Engine.terminate_eq (e := { e with agenda := rest }) hterm]

/-- Settles O43: a terminated engine is stopped, so it executes no cycle and keeps its MachineState. -/
theorem terminationStopsTheEngine : Obligations.TerminationStopsTheEngine := by
  intro w e rest dump k hterm hagenda
  refine ⟨_, step_of_termination hterm hagenda, rfl, rfl, rfl, ?_⟩
  exact RunsTo.imp (Engine.Dormant.runsTo_cycles (Engine.Stopped.dormant (.inr rfl)) k)
    fun _ ⟨hkeeps, hcycles⟩ => ⟨hkeeps.core, hkeeps.terminated rfl, hcycles⟩

end Sys2Proof.Machine
end

section
/-! The Bridge at a boundary that owes a snapshot, and the debug services (60_exceptions.md R241, R243, R245). -/

namespace Sys2Proof.Machine

variable {w : Nat}

/-! ### The debug services -/

/-- Settles O44: both calls add their answer to the host's messages. -/
theorem debugServicesOnlyRead : Obligations.DebugServicesOnlyRead :=
  fun _ e rest word => ⟨step_host e .dumpCore rest, step_host e (.disassemble word) rest⟩

/-! ### The send of a snapshot -/

theorem OutChannel.hasRoom_iff (ch : OutChannel w) (cap : Option Nat) :
    ch.hasRoom cap = true ↔ ∀ n, cap = some n → ch.queue.length < n := by
  cases cap <;> simp [OutChannel.hasRoom]

theorem OutChannel.hasRoom_eq_false_iff (ch : OutChannel w) (cap : Option Nat) :
    ch.hasRoom cap = false ↔ ∃ n, cap = some n ∧ n ≤ ch.queue.length := by
  cases cap <;> simp [OutChannel.hasRoom]

/-- A send to a blocked renderer is handed over, whatever the capacity (log entry 11). -/
theorem OutChannel.send?_of_waiting {ch : OutChannel w} (h : ch.waiting = true) (cap : Option Nat) (m : MachineState w) :
    ch.send? cap m = some { ch with waiting := false, delivered := ch.delivered ++ [.snapshot m] } :=
  if_pos h

theorem OutChannel.send?_of_room {ch : OutChannel w} (h : ch.waiting = false) {cap : Option Nat}
    (hroom : ch.hasRoom cap = true) (m : MachineState w) :
    ch.send? cap m = some { ch with queue := ch.queue ++ [m] } := by
  simp [OutChannel.send?, h, hroom]

theorem Engine.trySend_of_sent {e : Engine w} {ch ch' : OutChannel w} (hch : e.output = some ch)
    (hsend : ch.send? e.cfg.outputCapacity e.core = some ch') :
    e.trySend = { e with output := some ch', snapshotDue := false } := by
  simp only [Engine.trySend, hch, hsend]

/-- A send that blocks holds the engine at the boundary (60_exceptions.md R241). -/
theorem Engine.trySend_of_blocked {e : Engine w} {ch : OutChannel w} (hch : e.output = some ch)
    (hsend : ch.send? e.cfg.outputCapacity e.core = none) : e.trySend = e := by
  simp only [Engine.trySend, hch, hsend]

/-- A running engine that owes a snapshot on the channel `ch` moves next, alone or by the agenda, whose turns after it are
`rest` (60_exceptions.md R241). -/
structure Engine.MustSend (e : Engine w) (ch : OutChannel w) (rest : List (Turn w)) : Prop where
  running : e.core.runState = .running
  notTerminated : e.terminated = false
  sendOwed : e.snapshotDue = true
  moves : e.MovesNext rest
  output : e.output = some ch

section
variable {e : Engine w} {ch : OutChannel w} {rest : List (Turn w)}

/-- The step of an engine that owes a snapshot is the try of the send. -/
theorem Engine.MustSend.step_eq_trySend (h : e.MustSend ch rest) :
    step ⟨w, e⟩ = .next ⟨w, ({ e with agenda := rest } : Engine w).trySend⟩ := by
  rw [step_of_movesNext h.moves]
  simp [State.engineTurn, h.running, h.notTerminated, h.sendOwed]

theorem Engine.MustSend.step_of_sent (h : e.MustSend ch rest) {ch' : OutChannel w}
    (hsend : ch.send? e.cfg.outputCapacity e.core = some ch') :
    step ⟨w, e⟩ = .next ⟨w, { e with agenda := rest, snapshotDue := false, output := some ch' }⟩ := by
  rw [h.step_eq_trySend, Engine.trySend_of_sent (e := { e with agenda := rest }) h.output hsend]

theorem Engine.MustSend.step_of_blocked (h : e.MustSend ch rest)
    (hsend : ch.send? e.cfg.outputCapacity e.core = none) : step ⟨w, e⟩ = .next ⟨w, { e with agenda := rest }⟩ := by
  rw [h.step_eq_trySend, Engine.trySend_of_blocked (e := { e with agenda := rest }) h.output hsend]

end

/-- Settles O46: the step tries the send, which goes to a waiting renderer, else into a channel with room, else blocks. -/
theorem snapshotSendNeverChangesEngineState : Obligations.SnapshotSendNeverChangesEngineState := by
  intro w e ch rest hr hterm hdue hmoves hch
  have hmust : e.MustSend ch rest := ⟨hr, hterm, hdue, hmoves, hch⟩
  refine ⟨fun hwaits => ?handedOver, fun hwaits hroom => ?queued, fun hwaits hfull => ?blocked⟩
  case handedOver => exact hmust.step_of_sent (OutChannel.send?_of_waiting hwaits _ _)
  case queued => exact hmust.step_of_sent (OutChannel.send?_of_room hwaits ((ch.hasRoom_iff _).2 hroom) _)
  case blocked =>
    exact hmust.step_of_blocked ((ch.send?_none _ _).2 ⟨hwaits, (ch.hasRoom_eq_false_iff _).2 hfull⟩)

/-! ### A receive makes room -/

/-- After a receive on an open channel a send is taken: the renderer waits, or the snapshot it took has left room for one
more (60_exceptions.md R245, last row). -/
theorem OutChannel.Sound.send?_receive {cap : Option Nat} {ch : OutChannel w} (h : ch.Sound cap)
    (hopen : ch.isOpen = true) (m : MachineState w) : ∃ ch', ch.receive.send? cap m = some ch' := by
  obtain ⟨hwaits, hr⟩ | ⟨hwaits, m', rest, hq, hr⟩ | ⟨-, -, -, hr⟩ | ⟨-, -, hclosed, -⟩ := ch.receive_cases
  · exact ⟨_, hr ▸ OutChannel.send?_of_waiting hwaits cap m⟩
  · have hroom : ch.receive.hasRoom cap = true := by
      refine (ch.receive.hasRoom_iff cap).2 fun n hn => ?_
      simpa [hr, hq] using h.capacity_kept n hn
    exact ⟨_, OutChannel.send?_of_room (by rw [hr]; exact hwaits) hroom m⟩
  · exact ⟨_, OutChannel.send?_of_waiting (by rw [hr]) cap m⟩
  · simp [hopen] at hclosed

/-- Settles O47: the invariant gives an open output channel, on which the send after the receive is taken. -/
theorem receiveUnblocksSend : Obligations.ReceiveUnblocksSend := by
  intro w e hinv hdue hterm hagenda
  obtain ⟨hr, hpresent⟩ := hinv.due_running hdue
  obtain ⟨ch, hch⟩ := Option.isSome_iff_exists.1 hpresent
  have hopen : ch.isOpen = true := (hinv.output_open ch hch).2 (MachineState.not_ended_of_running hr)
  obtain ⟨ch', hsend⟩ := (hinv.output_sound ch hch).send?_receive hopen e.core
  have hmust : (({ e with agenda := [.engine] } : Engine w).rendererAct .receiveSnapshot).MustSend ch.receive [] :=
    ⟨hr, hterm, hdue, .inr rfl, by simp [Engine.rendererAct, hch]⟩
  exact .cons (step_renderer e _ _ hagenda) (.cons (hmust.step_of_sent hsend) ⟨_, rfl, rfl, rfl⟩)

end Sys2Proof.Machine
end

section
/-! The invariant at construction (00_scope.md R6, 10_state.md R40, 70_reset_and_hazards.md R260): a fresh engine is Ready,
its channels are open and empty, and its memory is MEM_INIT, which the check of the parameters has found canonical and in
range. -/

namespace Sys2Proof.Machine

variable {w : Nat}

theorem parametersInRange_iff (cfg : Config w) :
    parametersInRange cfg = true ↔ 16 ≤ w ∧ 1 ≤ cfg.memWords ∧ Memory.wf cfg.memInit = true ∧
      Memory.within cfg.memWords cfg.memInit = true := by
  simp [parametersInRange, and_assoc]

/-! ### MachineState of a fresh engine -/

theorem Engine.fresh_not_ended (cfg : Config w) : ¬ (Engine.fresh cfg).core.Ended := by
  simp [MachineState.Ended, Engine.fresh]

/-- HALT and the fault cause are clear in Ready; the memory is the part that rests on the check of MEM_INIT. -/
theorem Engine.fresh_core_sound {cfg : Config w} (hp : parametersInRange cfg = true) :
    (Engine.fresh cfg).core.Sound cfg.memWords := by
  obtain ⟨-, -, hwf, hwithin⟩ := (parametersInRange_iff cfg).1 hp
  exact ⟨hwf, hwithin, by simp [Engine.fresh], by simp [Engine.fresh]⟩

/-! ### The channels of a fresh engine -/

theorem Engine.fresh_input_isSome (cfg : Config w) : (Engine.fresh cfg).input.isSome = cfg.hasInput := by
  cases hin : cfg.hasInput <;> simp [Engine.fresh_input, hin]

theorem Engine.fresh_output_isSome (cfg : Config w) : (Engine.fresh cfg).output.isSome = cfg.hasOutput := by
  cases hout : cfg.hasOutput <;> simp [Engine.fresh_output, hout]

/-- No renderer waits on a fresh channel, and its empty queue is within every capacity. -/
theorem Engine.fresh_output_sound (cfg : Config w) (cap : Option Nat) (ch : OutChannel w)
    (h : (Engine.fresh cfg).output = some ch) : ch.Sound cap := by
  rw [Engine.fresh_output, Option.ite_none_right_eq_some] at h
  obtain ⟨-, ⟨⟩⟩ := h
  exact ⟨by simp, fun n _ => Nat.zero_le n⟩

/-! ### The invariant -/

theorem Engine.fresh_inv {cfg : Config w} (hp : parametersInRange cfg = true) : (Engine.fresh cfg).Inv :=
  { Engine.fresh_core_sound hp with
    input_present := Engine.fresh_input_isSome cfg
    output_present := Engine.fresh_output_isSome cfg
    ended_input_closed := fun hended => absurd hended (Engine.fresh_not_ended cfg)
    output_open := fun ch hch =>
      iff_of_true (Engine.fresh_output_open cfg ch hch).2 (Engine.fresh_not_ended cfg)
    output_sound := Engine.fresh_output_sound cfg cfg.outputCapacity
    due_running := by simp [Engine.fresh]
    boot_failed := fun _ => rfl }

/-- Settles O56: construction gives the fresh engine, and only of parameters within their constraints. -/
theorem constructionGivesTheInvariant : Obligations.ConstructionGivesTheInvariant := by
  intro w cfg s hconstruct
  obtain ⟨-, hp, rfl⟩ := (State.construct_eq_next_iff cfg s).1 hconstruct
  exact Engine.fresh_inv hp

/-- Settles O55: the reset state is the one constructed with the reference configuration. -/
theorem resetHasTheInvariant : Obligations.ResetHasTheInvariant :=
  constructionGivesTheInvariant _ _ _ construct_reference_eq_reset

end Sys2Proof.Machine
end
